-- ==== Sys2Proof/Config.lean ====
section
/-! DEFINITION. The parameters of UFC (spec/00_scope.md R5), the launch premise Configured (R12), and the free values
of the model. Every number here is a parameter of the spec; nothing below bakes one in by value. -/

namespace Sys2Proof.Config

/-- CAPACITY (R5): the number of queue slots. -/
abbrev capacity : Nat := 8

/-- UNIT_W (R5, R20): bits of a Unit, of every slot, of RDR and of TDR. -/
abbrev unitW : Nat := 16

/-- PAYLOAD_W (R5, R183): bits of a unit that the wire carries. -/
abbrev payloadW : Nat := 8

/-- XFORM_OFFSET (R5, R141): the constant the transform subtracts. -/
abbrev xformOffset : Nat := 32

/-- IDX_W (R5, R22): width of `head` and `tail`, the base-2 logarithm of CAPACITY. -/
abbrev idxW : Nat := 3

/-- LEN_W (R5, R22): width of `len`. -/
abbrev lenW : Nat := 4

/-- CMD_W (R5, R80): width of a command word CMD24. -/
abbrev cmdW : Nat := 24

/-- RSP_W (R5, R83): width of a response word RSP17. -/
abbrev rspW : Nat := 17

/-- N_PORTS (R5): UART entities served; no rule reads it. -/
abbrev nPorts : Nat := 1

/-- N_VECTORS (R5, R199): interrupt vectors; no rule reads it. -/
abbrev nVectors : Nat := 1

/-- N_PRIORITIES (R5, R239): the premise "a single priority level" behind IRQENT's condition `phase = IDLE`. -/
abbrev nPriorities : Nat := 1

/-- BAUD (R5): timing only; no rule reads it. -/
abbrev baud : Nat := 9600

/-- VECTOR_ID (R5, spec/93 U12): OPEN; no rule reads it, so it is a free value (assumption log 11). -/
opaque vectorId : Nat

/-- The policies spec/93_implementation_defined.md U1 lists for a unit below XFORM_OFFSET. -/
inductive XformLow where
  | wrap         -- the result is (u - 32) mod 2^16 (the spec's default, R141)
  | clamp        -- the result is 0
  | passThrough  -- the result is u
  | trap         -- the step faults
deriving DecidableEq, Repr

/-- XFORM_LOW (R5): the policy this hardware takes, R141's wrap (assumption log 6). -/
def xformLow : XformLow := .wrap

/-- What the external collaborator must have finished before UFC starts (R12, spec/70 R233). -/
structure Launch where
  peripheralClockEnabled : Bool
  pinsBound              : Bool
  baudDivisorProgrammed  : Bool
  transmitterEnabled     : Bool
  receiverEnabled        : Bool
deriving DecidableEq, Repr

/-- The premise Configured as a condition on what the collaborator did (R12). -/
def Launch.configured (l : Launch) : Bool :=
  l.peripheralClockEnabled && l.pinsBound && l.baudDivisorProgrammed && l.transmitterEnabled && l.receiverEnabled

/-- The launch this model is a model of: the collaborator has finished (R12; assumption log 8). -/
def launch : Launch := ⟨true, true, true, true, true⟩

/-- FREE VALUE (R9, R40; assumption log 3): which agent takes the n-th step that the inbox does not fix. -/
opaque freeAgent : Nat → Fin 4

/-- FREE VALUE (R9, R40; assumption log 3): the CMD24 word of the n-th step that the inbox does not fix. -/
opaque freeWord : Nat → BitVec cmdW

end Sys2Proof.Config
end

