-- ==== Sys2Proof/Word.lean ====
section
/-! DEFINITION. The word types of UFC: the Unit (spec/10_state.md R20), the slot index and the queue length (R22), the
command word (spec/30_encoding.md R80) and the response word (R83). No value of this hardware is signed (R6). -/

namespace Sys2Proof

/-- A Unit (R20): an unsigned value of UNIT_W bits. The spec calls it "Unit"; Lean's own `Unit` is another type. -/
abbrev Datum : Type := BitVec Config.unitW

/-- A slot index (R22): `head` and `tail`. -/
abbrev Index : Type := BitVec Config.idxW

/-- The queue length `len` (R22). -/
abbrev Len : Type := BitVec Config.lenW

/-- A command word CMD24 (R80, R81). -/
abbrev Cmd : Type := BitVec Config.cmdW

/-- A response word RSP17 (R83). -/
abbrev Rsp : Type := BitVec Config.rspW

end Sys2Proof
end

