-- ==== Sys2Proof/Syntax.lean ====
section
/-! DEFINITION. The operations of UFC (spec/30_encoding.md R84), their agents (spec/00_scope.md R8), their result types
(R83) and the pseudo-operations (R88). -/

namespace Sys2Proof

/-- The 24 operations of R84, one constructor a row of spec/opcode_table.json. The one operand form is a Unit taken as
it stands (R82), so every term is well formed; the checks of R85 are on words (`WellFormed`). -/
inductive Instr where
  -- group 0, Peripheral Interface
  | rxrdy
  | txrdy
  | ovr
  | rdu
  | wru (u : Datum)
  | clrovr
  | txien
  | txidis
  | rxien
  -- group 1, queue
  | enq (u : Datum)
  | deq
  | qempty
  | qlen
  | qnew
  -- group 2, sequencer and initialisation
  | irqent
  | svctx
  | svcrx
  | svcovr
  | xform (u : Datum)
  | handoff
  | unmask
  | wfi
  -- group 3, line events
  | rxarr (u : Datum)
  | txdrn
deriving DecidableEq, Repr

/-- The four agents that take steps (R8). -/
inductive Agent where
  | initialiser
  | controller
  | sequencer
  | line
deriving DecidableEq, Repr

/-- The result of ENQ, `Result<(), Full>` (R83, R122). -/
inductive EnqResult where
  | ok
  | full
deriving DecidableEq, Repr

/-- A result by its type in R83's table. -/
inductive Result where
  | nothing                       -- result type none
  | bool   (b : Bool)
  | datum  (u : Datum)            -- result type Unit
  | enq    (r : EnqResult)        -- result type Result<(), Full>
  | option (o : Option Datum)     -- result type Option<Unit>
  | length (n : Len)
deriving DecidableEq, Repr

/-- The result types of R83's table. -/
inductive ResultType where
  | nothing
  | bool
  | datum
  | enq
  | option
  | length
deriving DecidableEq, Repr

/-- The type of a result (R83). -/
def Result.type : Result → ResultType
  | .nothing  => .nothing
  | .bool _   => .bool
  | .datum _  => .datum
  | .enq _    => .enq
  | .option _ => .option
  | .length _ => .length

/-- The result column of R84. -/
def Instr.resultType : Instr → ResultType
  | .rxrdy | .txrdy | .ovr | .qempty => .bool
  | .rdu | .xform _ => .datum
  | .enq _ => .enq
  | .deq => .option
  | .qlen => .length
  | .wru _ | .clrovr | .txien | .txidis | .rxien | .qnew => .nothing
  | .irqent | .svctx | .svcrx | .svcovr | .handoff | .unmask | .wfi => .nothing
  | .rxarr _ | .txdrn => .nothing

/-- The pseudo-operation SVC (R88): one whole service invocation, four separate steps. -/
def pseudoSvc : List Instr := [.irqent, .svctx, .svcrx, .svcovr]

/-- The pseudo-operation INIT (R88, spec/43 R164): the initialisation sequence, five separate steps. -/
def pseudoInit : List Instr := [.qnew, .rxien, .handoff, .unmask, .wfi]

end Sys2Proof
end

