-- ==== Sys2Proof/WellFormed.lean ====
section
/-! DEFINITION. Well-formedness. A term of `Instr` has no ill-formed value (its operand type is exactly the Unit of
R82), so the checks are those of spec/30_encoding.md R85 on a CMD24 word: a word is well formed when it spells an operation.
They are written from R85's text and not from the decoder; that the two agree is a statement of its own. -/

namespace Sys2Proof.WellFormed

/-- R85 (a): the group, bits 23:20, is one of 0 to 3. -/
def groupAssigned (w : Cmd) : Bool := w.toNat / 2 ^ 20 < 4

/-- R85 (b): the function, bits 19:16, is assigned within its group: fewer than 9, 5, 8, 2 in groups 0, 1, 2, 3. -/
def functionAssigned (w : Cmd) : Bool :=
  let fn := w.toNat / 2 ^ 16 % 16
  match w.toNat / 2 ^ 20 with
  | 0 => fn < 9
  | 1 => fn < 5
  | 2 => fn < 8
  | 3 => fn < 2
  | _ => false

/-- The four operation codes that take an operand (R84, R86): WRU, ENQ, XFORM, RXARR. -/
def operandCodes : List Nat := [0x04, 0x10, 0x24, 0x30]

/-- R85 (c): the operand field, bits 15:0, is 0 unless the operation takes an operand. -/
def operandAllowed (w : Cmd) : Bool :=
  operandCodes.contains (w.toNat / 2 ^ 16) || w.toNat % 2 ^ 16 == 0

/-- A CMD24 word that spells an operation (R86). -/
def word (w : Cmd) : Bool := groupAssigned w && functionAssigned w && operandAllowed w

end Sys2Proof.WellFormed
end

