-- ==== Sys2Proof/Decode.lean ====
section
/-! DEFINITION. The decoder and the encoder of CMD24 (spec/30_encoding.md R81, R84 to R86), the response word RSP17 (R83),
and the text form of an operation and a result (R87). Both directions are written from R84's table. -/

namespace Sys2Proof

/-- Why a word spells no operation: the three cases of R85. The machine answers each with the refusal
`ReservedEncoding`. -/
inductive Reserved where
  | group     -- R85 (a)
  | function  -- R85 (b)
  | operand   -- R85 (c)
deriving DecidableEq, Repr

/-- `grp`, bits 23:20 (R81). -/
def fieldGrp (w : Cmd) : BitVec 4 := w.extractLsb' 20 4

/-- `fn`, bits 19:16 (R81). -/
def fieldFn (w : Cmd) : BitVec 4 := w.extractLsb' 16 4

/-- `u`, bits 15:0, taken as it stands (R81, R82). -/
def fieldU (w : Cmd) : Datum := w.extractLsb' 0 16

/-- An operation whose operand column in R84 is a dash: `u` must be 0 (R81, R85 (c)). -/
def withoutOperand (i : Instr) (u : Datum) : Except Reserved Instr :=
  if u = 0 then .ok i else .error .operand

/-- Group 0, Peripheral Interface (R84). -/
def decodePeripheral (fn : BitVec 4) (u : Datum) : Except Reserved Instr :=
  match fn.toNat with
  | 0 => withoutOperand .rxrdy u
  | 1 => withoutOperand .txrdy u
  | 2 => withoutOperand .ovr u
  | 3 => withoutOperand .rdu u
  | 4 => .ok (.wru u)
  | 5 => withoutOperand .clrovr u
  | 6 => withoutOperand .txien u
  | 7 => withoutOperand .txidis u
  | 8 => withoutOperand .rxien u
  | _ => .error .function

/-- Group 1, queue (R84). -/
def decodeQueue (fn : BitVec 4) (u : Datum) : Except Reserved Instr :=
  match fn.toNat with
  | 0 => .ok (.enq u)
  | 1 => withoutOperand .deq u
  | 2 => withoutOperand .qempty u
  | 3 => withoutOperand .qlen u
  | 4 => withoutOperand .qnew u
  | _ => .error .function

/-- Group 2, sequencer and initialisation (R84). -/
def decodeSequencer (fn : BitVec 4) (u : Datum) : Except Reserved Instr :=
  match fn.toNat with
  | 0 => withoutOperand .irqent u
  | 1 => withoutOperand .svctx u
  | 2 => withoutOperand .svcrx u
  | 3 => withoutOperand .svcovr u
  | 4 => .ok (.xform u)
  | 5 => withoutOperand .handoff u
  | 6 => withoutOperand .unmask u
  | 7 => withoutOperand .wfi u
  | _ => .error .function

/-- Group 3, line events (R84). -/
def decodeLine (fn : BitVec 4) (u : Datum) : Except Reserved Instr :=
  match fn.toNat with
  | 0 => .ok (.rxarr u)
  | 1 => withoutOperand .txdrn u
  | _ => .error .function

/-- The decoder, total on every 24-bit word (R86). -/
def decode (w : Cmd) : Except Reserved Instr :=
  match (fieldGrp w).toNat with
  | 0 => decodePeripheral (fieldFn w) (fieldU w)
  | 1 => decodeQueue (fieldFn w) (fieldU w)
  | 2 => decodeSequencer (fieldFn w) (fieldU w)
  | 3 => decodeLine (fieldFn w) (fieldU w)
  | _ => .error .group

/-- The operation code `op = grp ++ fn` of each operation, R84's first column. -/
def opcode : Instr → BitVec 8
  | .rxrdy   => 0x00
  | .txrdy   => 0x01
  | .ovr     => 0x02
  | .rdu     => 0x03
  | .wru _   => 0x04
  | .clrovr  => 0x05
  | .txien   => 0x06
  | .txidis  => 0x07
  | .rxien   => 0x08
  | .enq _   => 0x10
  | .deq     => 0x11
  | .qempty  => 0x12
  | .qlen    => 0x13
  | .qnew    => 0x14
  | .irqent  => 0x20
  | .svctx   => 0x21
  | .svcrx   => 0x22
  | .svcovr  => 0x23
  | .xform _ => 0x24
  | .handoff => 0x25
  | .unmask  => 0x26
  | .wfi     => 0x27
  | .rxarr _ => 0x30
  | .txdrn   => 0x31

/-- The operand of the four operations that have one, in an Option (R84's third column). -/
def operand? : Instr → Option Datum
  | .wru u | .enq u | .xform u | .rxarr u => some u
  | .rxrdy | .txrdy | .ovr | .rdu | .clrovr | .txien | .txidis | .rxien => none
  | .deq | .qempty | .qlen | .qnew => none
  | .irqent | .svctx | .svcrx | .svcovr | .handoff | .unmask | .wfi => none
  | .txdrn => none

/-- The encoder: `op` in bits 23:16, the operand or 0 in bits 15:0 (R81). -/
def encode (i : Instr) : Cmd := opcode i ++ (operand? i).getD 0

/-- The response word of a result (R83): bit 16 is `v`, bits 15:0 are `d`. -/
def encodeResult : Result → Rsp
  | .nothing         => 1#1 ++ 0#16
  | .bool b          => BitVec.ofBool b ++ 0#16
  | .datum u         => 1#1 ++ u
  | .enq .ok         => 1#1 ++ 0#16
  | .enq .full       => 0#1 ++ 0#16
  | .option (some u) => 1#1 ++ u
  | .option none     => 0#1 ++ 0#16
  | .length n        => 1#1 ++ n.setWidth 16

/-- The instruction the decoder reads from an opcode-table word of `nbits` bits. A CMD24 word is one word of 24 bits
(R80), so bit k of `w` is bit k of the command and every bit above `nbits` is 0; a number of more than 24 bits is no
command. -/
def decodeTableWord (nbits w : Nat) : Option Instr :=
  if w % 2 ^ nbits < 2 ^ Config.cmdW then
    match decode (BitVec.ofNat Config.cmdW (w % 2 ^ nbits)) with
    | .ok i    => some i
    | .error _ => none
  else none

/-- The agent of R8's table whose step a word spells, as the issuer a command runs under when nothing else says so:
none ("outside any context", R90) for groups 0 and 1, whose functions are bare state transformers, and for XFORM, a pure
function and no agent's step; the controller for IRQENT, the sequencer for the three phases, the initialiser for the rest of
group 2; the line for group 3. -/
def defaultIssuer (w : Cmd) : Option Agent :=
  match (fieldGrp w).toNat, (fieldFn w).toNat with
  | 0, _ => none
  | 1, _ => none
  | 2, 0 => some .controller
  | 2, 1 => some .sequencer
  | 2, 2 => some .sequencer
  | 2, 3 => some .sequencer
  | 2, 4 => none
  | 3, _ => some .line
  | _, _ => some .initialiser

/-! ### Text form (R87) -/

/-- The mnemonic of each operation, R84's second column. -/
def mnemonic : Instr → String
  | .rxrdy   => "RXRDY"
  | .txrdy   => "TXRDY"
  | .ovr     => "OVR"
  | .rdu     => "RDU"
  | .wru _   => "WRU"
  | .clrovr  => "CLROVR"
  | .txien   => "TXIEN"
  | .txidis  => "TXIDIS"
  | .rxien   => "RXIEN"
  | .enq _   => "ENQ"
  | .deq     => "DEQ"
  | .qempty  => "QEMPTY"
  | .qlen    => "QLEN"
  | .qnew    => "QNEW"
  | .irqent  => "IRQENT"
  | .svctx   => "SVCTX"
  | .svcrx   => "SVCRX"
  | .svcovr  => "SVCOVR"
  | .xform _ => "XFORM"
  | .handoff => "HANDOFF"
  | .unmask  => "UNMASK"
  | .wfi     => "WFI"
  | .rxarr _ => "RXARR"
  | .txdrn   => "TXDRN"

/-- An operation in the text form: its mnemonic, then one space and the unit in decimal where it has one (R87). -/
def printInstr (i : Instr) : String :=
  match operand? i with
  | some u => mnemonic i ++ " " ++ u.toNat.repr
  | none   => mnemonic i

/-- A result in the text form (R87); the result type none prints nothing. -/
def printResult : Result → String
  | .nothing         => ""
  | .bool true       => "true"
  | .bool false      => "false"
  | .datum u         => u.toNat.repr
  | .enq .ok         => "Ok"
  | .enq .full       => "Full"
  | .option (some u) => "Some(" ++ u.toNat.repr ++ ")"
  | .option none     => "None"
  | .length n        => n.toNat.repr

/-- One line of a trace: the operation, and after `->` its result where it has one (R87). -/
def printLine (i : Instr) (r : Result) : String :=
  match r with
  | .nothing => printInstr i
  | _        => printInstr i ++ " -> " ++ printResult r

/-- A decimal or hexadecimal digit's value below `base`. -/
def digitValue (base : Nat) (c : Char) : Option Nat :=
  let n := c.toNat
  let v := if 48 ≤ n ∧ n ≤ 57 then n - 48
    else if 97 ≤ n ∧ n ≤ 102 then n - 87
    else if 65 ≤ n ∧ n ≤ 70 then n - 55
    else base
  if v < base then some v else none

/-- The number a non-empty list of digits spells. -/
def parseDigits (base : Nat) : List Char → Nat → Option Nat
  | [], acc      => some acc
  | c :: cs, acc => match digitValue base c with
    | some d => parseDigits base cs (acc * base + d)
    | none   => none

/-- A unit as a decimal or 0x hexadecimal numeral in 0 .. 65535 (R87). -/
def parseDatum (cs : List Char) : Option Datum :=
  let n := match cs with
    | []                     => none
    | '0' :: 'x' :: d :: ds  => parseDigits 16 (d :: ds) 0
    | ds                     => parseDigits 10 ds 0
  match n with
  | some v => if v < 2 ^ Config.unitW then some (BitVec.ofNat Config.unitW v) else none
  | none   => none

/-- The 20 operations without operand. -/
def plainInstrs : List Instr :=
  [.rxrdy, .txrdy, .ovr, .rdu, .clrovr, .txien, .txidis, .rxien, .deq, .qempty, .qlen, .qnew,
    .irqent, .svctx, .svcrx, .svcovr, .handoff, .unmask, .wfi, .txdrn]

/-- The four operations with operand `u`. -/
def operandInstrs (u : Datum) : List Instr := [.wru u, .enq u, .xform u, .rxarr u]

/-- A line up to its comment, which runs from `;` to the end of the line (R87), without the spaces before it. -/
def stripComment (cs : List Char) : List Char :=
  ((cs.takeWhile (· != ';')).reverse.dropWhile (· == ' ')).reverse

/-- The operation a text without comment and response spells (R87); none where it spells no operation. -/
def parseInstr (cs : List Char) : Option Instr :=
  match cs.dropWhile (· != ' ') with
  | []      => plainInstrs.find? fun i => (mnemonic i).toList == cs
  | _ :: ds => match parseDatum ds with
    | some u => (operandInstrs u).find? fun i => (mnemonic i).toList == cs.takeWhile (· != ' ')
    | none   => none

/-- A response of the given type in the text form (R87). -/
def parseResult (t : ResultType) (cs : List Char) : Option Result :=
  match t with
  | .nothing => if cs == [] then some .nothing else none
  | .bool    => if cs == "true".toList then some (.bool true)
      else if cs == "false".toList then some (.bool false) else none
  | .datum   => (parseDatum cs).map .datum
  | .enq     => if cs == "Ok".toList then some (.enq .ok)
      else if cs == "Full".toList then some (.enq .full) else none
  | .option  => if cs == "None".toList then some (.option none)
      else if cs.take 5 == "Some(".toList && cs.getLast? == some ')' then
        (parseDatum (cs.drop 5).dropLast).map fun u => .option (some u)
      else none
  | .length  => match parseDatum cs with
      | some u => if u.toNat < 2 ^ Config.lenW then some (.length (u.setWidth Config.lenW)) else none
      | none   => none

/-- The text before a ` -> `, and the text after it where there is one (R87). -/
def splitArrow : List Char → List Char × Option (List Char)
  | ' ' :: '-' :: '>' :: ' ' :: rest => ([], some rest)
  | c :: cs => let r := splitArrow cs; (c :: r.1, r.2)
  | [] => ([], none)

/-- A line of the text form (R87): the operation, and its response where the line gives one. -/
def parseLine (line : List Char) : Option (Instr × Option Result) :=
  let p := splitArrow (stripComment line)
  match parseInstr p.1, p.2 with
  | some i, none   => some (i, none)
  | some i, some r => (parseResult i.resultType r).map fun x => (i, some x)
  | none, _        => none

end Sys2Proof
end

