-- ==== Sys2Proof/Machine/State.lean ====
section
/-! DEFINITION. The state of UFC (spec/10_state.md R20 to R38, R41), why a step can stop (spec/60_exceptions.md R196), and
the state after power-on reset. The state is plain data. -/

namespace Sys2Proof.Machine

/-- `phase` (R33): the position of the service sequencer, the counterpart of a program counter. -/
inductive Phase where
  | idle
  | tx
  | rx
  | ovr
deriving DecidableEq, Repr

/-- The 2-bit encoding of `phase` (R33). -/
def Phase.code : Phase → BitVec 2
  | .idle => 0
  | .tx   => 1
  | .rx   => 2
  | .ovr  => 3

/-- `OWNER` (R34): which context holds the Peripheral Handle and the queue. -/
inductive Owner where
  | init   -- the initialiser
  | isr    -- the interrupt context
deriving DecidableEq, Repr

/-- The 1-bit encoding of `OWNER` (R34). -/
def Owner.code : Owner → BitVec 1
  | .init => 0
  | .isr  => 1

/-- One chosen step (R9): who issues it and its CMD24 word. `issuer = none` is "outside any context" (R90, last
paragraph). The model's own type (assumption log 3, 4). -/
structure Command where
  issuer : Option Agent
  word   : Cmd
deriving DecidableEq, Repr

/-- The whole state: every element of spec/10_state.md, then the model's own fields. -/
structure State where
  /-- R21: the eight slot registers. -/
  slots : Vector Datum Config.capacity
  /-- R22: index of the oldest unit. -/
  head : Index
  /-- R22: index the next ENQ writes. -/
  tail : Index
  /-- R22: number of units held. -/
  len : Len
  /-- R35: QNEW has constructed the queue. -/
  qbuilt : Bool
  /-- R25: transmit-interrupt enable. -/
  txeie : Bool
  /-- R26: receive-interrupt enable. -/
  rxneie : Bool
  /-- R27: receive-ready. -/
  rxne : Bool
  /-- R28: transmit-ready. -/
  txe : Bool
  /-- R29: line overrun. -/
  ore : Bool
  /-- R30: receive data register. -/
  rdr : Datum
  /-- R31: transmit data register. -/
  tdr : Datum
  /-- R32: the one vector is unmasked at the interrupt controller. -/
  unmasked : Bool
  /-- R33: the sequencer's position. -/
  phase : Phase
  /-- R34: the holder of the handle and the queue. -/
  owner : Owner
  /-- R37, ghost: the units put on the transmit line, oldest first. -/
  txLine : List Datum
  /-- R38, ghost `drop_full`. -/
  dropFull : Nat
  /-- R38, ghost `drop_ovr`. -/
  dropOvr : Nat
  /-- R38, ghost `spurious_tx`. -/
  spuriousTx : Nat
  /-- R38, ghost `underflow_cnt`. -/
  underflowCnt : Nat
  /-- R38, ghost `txien_cnt`. -/
  txienCnt : Nat
  /-- R38, ghost `txidis_cnt`. -/
  txidisCnt : Nat
  /-- The model's own (R8, R90): the agent taking the current step, none for "outside any context". -/
  issuer : Option Agent
  /-- The model's own (R9, R40): the steps chosen and not yet taken, the next one first. -/
  inbox : List Command
  /-- The model's own (R83): the response word of the last completed operation. -/
  response : Option Rsp
  /-- The model's own (R83, R90): the response words of the evaluations of XFORM that the last step took in, in order
  (assumption log 18). -/
  evaluated : List Rsp
  /-- The model's own: how many free commands have been drawn (the argument of Config.freeAgent and freeWord). -/
  tick : Nat
deriving DecidableEq, Repr

/-- Why the machine stops with a fault. -/
inductive Fault where
  /-- F1 `UninitializedService` (R142, R196): raised by IRQENT when it is enabled while OWNER = INIT. Safe: the source does
  not say what the routine then does. -/
  | uninitializedService
  /-- Raised by XFORM and SVCRX for a unit below 32 under the policy `trap` of XFORM_LOW only (spec/93 U1); under the
  spec's policy, wrap, nothing raises it. Safe. -/
  | arithmeticUnderflow
deriving DecidableEq, Repr

/-- The fault's code in R196's table; the policy's fault has none there. -/
def Fault.code : Fault → Option String
  | .uninitializedService => some "F1"
  | .arithmeticUnderflow  => none

/-- Why a step is refused. No state changes (R7, R10). Every refusal is safe. -/
inductive Refusal where
  /-- An instruction without a meaning in this model: raised by no arm, since every instruction has its meaning. Safe. -/
  | notModelled (mnemonic : String)
  /-- E1 (R104, R196): RDU with RXNE = 0. Safe. -/
  | readNotReady
  /-- E2 (R105, R196): WRU with TXE = 0. Safe. -/
  | writeNotReady
  /-- E3 (R120, R161, R196): ENQ, DEQ, QEMPTY, QLEN, HANDOFF (and a phase that uses one) with QBUILT = 0. Safe. -/
  | queueNotBuilt
  /-- E4 (R121, R196): QNEW with QBUILT = 1. Safe. -/
  | alreadyBuilt
  /-- E5 (R90, R161, R196, R210): a context that does not hold the handle acts on the peripheral or the queue. Safe. -/
  | ownershipViolation
  /-- E6 (R90, R196): an operation that the source's sequences never perform in the issuing context, or a group-0 or group-1
  operation that the sequencer performs inside its phases only and never as a step (R9, R204). Safe (assumption log 10). -/
  | notInSequence
  /-- E7 (R85, R196): raised by the decoder's caller, `step`, for a word that spells no operation. Safe. -/
  | reservedEncoding
  /-- The operation's "enabled iff" condition does not hold, so there is no such step (R142 to R145, R182; spec/95 V3, V6.7):
  IRQENT, SVCTX, SVCRX, SVCOVR, TXDRN. Safe (assumption log 7). -/
  | notEnabled
  /-- R90's "no": the issuing agent has no such step at all. Also raised for a free choice of an evaluation, which is no step
  (assumption log 18). Safe (assumption log 7). -/
  | noSuchStep
  /-- The issuing context is not the one the one hardware thread is running (R8, R146, R204, R209): the initialiser inside a
  service invocation, or the sequencer's XFORM outside one. Safe (assumption log 10). -/
  | contextNotRunning
  /-- The launch premise Configured does not hold (R12): raised by `step` only. Safe (assumption log 8). -/
  | notConfigured
deriving DecidableEq, Repr

/-- The refusal's code in R196's table, for the seven that stand there. -/
def Refusal.code : Refusal → Option String
  | .readNotReady       => some "E1"
  | .writeNotReady      => some "E2"
  | .queueNotBuilt      => some "E3"
  | .alreadyBuilt       => some "E4"
  | .ownershipViolation => some "E5"
  | .notInSequence      => some "E6"
  | .reservedEncoding   => some "E7"
  | _                   => none

/-- A stop of either kind, as the pseudocode raises it (R7: `raise`, `refuse`). -/
inductive Stop where
  | fault  (f : Fault)
  | refuse (r : Refusal)
deriving DecidableEq, Repr

/-- The outcome of one step of UFC (R10). -/
abbrev Outcome : Type := Host.Outcome State Fault Refusal

/-- The elements whose value at power-on R41 leaves unspecified or unconstrained, with the choice State.reset makes of each
(DESIGN CHOICE, assumption log 1 and 2). -/
structure Draw where
  rxne  : Bool := false
  ore   : Bool := false
  rdr   : Datum := 0
  tdr   : Datum := 0
  slots : Vector Datum Config.capacity := Vector.replicate Config.capacity 0
  head  : Index := 0
  tail  : Index := 0
  len   : Len := 0
deriving DecidableEq, Repr

/-- The state after power-on reset (R41, R230, R231), for every value of what R41 leaves open. -/
def State.powerOn (d : Draw) : State where
  slots := d.slots
  head := d.head
  tail := d.tail
  len := d.len
  qbuilt := false
  txeie := false
  rxneie := false
  rxne := d.rxne
  txe := true
  ore := d.ore
  rdr := d.rdr
  tdr := d.tdr
  unmasked := false
  phase := .idle
  owner := .init
  txLine := []
  dropFull := 0
  dropOvr := 0
  spuriousTx := 0
  underflowCnt := 0
  txienCnt := 0
  txidisCnt := 0
  issuer := some .initialiser
  inbox := []
  response := none
  evaluated := []
  tick := 0

/-- The state right after reset: R41, with the model's named choice for what R41 leaves open (assumption log 1, 2). -/
def State.reset : State := State.powerOn {}

end Sys2Proof.Machine
end

