-- ==== Sys2Proof/Machine/Operands.lean ====
section
/-! DEFINITION. Slices, extensions, index arithmetic, the memory primitives and the transform (spec/00_scope.md R6, R7,
spec/20_memory.md R61, R63, spec/41_bounded_queue.md R120, spec/42_service_sequencer.md R141). -/

namespace Sys2Proof.Machine

/-- `v[hi:lo]` (R6). -/
def bitSlice {n : Nat} (v : BitVec n) (hi lo : Nat) : BitVec (hi - lo + 1) := v.extractLsb hi lo

/-- `zext_N(v)` (R7). -/
def zext {n : Nat} (m : Nat) (v : BitVec n) : BitVec m := v.setWidth m

/-- `sext_N(v)` (R7); used by no rule. -/
def sext {n : Nat} (m : Nat) (v : BitVec n) : BitVec m := v.signExtend m

/-- The byte the wire carries of a unit, `u[7:0]` (R183). -/
def wireByte (u : Datum) : BitVec Config.payloadW := u.extractLsb' 0 Config.payloadW

/-- Every 3-bit index names a slot (R61). -/
def slotOf (i : Index) : Fin Config.capacity := ⟨i.toNat, i.isLt⟩

/-- `MemRead(i, 16)` (R7, R61). -/
def memRead (s : State) (i : Index) : Datum := s.slots.get (slotOf i)

/-- `MemWrite(i, 16, v)` (R7, R61). -/
def memWrite (s : State) (i : Index) (v : Datum) : State :=
  { s with slots := s.slots.set (slotOf i) v (slotOf i).isLt }

/-- The successor of an index, `(i + 1) mod CAPACITY` (R63, R120). -/
def nextIndex (i : Index) : Index := BitVec.ofNat Config.idxW ((i.toNat + 1) % Config.capacity)

/-- The index `k` places after `i`, `(i + k) mod CAPACITY` (R23). -/
def indexAfter (i : Index) (k : Nat) : Index := BitVec.ofNat Config.idxW ((i.toNat + k) % Config.capacity)

/-- The transform under a policy for units below XFORM_OFFSET (R141, spec/93 U1): none is the policy `trap`. -/
def xformUnder (p : Config.XformLow) (u : Datum) : Option Datum :=
  if Config.xformOffset ≤ u.toNat then some (BitVec.ofNat Config.unitW (u.toNat - Config.xformOffset))
  else match p with
    | .wrap        => some (BitVec.ofNat Config.unitW (u.toNat + 2 ^ Config.unitW - Config.xformOffset))
    | .clamp       => some 0
    | .passThrough => some u
    | .trap        => none

/-- XFORM's function (R141) under this hardware's policy. -/
def opXform (u : Datum) : Except Stop Datum :=
  match xformUnder Config.xformLow u with
  | some t => .ok t
  | none   => .error (.fault .arithmeticUnderflow)

end Sys2Proof.Machine
end

