-- ==== Sys2Proof/Machine/Flags.lean ====
section
/-! DEFINITION. The flags and the registers: the request equation (spec/10_state.md R36), the queue's derived predicates (R24), and every way
a flag or a ghost counter changes (R25 to R32, R38). -/

namespace Sys2Proof.Machine

/-- `irq` (R36): the level the controller sees, recomputed in every state, never latched. -/
def State.irq (s : State) : Bool := (s.rxneie && (s.rxne || s.ore)) || (s.txeie && s.txe)

/-- `empty` (R24). -/
def State.queueEmpty (s : State) : Bool := s.len.toNat == 0

/-- `full` (R24): an enqueue fails; R122 tests `len < 8`. -/
def State.queueFull (s : State) : Bool := !(decide (s.len.toNat < Config.capacity))

/-- RXNE <- 0 (R27, RDU). -/
def State.clearRxne (s : State) : State := { s with rxne := false }

/-- RXNE <- 1 (R27, RXARR). -/
def State.setRxne (s : State) : State := { s with rxne := true }

/-- TXE <- 0 (R28, WRU). -/
def State.clearTxe (s : State) : State := { s with txe := false }

/-- TXE <- 1 (R28, TXDRN). -/
def State.setTxe (s : State) : State := { s with txe := true }

/-- ORE <- 0 (R29, CLROVR). -/
def State.clearOre (s : State) : State := { s with ore := false }

/-- ORE <- 1 (R29, RXARR). -/
def State.setOre (s : State) : State := { s with ore := true }

/-- RDR <- u (R30, RXARR). -/
def State.loadRdr (s : State) (u : Datum) : State := { s with rdr := u }

/-- TDR <- u (R31, WRU). -/
def State.loadTdr (s : State) (u : Datum) : State := { s with tdr := u }

/-- tx_line <- tx_line ++ [TDR] (R37, TXDRN). -/
def State.emitTdr (s : State) : State := { s with txLine := s.txLine ++ [s.tdr] }

/-- head, tail, len <- 0 and QBUILT <- 1 (R22, R35, QNEW). -/
def State.buildQueue (s : State) : State := { s with head := 0, tail := 0, len := 0, qbuilt := true }

/-- OWNER <- ISR (R34, HANDOFF); it never returns to INIT. -/
def State.giveToIsr (s : State) : State := { s with owner := .isr }

/-- UNMASKED <- 1 (R32, UNMASK); nothing masks the vector again. -/
def State.setUnmasked (s : State) : State := { s with unmasked := true }

/-- phase <- p (R33). -/
def State.setPhase (s : State) (p : Phase) : State := { s with phase := p }

/-- RXNEIE <- 1 (R26); no operation clears it (R110). -/
def State.setRxneie (s : State) : State := { s with rxneie := true }

/-- TXEIE <- 1 (R25), counted by `txien_cnt` (R38, R107). -/
def State.enableTx (s : State) : State := { s with txeie := true, txienCnt := s.txienCnt + 1 }

/-- TXEIE <- 0 (R25), counted by `txidis_cnt` (R38, R108). -/
def State.disableTx (s : State) : State := { s with txeie := false, txidisCnt := s.txidisCnt + 1 }

/-- `drop_full++` (R38, R191). -/
def State.countDropFull (s : State) : State := { s with dropFull := s.dropFull + 1 }

/-- `drop_ovr++` (R38, R192). -/
def State.countDropOvr (s : State) : State := { s with dropOvr := s.dropOvr + 1 }

/-- `spurious_tx++` (R38, R193). -/
def State.countSpurious (s : State) : State := { s with spuriousTx := s.spuriousTx + 1 }

/-- `if u < 32 then underflow_cnt++` (R38, R144, R194). -/
def State.countUnderflow (s : State) (u : Datum) : State :=
  if u.toNat < Config.xformOffset then { s with underflowCnt := s.underflowCnt + 1 } else s

end Sys2Proof.Machine
end

