-- ==== Sys2Proof/Machine/Ops.lean ====
section
/-! DEFINITION. What every meaning shares: admission by agent and context (spec/30_encoding.md R90), completing with a
response (R83), entering and leaving a service invocation (spec/60_exceptions.md R203, R205), the abstract queue
(spec/10_state.md R23), and choosing the next command (spec/00_scope.md R9). -/

namespace Sys2Proof.Machine

/-- The rows of R90's admission table. -/
inductive OpClass where
  | setup     -- QNEW, RXIEN
  | handoff   -- HANDOFF
  | main      -- UNMASK, WFI
  | handle    -- the other group-0 and group-1 operations
  | pure      -- XFORM
  | entry     -- IRQENT
  | phase     -- SVCTX, SVCRX, SVCOVR
  | line      -- RXARR, TXDRN
deriving DecidableEq, Repr

/-- R90 for the initialiser: "yes" needs that the one hardware thread runs it (R8, R209; assumption log 10). Its XFORM is an
evaluation and no step (`isEvaluation`). -/
def admissionInitialiser (k : OpClass) (s : State) : Option Refusal :=
  let running := if s.phase = .idle then none else some Refusal.contextNotRunning
  match k with
  | .setup | .handoff       => if s.owner = .isr then some .ownershipViolation else running
  | .handle                 => some (if s.owner = .isr then .ownershipViolation else .notInSequence)
  | .main | .pure           => running
  | .entry | .phase | .line => some .noSuchStep

/-- R90 for the service sequencer, inside a phase with OWNER = ISR. XFORM is "yes" there: a pure function it evaluates, and
no step of its own (`isEvaluation`). The other sub-operations are "yes, only as the phase rules R143 to R145 use them": they
run inside SVCTX, SVCRX and SVCOVR and never as a step (R9, R204; assumption log 10, 18). -/
def admissionSequencer (k : OpClass) (s : State) : Option Refusal :=
  match k with
  | .setup | .handoff | .main | .handle => some .notInSequence
  | .pure                               => if s.phase = .idle then some .contextNotRunning else none
  | .phase                              => if s.owner = .isr then none else some .ownershipViolation
  | .entry | .line                      => some .noSuchStep

/-- R90's last paragraph: the group-0 and group-1 functions, and the pure XFORM, run alone outside any context. -/
def admissionOutside (k : OpClass) : Option Refusal :=
  match k with
  | .setup | .handle | .pure                   => none
  | .handoff | .main | .entry | .phase | .line => some .noSuchStep

/-- Admission (R90): none when the issuer's step is admitted, else the reason it is not. An operation's own precondition is
looked at only after this (spec/95 V5.4). -/
def admission (k : OpClass) (s : State) : Option Refusal :=
  match s.issuer with
  | none              => admissionOutside k
  | some .initialiser => admissionInitialiser k s
  | some .sequencer   => admissionSequencer k s
  | some .controller  => if k = .entry then none else some .noSuchStep
  | some .line        => if k = .line then none else some .noSuchStep

/-- The response word of a completed operation stands in the state (R83). -/
def State.respond (s : State) (r : Result) : State := { s with response := some (encodeResult r) }

/-- The outcome of an admitted operation (R10). A refused or faulting operation has no response word (R83). -/
def settle (x : Except Stop (Result × State)) : Outcome :=
  match x with
  | .ok (r, s)           => .next (s.respond r)
  | .error (.fault f)    => .fault f
  | .error (.refuse r)   => .refused r

/-- One step of an operation of class `k`: admission first, then the operation's own rule. -/
def perform (k : OpClass) (s : State) (x : Except Stop (Result × State)) : Outcome :=
  match admission k s with
  | some r => .refused r
  | none   => settle x

/-- An operation with an "enabled iff" condition: without it there is no step. -/
def whenEnabled (c : Bool) (x : Except Stop (Result × State)) : Except Stop (Result × State) :=
  if c then x else .error (.refuse .notEnabled)

/-! ### Entering and leaving a service invocation -/

/-- Entry of an invocation, the block's trap entry (R203): `phase` goes IDLE to TX and nothing else changes. Nothing is
saved or masked. The fault of R142 is met before any state changes. -/
def enterService (s : State) : Except Stop State :=
  if s.owner = .isr then .ok (s.setPhase .tx) else .error (.fault .uninitializedService)

/-- Return of an invocation (R205): `phase` goes to IDLE; nothing is restored, since nothing was saved. -/
def returnFromService (s : State) : State := s.setPhase .idle

/-- The sequencer advances to a further phase of the invocation (R33). -/
def advancePhase (p : Phase) (s : State) : State := s.setPhase p

/-! ### The abstract queue -/

/-- The abstract queue Q (R23): the `len` live units, oldest first. -/
def State.queue (s : State) : List Datum :=
  (List.range s.len.toNat).map fun k => memRead s (indexAfter s.head k)

/-- The bytes seen on the transmit line (R11, R37). -/
def State.wireBytes (s : State) : List (BitVec Config.payloadW) := s.txLine.map wireByte

/-! ### Choosing the next command -/

/-- The four agents by number, for the free choice of who steps. -/
def agentOf (n : Fin 4) : Agent :=
  match n.val with
  | 0 => .initialiser
  | 1 => .controller
  | 2 => .sequencer
  | _ => .line

/-- Places a command word as the next step, under its default issuer (R8, R90). -/
def State.placeWord (s : State) (w : Cmd) : State := { s with inbox := ⟨defaultIssuer w, w⟩ :: s.inbox }

/-- Places a sequence of operations, each with its agent, as the next commands. -/
def State.placeSteps (s : State) (steps : List (Option Agent × Instr)) : State :=
  { s with inbox := steps.map (fun p => ⟨p.1, encode p.2⟩) ++ s.inbox }

end Sys2Proof.Machine
end

