-- ==== Sys2Proof/Machine/Initialisation.lean ====
section
/-! DEFINITION. The initialisation operations (spec/43_initialization.md R160 to R166): HANDOFF, UNMASK, WFI. QNEW stands in
Machine/Queue.lean and RXIEN in Machine/Peripheral.lean. -/

namespace Sys2Proof.Machine

/-- HANDOFF's rule (R161): OWNER goes from INIT to ISR, once. -/
def opHandoff (s : State) : Except Stop State :=
  if s.owner = .isr then .error (.refuse .ownershipViolation)
  else if s.qbuilt then .ok s.giveToIsr
  else .error (.refuse .queueNotBuilt)

/-- UNMASK's rule (R162). -/
def opUnmask (s : State) : State := s.setUnmasked

/-- HANDOFF as a step (R161). -/
def execHandoff (s : State) : Outcome := perform .handoff s ((opHandoff s).map fun t => (.nothing, t))

/-- UNMASK as a step (R162). -/
def execUnmask (s : State) : Outcome := perform .main s (.ok (.nothing, opUnmask s))

/-- WFI as a step (R163): no state element changes. -/
def execWfi (s : State) : Outcome := perform .main s (.ok (.nothing, s))

end Sys2Proof.Machine
end

