-- ==== Sys2Proof/Machine/Line.lean ====
section
/-! DEFINITION. The line events (spec/44_line_events.md R180 to R184): RXARR and TXDRN. -/

namespace Sys2Proof.Machine

/-- RXARR's rule (R181): load an empty RDR, else set ORE and lose the new unit. -/
def opRxarr (u : Datum) (s : State) : State :=
  if s.rxne then s.setOre.countDropOvr else (s.loadRdr u).setRxne

/-- TXDRN's rule (R182): the unit in TDR leaves onto the line. -/
def opTxdrn (s : State) : State := s.emitTdr.setTxe

/-- RXARR as a step (R181). -/
def execRxarr (u : Datum) (s : State) : Outcome := perform .line s (.ok (.nothing, opRxarr u s))

/-- TXDRN as a step (R182): enabled iff TXE = 0. -/
def execTxdrn (s : State) : Outcome := perform .line s (whenEnabled (!s.txe) (.ok (.nothing, opTxdrn s)))

end Sys2Proof.Machine
end

