-- ==== Sys2Proof/Machine/Peripheral.lean ====
section
/-! DEFINITION. The Peripheral Interface operations (spec/40_peripheral_interface.md R100 to R110): each as the bare state
transformer of its rule (op…), which the phases use, and as a step of its own (exec…). -/

namespace Sys2Proof.Machine

/-- RXRDY (R101). -/
def opRxrdy (s : State) : Bool := s.rxne

/-- TXRDY (R102). -/
def opTxrdy (s : State) : Bool := s.txe

/-- OVR (R103). -/
def opOvr (s : State) : Bool := s.ore

/-- RDU (R104): a read that clears RXNE; RDR and ORE stay. -/
def opRdu (s : State) : Except Stop (Datum × State) :=
  if s.rxne then .ok (s.rdr, s.clearRxne) else .error (.refuse .readNotReady)

/-- WRU (R105): a write that clears TXE. -/
def opWru (u : Datum) (s : State) : Except Stop State :=
  if s.txe then .ok (s.loadTdr u).clearTxe else .error (.refuse .writeNotReady)

/-- CLROVR (R106). -/
def opClrovr (s : State) : State := s.clearOre

/-- TXIEN (R107). -/
def opTxien (s : State) : State := s.enableTx

/-- TXIDIS (R108). -/
def opTxidis (s : State) : State := s.disableTx

/-- RXIEN (R109). -/
def opRxien (s : State) : State := s.setRxneie

/-- RXRDY as a step (R101). -/
def execRxrdy (s : State) : Outcome := perform .handle s (.ok (.bool (opRxrdy s), s))

/-- TXRDY as a step (R102). -/
def execTxrdy (s : State) : Outcome := perform .handle s (.ok (.bool (opTxrdy s), s))

/-- OVR as a step (R103). -/
def execOvr (s : State) : Outcome := perform .handle s (.ok (.bool (opOvr s), s))

/-- RDU as a step (R104). -/
def execRdu (s : State) : Outcome := perform .handle s ((opRdu s).map fun p => (.datum p.1, p.2))

/-- WRU as a step (R105). -/
def execWru (u : Datum) (s : State) : Outcome := perform .handle s ((opWru u s).map fun t => (.nothing, t))

/-- CLROVR as a step (R106). -/
def execClrovr (s : State) : Outcome := perform .handle s (.ok (.nothing, opClrovr s))

/-- TXIEN as a step (R107). -/
def execTxien (s : State) : Outcome := perform .handle s (.ok (.nothing, opTxien s))

/-- TXIDIS as a step (R108). -/
def execTxidis (s : State) : Outcome := perform .handle s (.ok (.nothing, opTxidis s))

/-- RXIEN as a step (R109). -/
def execRxien (s : State) : Outcome := perform .setup s (.ok (.nothing, opRxien s))

end Sys2Proof.Machine
end

