-- ==== Sys2Proof/Machine/Queue.lean ====
section
/-! DEFINITION. The bounded queue operations (spec/41_bounded_queue.md R120 to R129): each as the bare state transformer of
its rule (op…), which the phases use, and as a step of its own (exec…). -/

namespace Sys2Proof.Machine

/-- The common refusal of R120: no queue operation before QNEW. -/
def whenBuilt {α : Type} (s : State) (x : α) : Except Stop α :=
  if s.qbuilt then .ok x else .error (.refuse .queueNotBuilt)

/-- The tail half of ENQ's success (R122): store, advance, count. -/
def pushTail (u : Datum) (s : State) : State :=
  { memWrite s s.tail u with tail := nextIndex s.tail, len := s.len + 1 }

/-- The head half of DEQ's success (R123): advance, count; the slot keeps its value. -/
def popHead (s : State) : State := { s with head := nextIndex s.head, len := s.len - 1 }

/-- QNEW (R121): the slots are not written. -/
def opQnew (s : State) : Except Stop State :=
  if s.qbuilt then .error (.refuse .alreadyBuilt)
  else .ok s.buildQueue

/-- ENQ (R122): append at the tail below capacity, else Full and nothing changes. -/
def opEnq (u : Datum) (s : State) : Except Stop (EnqResult × State) :=
  whenBuilt s (if s.queueFull then (.full, s) else (.ok, pushTail u s))

/-- DEQ (R123): the head unit, or None and nothing changes. -/
def opDeq (s : State) : Except Stop (Option Datum × State) :=
  whenBuilt s (if s.queueEmpty then (none, s) else (some (memRead s s.head), popHead s))

/-- QEMPTY (R124). -/
def opQempty (s : State) : Except Stop Bool := whenBuilt s s.queueEmpty

/-- QLEN (R125). -/
def opQlen (s : State) : Except Stop Len := whenBuilt s s.len

/-- QNEW as a step (R121). -/
def execQnew (s : State) : Outcome := perform .setup s ((opQnew s).map fun t => (.nothing, t))

/-- ENQ as a step (R122). -/
def execEnq (u : Datum) (s : State) : Outcome := perform .handle s ((opEnq u s).map fun p => (.enq p.1, p.2))

/-- DEQ as a step (R123). -/
def execDeq (s : State) : Outcome := perform .handle s ((opDeq s).map fun p => (.option p.1, p.2))

/-- QEMPTY as a step (R124). -/
def execQempty (s : State) : Outcome := perform .handle s ((opQempty s).map fun b => (.bool b, s))

/-- QLEN as a step (R125). -/
def execQlen (s : State) : Outcome := perform .handle s ((opQlen s).map fun n => (.length n, s))

end Sys2Proof.Machine
end

