-- ==== Sys2Proof/Machine/Sequencer.lean ====
section
/-! DEFINITION. The service sequencer (spec/42_service_sequencer.md R140 to R151): the transform, the entry step and the
three phases, each phase one atomic step over the bare operations (R7, R9). -/

namespace Sys2Proof.Machine

/-- SVCTX's body (R143): if transmit-ready, send the head unit, and withdraw the enable when the queue is empty. -/
def serviceTx (s : State) : Except Stop State :=
  if opTxrdy s then
    (opDeq s).bind fun d =>
      match d.1 with
      | some u => (opWru u d.2).bind fun t => (opQempty t).map fun e => if e then opTxidis t else t
      | none   => .ok (opTxidis d.2).countSpurious
  else .ok s

/-- SVCRX's body (R144): if receive-ready, read, transform, enqueue, and enable transmission when the queue was empty. -/
def serviceRx (s : State) : Except Stop State :=
  if opRxrdy s then
    (opRdu s).bind fun r =>
      (opXform r.1).bind fun t =>
        (opQempty (r.2.countUnderflow r.1)).bind fun wasEmpty =>
          (opEnq t (r.2.countUnderflow r.1)).map fun e =>
            match e.1 with
            | .ok   => if wasEmpty then opTxien e.2 else e.2
            | .full => e.2.countDropFull
  else .ok s

/-- SVCOVR's body (R145): if overrun, clear it. -/
def serviceOvr (s : State) : State := if opOvr s then opClrovr s else s

/-- XFORM (R141): a pure function. Issued by the initialiser or the sequencer it is an evaluation, no step (R90, R166,
R204). -/
def execXform (u : Datum) (s : State) : Outcome := perform .pure s ((opXform u).map fun t => (.datum t, s))

/-- IRQENT (R142): the controller invokes the routine (the strict form of spec/92 D21, assumption log 9). -/
def execIrqent (s : State) : Outcome :=
  perform .entry s (whenEnabled (s.unmasked && s.irq && decide (s.phase = .idle))
    ((enterService s).map fun t => (.nothing, t)))

/-- SVCTX (R143). -/
def execSvctx (s : State) : Outcome :=
  perform .phase s (whenEnabled (decide (s.phase = .tx)) ((serviceTx s).map fun t => (.nothing, advancePhase .rx t)))

/-- SVCRX (R144). -/
def execSvcrx (s : State) : Outcome :=
  perform .phase s (whenEnabled (decide (s.phase = .rx)) ((serviceRx s).map fun t => (.nothing, advancePhase .ovr t)))

/-- SVCOVR (R145): its end is the return of the routine (R205). -/
def execSvcovr (s : State) : Outcome :=
  perform .phase s (whenEnabled (decide (s.phase = .ovr)) (.ok (.nothing, returnFromService (serviceOvr s))))

end Sys2Proof.Machine
end

