-- ==== Sys2Proof/Machine/Dispatch.lean ====
section
/-! DEFINITION. The one dispatch: each constructor of Instr to its meaning. -/

namespace Sys2Proof.Machine

def exec (i : Instr) (s : State) : Host.Outcome State Fault Refusal :=
  match i with
  | .rxrdy => Sys2Proof.Machine.execRxrdy s
  | .txrdy => Sys2Proof.Machine.execTxrdy s
  | .ovr => Sys2Proof.Machine.execOvr s
  | .rdu => Sys2Proof.Machine.execRdu s
  | .wru u => Sys2Proof.Machine.execWru u s
  | .clrovr => Sys2Proof.Machine.execClrovr s
  | .txien => Sys2Proof.Machine.execTxien s
  | .txidis => Sys2Proof.Machine.execTxidis s
  | .rxien => Sys2Proof.Machine.execRxien s
  | .enq u => Sys2Proof.Machine.execEnq u s
  | .deq => Sys2Proof.Machine.execDeq s
  | .qempty => Sys2Proof.Machine.execQempty s
  | .qlen => Sys2Proof.Machine.execQlen s
  | .qnew => Sys2Proof.Machine.execQnew s
  | .irqent => Sys2Proof.Machine.execIrqent s
  | .svctx => Sys2Proof.Machine.execSvctx s
  | .svcrx => Sys2Proof.Machine.execSvcrx s
  | .svcovr => Sys2Proof.Machine.execSvcovr s
  | .xform u => Sys2Proof.Machine.execXform u s
  | .handoff => Sys2Proof.Machine.execHandoff s
  | .unmask => Sys2Proof.Machine.execUnmask s
  | .wfi => Sys2Proof.Machine.execWfi s
  | .rxarr u => Sys2Proof.Machine.execRxarr u s
  | .txdrn => Sys2Proof.Machine.execTxdrn s

end Sys2Proof.Machine
end

