-- ==== Sys2Proof/Machine/Commands.lean ====
section
/-! DEFINITION. Taking the next command (spec/00_scope.md R8, R9): which command is a step, and which is an evaluation that a
step takes in (spec/30_encoding.md R90, spec/43_initialization.md R166, spec/60_exceptions.md R204). -/

namespace Sys2Proof.Machine

/-- XFORM by either context of the hardware thread is an evaluation and no step: R90 admits the pure function, R8 lists it
among no agent's steps, no sequencer step stands between the phases (R204), and after INIT the initialiser has no step but WFI
and UNMASK (R166; assumption log 18). Outside any context (R90, last paragraph) it is run alone, as the other functions are. -/
def isEvaluation (a : Option Agent) (i : Instr) : Bool :=
  match a, i with
  | some .initialiser, .xform _ => true
  | some .sequencer, .xform _   => true
  | _, _                        => false

/-- A completed evaluation's response word joins those of its step. -/
def State.keepEvaluation (s : State) : State := { s with evaluated := s.evaluated ++ s.response.toList }

/-- A free choice of agent and word (R9; assumption log 3). It is a step, so never an evaluation. -/
def takeFree (s : State) : Outcome :=
  match decode (Config.freeWord s.tick) with
  | .error _ => .refused .reservedEncoding
  | .ok i =>
    if isEvaluation (some (agentOf (Config.freeAgent s.tick))) i then .refused .noSuchStep
    else exec i { s with issuer := some (agentOf (Config.freeAgent s.tick)), inbox := [], tick := s.tick + 1 }

/-- Takes the commands up to and including the first that is a step, the evaluations before it first. A reserved word is
refused (R85), and a step that stops changes no state (R10). -/
def takeCommands : List Command → State → Outcome
  | [], s        => takeFree s
  | c :: rest, s =>
    match decode c.word with
    | .error _ => .refused .reservedEncoding
    | .ok i =>
      match isEvaluation c.issuer i, exec i { s with issuer := c.issuer, inbox := rest } with
      | true, .next t => takeCommands rest t.keepEvaluation
      | _, outcome    => outcome

/-- One step from the inbox (R9, R40). Without the premise Configured there is no meaning (R12; assumption log 8). -/
def takeStep (s : State) : Outcome :=
  if Config.launch.configured then takeCommands s.inbox { s with evaluated := [] } else .refused .notConfigured

end Sys2Proof.Machine
end

