-- ==== Sys2Proof/Machine/Step.lean ====
section
/-! DEFINITION. One step (spec/00_scope.md R9, R10): take the next command, decode it, run it. UFC fetches no instructions
(R2, R72), so a command stands in the inbox and not in a memory. -/

namespace Sys2Proof.Machine

/-- One step of one agent. -/
def step (s : State) : Host.Outcome State Fault Refusal := takeStep s

/-- The state with an opcode-table word placed as the next step, under the issuer R8 and R90 give it. -/
def State.withFetchWord (s : State) (nbits w : Nat) : State :=
  s.placeWord (BitVec.ofNat Config.cmdW (w % 2 ^ nbits))

end Sys2Proof.Machine
end

