-- ==== Sys2Proof/Safety.lean ====
section
/-! DEFINITION. What claims about UFC speak of: the invariants (spec/10_state.md R24, R33 to R35, R39), the post-initialisation
state (R42), quiescence (spec/70_reset_and_hazards.md R243), the error kinds (spec/60_exceptions.md R190 to R195), the units on
their way (R149, R183), the ghosts (R38) and what R41 leaves unspecified. -/

namespace Sys2Proof.Machine

/-- R24: the length is at most the capacity and `tail = (head + len) mod 8`. -/
abbrev QueueInv (s : State) : Prop :=
  s.len.toNat ≤ Config.capacity ∧ s.tail = indexAfter s.head s.len.toNat

/-- R39: TXEIE = 1 if and only if the queue is non-empty. -/
abbrev Mirror (s : State) : Prop := s.txeie = true ↔ 0 < s.len.toNat

/-- The invariant of every run whose steps are issued by the four agents (R24, R33, R34, R35, R39): a built queue is in
order; once the interrupt context owns it, it is built and TXEIE mirrors it; before that no invocation is active, TXEIE is
0 and a built queue is empty; and an invocation is active only while the vector is unmasked. -/
abbrev UfcInv (s : State) : Prop :=
  (s.qbuilt = true → QueueInv s) ∧
  (s.owner = .isr → s.qbuilt = true ∧ Mirror s) ∧
  (s.owner = .init → s.phase = .idle ∧ s.txeie = false ∧ (s.qbuilt = true → s.len = 0)) ∧
  (s.phase ≠ .idle → s.unmasked = true)

/-- Every step already chosen is a step of one of the four agents, none "outside any context" (R8, R90). -/
abbrev InContext (s : State) : Prop := ∀ c ∈ s.inbox, c.issuer ≠ none

/-- The post-initialisation state (R42) that the reset draw `d` leads to. -/
def postInit (d : Draw) : State :=
  { State.powerOn d with
    head := 0, tail := 0, len := 0, qbuilt := true, rxneie := true, owner := .isr, unmasked := true,
    response := some 0x10000 }

/-- R243: phase IDLE, no request, transmitter empty. -/
abbrev Quiescent (s : State) : Prop := s.phase = .idle ∧ s.irq = false ∧ s.txe = true

/-! ### Error kinds -/

/-- The four error kinds (R191 to R194). -/
inductive ErrorKind where
  | queueFull
  | lineOverrun
  | spuriousTransmitReady
  | arithmeticUnderflow
deriving DecidableEq, Repr

/-- The kinds' codes (R195); 0 means no error. -/
def ErrorKind.code : ErrorKind → Nat
  | .queueFull             => 1
  | .lineOverrun           => 2
  | .spuriousTransmitReady => 3
  | .arithmeticUnderflow   => 4

/-- QueueFull is raised by SVCRX reading a unit while the queue is full (R191). -/
def raisesQueueFull (i : Instr) (s : State) : Bool := decide (i = .svcrx) && s.rxne && s.queueFull

/-- LineOverrun is raised by RXARR with RXNE = 1 (R192). -/
def raisesLineOverrun (i : Instr) (s : State) : Bool :=
  match i with
  | .rxarr _ => s.rxne
  | _        => false

/-- SpuriousTransmitReady is raised by SVCTX finding TXE = 1 and the queue empty (R193). -/
def raisesSpurious (i : Instr) (s : State) : Bool := decide (i = .svctx) && s.txe && s.queueEmpty

/-- ArithmeticUnderflow is raised by SVCRX transforming a unit below 32 (R194). -/
def raisesUnderflow (i : Instr) (s : State) : Bool :=
  decide (i = .svcrx) && s.rxne && decide (s.rdr.toNat < Config.xformOffset)

/-- The error kinds a step raises, in the order of R191 to R194. -/
def errorKinds (i : Instr) (s : State) : List ErrorKind :=
  (if raisesQueueFull i s then [.queueFull] else []) ++
  (if raisesLineOverrun i s then [.lineOverrun] else []) ++
  (if raisesSpurious i s then [.spuriousTransmitReady] else []) ++
  (if raisesUnderflow i s then [.arithmeticUnderflow] else [])

/-! ### The units on their way -/

/-- XFORM's result as a list: one unit, or none under the policy `trap`. -/
def transformed (u : Datum) : List Datum :=
  match opXform u with
  | .ok t    => [t]
  | .error _ => []

/-- Every unit sent or on its way, transformed, in order: the line, TDR while it waits, the queue, and the unread unit. -/
def State.pipeline (s : State) : List Datum :=
  s.txLine ++ (if s.txe then [] else [s.tdr]) ++ (if s.qbuilt then s.queue else []) ++
    (if s.rxne then transformed s.rdr else [])

/-- The units the commands deliver on the receive line, in order. -/
def deliveredUnits (cs : List Command) : List Datum :=
  cs.flatMap fun c =>
    match decode c.word with
    | .ok (.rxarr u) => [u]
    | _              => []

/-! ### What no result may depend on -/

/-- The state without its ghosts (R37, R38). -/
def State.eraseGhosts (s : State) : State :=
  { s with txLine := [], dropFull := 0, dropOvr := 0, spuriousTx := 0, underflowCnt := 0, txienCnt := 0, txidisCnt := 0 }

/-- An outcome without the ghosts of its next state. -/
def eraseGhostsOf : Outcome → Outcome
  | .next s    => .next s.eraseGhosts
  | .fault f   => .fault f
  | .refused r => .refused r

/-- Two states that differ at most in what R21, R22, R30, R31 and R41 leave unspecified: the queue registers and slots before
QNEW, the slots outside the live window after it, RDR while RXNE = 0, TDR while TXE = 1. -/
def AgreeOnSpecified (s t : State) : Prop :=
  s = { t with slots := s.slots, head := s.head, tail := s.tail, len := s.len, rdr := s.rdr, tdr := s.tdr } ∧
  (s.qbuilt = true → s.head = t.head ∧ s.tail = t.tail ∧ s.len = t.len ∧ s.queue = t.queue) ∧
  (s.rxne = true → s.rdr = t.rdr) ∧
  (s.txe = false → s.tdr = t.tdr)

/-- Two outcomes that agree so: both next states that agree, or the same fault, or the same refusal. -/
def OutcomesAgree : Outcome → Outcome → Prop
  | .next s,    .next t    => AgreeOnSpecified s t
  | .fault f,   .fault g   => f = g
  | .refused r, .refused q => r = q
  | _,          _          => False

/-! ### R90's table, row by row -/

/-- A cell of R90's table. -/
inductive Verdict where
  | yes                      -- admitted if the operation's own precondition holds
  | refuse (r : Refusal)     -- refused with the reason shown
  | no                       -- the agent has no such step
  | inPhases                 -- yes, only as the phase rules R143 to R145 use it: no step of its own
deriving DecidableEq, Repr

/-- R90's table, row by row; for the sequencer OWNER is ISR by the column's title. -/
def admissionTable (i : Instr) (a : Agent) (o : Owner) : Verdict :=
  match i with
  | .qnew | .rxien | .handoff =>
    match a, o with
    | .initialiser, .init => .yes
    | .initialiser, .isr  => .refuse .ownershipViolation
    | .sequencer, _       => .refuse .notInSequence
    | .controller, _      => .no
    | .line, _            => .no
  | .unmask | .wfi =>
    match a with
    | .initialiser => .yes
    | .sequencer   => .refuse .notInSequence
    | .controller  => .no
    | .line        => .no
  | .rxrdy | .txrdy | .ovr | .rdu | .wru _ | .clrovr | .txien | .txidis | .enq _ | .deq | .qempty | .qlen =>
    match a, o with
    | .initialiser, .init => .refuse .notInSequence
    | .initialiser, .isr  => .refuse .ownershipViolation
    | .sequencer, _       => .inPhases
    | .controller, _      => .no
    | .line, _            => .no
  | .xform _ =>
    match a with
    | .initialiser => .yes
    | .sequencer   => .yes
    | .controller  => .no
    | .line        => .no
  | .irqent =>
    match a with
    | .controller => .yes
    | _           => .no
  | .svctx | .svcrx | .svcovr =>
    match a with
    | .sequencer => .yes
    | _          => .no
  | .rxarr _ | .txdrn =>
    match a with
    | .line => .yes
    | _     => .no

/-- The issuing context is running (R8, R209): the initialiser outside an invocation, the sequencer inside one. -/
abbrev ContextRuns (a : Agent) (s : State) : Prop :=
  (a = .initialiser → s.phase = .idle) ∧ (a = .sequencer → s.phase ≠ .idle ∧ s.owner = .isr)

/-- A reason that admission gives, and no operation's own rule for an admitted issuer. -/
abbrev IsAdmissionReason (r : Refusal) : Prop :=
  r = .ownershipViolation ∨ r = .notInSequence ∨ r = .noSuchStep ∨ r = .contextNotRunning

/-! ### The queue as a list -/

/-- ENQ on the abstract queue (R122): append below capacity, else Full and the queue unchanged. -/
def listEnq (u : Datum) (q : List Datum) : Result × List Datum :=
  if q.length < Config.capacity then (.enq .ok, q ++ [u]) else (.enq .full, q)

/-- DEQ on the abstract queue (R123): the oldest unit, or None and the queue unchanged. -/
def listDeq : List Datum → Result × List Datum
  | []        => (.option none, [])
  | u :: rest => (.option (some u), rest)

/-- The number of units as a `len` value (R22, R125). -/
def listLen : List Datum → Len
  | []     => 0
  | _ :: q => listLen q + 1

/-- One queue operation on the abstract queue (R23, R122 to R125): its result and the queue after. -/
def listOp (i : Instr) (q : List Datum) : Option (Result × List Datum) :=
  match i with
  | .enq u  => some (listEnq u q)
  | .deq    => some (listDeq q)
  | .qempty => some (.bool q.isEmpty, q)
  | .qlen   => some (.length (listLen q), q)
  | .rxrdy | .txrdy | .ovr | .rdu | .wru _ | .clrovr | .txien | .txidis | .rxien | .qnew => none
  | .irqent | .svctx | .svcrx | .svcovr | .xform _ | .handoff | .unmask | .wfi => none
  | .rxarr _ | .txdrn => none

/-- A sequence of queue operations on the abstract queue: the results in order and the queue after. -/
def listOps : List Instr → List Datum → Option (List Result × List Datum)
  | [], q      => some ([], q)
  | i :: is, q => match listOp i q with
    | some (r, q') => (listOps is q').map fun p => (r :: p.1, p.2)
    | none         => none

/-- A sequence of operations run one after another by exec: the response words in order and the state after. -/
def execSeq : List Instr → State → Option (List Rsp × State)
  | [], s      => some ([], s)
  | i :: is, s => match exec i s with
    | .next t => match t.response with
      | some w => (execSeq is t).map fun p => (w :: p.1, p.2)
      | none   => none
    | .fault _   => none
    | .refused _ => none

/-- The units the operations enqueue successfully, in order, by their responses (R126). -/
def acceptedUnits : List Instr → List Rsp → List Datum
  | .enq u :: is, w :: ws => if w = encodeResult (.enq .ok) then u :: acceptedUnits is ws else acceptedUnits is ws
  | _ :: is, _ :: ws      => acceptedUnits is ws
  | _, _                  => []

/-- The units the operations dequeue, in order, by their responses (R126): the `d` of a DEQ's response whose `v` is 1. -/
def returnedUnits : List Instr → List Rsp → List Datum
  | .deq :: is, w :: ws => if w.extractLsb' 16 1 = 1#1 then w.extractLsb' 0 16 :: returnedUnits is ws else returnedUnits is ws
  | _ :: is, _ :: ws    => returnedUnits is ws
  | _, _                => []

/-! ### Sequences of steps -/

/-- One whole service invocation, the pseudo-operation SVC (R88, R146), with its members' agents. -/
def svcSteps : List (Option Agent × Instr) :=
  [(some .controller, .irqent), (some .sequencer, .svctx), (some .sequencer, .svcrx), (some .sequencer, .svcovr)]

/-- The initialisation sequence, the pseudo-operation INIT (R88, R164), issued by the initialiser. -/
def initSteps : List (Option Agent × Instr) := pseudoInit.map fun i => (some .initialiser, i)

end Sys2Proof.Machine
end

