-- ==== Sys2Proof/Certificates/Slice0/Obligations.lean ====
section
/-! DEFINITION. The statements for the provers. Each is about UFC's rules in spec/, none about a program. Where a next state
is written out as a record update of `s`, every element the update does not name is unchanged: the equation is the
instruction's result, its completion and its frame at once. -/

open Sys2Proof Sys2Proof.Machine

/-! ### Encoding (R80 to R86) -/

/-- R81, R82, R84: decoding the word of any operation, with any operand, gives that operation back. -/
def Obligations.DecodeOfEncode : Prop := ∀ i : Instr, decode (encode i) = .ok i

/-- R81, R86: a word has one meaning; the operation it decodes to encodes to that same word. -/
def Obligations.EncodeOfDecode : Prop := ∀ (w : Cmd) (i : Instr), decode w = .ok i → encode i = w

/-- R86: every 24-bit word is exactly one row of R84 with a legal operand, by that row's mask and match, or reserved. The
mask is 0xFF0000 for the four operations with an operand and 0xFFFFFF for the other twenty; the match is `op << 16`. -/
def Obligations.EveryWordIsOneRowOrReserved : Prop :=
  let mask : Instr → Cmd := fun i => if (operand? i).isSome then 0xFF0000 else 0xFFFFFF
  let pattern : Instr → Cmd := fun i => (opcode i).setWidth 24 <<< 16
  ∀ w : Cmd,
    (WellFormed.word w = true ∧
      ∃ i, decode w = .ok i ∧ ∀ j, w &&& mask j = pattern j ↔ opcode j = opcode i) ∨
    (WellFormed.word w = false ∧ (∃ r, decode w = .error r) ∧ ∀ j, w &&& mask j ≠ pattern j)

/-- R85: a word with `grp` 4 to 15, with an unassigned `fn`, or with a nonzero `u` on an operation without operand is refused
with ReservedEncoding, whoever issues it and in whatever state (a refused step has no next state). -/
def Obligations.ReservedWordIsRefused : Prop :=
  ∀ (s : State) (c : Command) (rest : List Command), s.inbox = c :: rest →
    let grp := c.word.toNat / 2 ^ 20
    let fn := c.word.toNat / 2 ^ 16 % 16
    let op := c.word.toNat / 2 ^ 16
    (4 ≤ grp ∨
      (grp = 0 ∧ 9 ≤ fn) ∨ (grp = 1 ∧ 5 ≤ fn) ∨ (grp = 2 ∧ 8 ≤ fn) ∨ (grp = 3 ∧ 2 ≤ fn) ∨
      (op ≠ 0x04 ∧ op ≠ 0x10 ∧ op ≠ 0x24 ∧ op ≠ 0x30 ∧ c.word.toNat % 2 ^ 16 ≠ 0)) →
    step s = .refused .reservedEncoding

/-- R81, R84: words written out from the encoding table decode to the operations they stand for (spec/95 V5, P1). -/
def Obligations.SampleWordsDecode : Prop :=
  decode 0x030000 = .ok .rdu ∧ decode 0x04ABCD = .ok (.wru 0xABCD) ∧ decode 0x10FFFF = .ok (.enq 65535) ∧
  decode 0x220000 = .ok .svcrx ∧ decode 0x240020 = .ok (.xform 32) ∧ decode 0x300061 = .ok (.rxarr 97) ∧
  decode 0x310000 = .ok .txdrn

/-- R83: the response words of every type of result. -/
def Obligations.ResponseWords : Prop :=
  encodeResult .nothing = 0x10000 ∧
  (∀ b, encodeResult (.bool b) = if b then 0x10000 else 0x00000) ∧
  (∀ u : Datum, (encodeResult (.datum u)).toNat = 0x10000 + u.toNat) ∧
  encodeResult (.enq .ok) = 0x10000 ∧ encodeResult (.enq .full) = 0x00000 ∧
  (∀ u : Datum, (encodeResult (.option (some u))).toNat = 0x10000 + u.toNat) ∧
  encodeResult (.option none) = 0x00000 ∧
  (∀ n : Len, (encodeResult (.length n)).toNat = 0x10000 + n.toNat)

/-- R83, R84: every completed operation answers a response word of its own result type. -/
def Obligations.CompletedOperationAnswers : Prop :=
  ∀ (i : Instr) (s t : State), exec i s = .next t →
    ∃ r : Result, r.type = i.resultType ∧ t.response = some (encodeResult r)

/-! ### One step (R9, R10) -/

/-- R9: a step takes the inbox's first command, makes its agent the issuer, and runs the operation its word decodes to. An
XFORM of the initialiser or the sequencer is an evaluation and no step (R90, R166, R204, assumption log 18): its response word
is kept and the commands after it are taken; if it does not complete, the step stops with it. -/
def Obligations.StepRunsDecodedCommand : Prop :=
  ∀ (s : State) (c : Command) (rest : List Command) (i : Instr), s.inbox = c :: rest → decode c.word = .ok i →
    let u := { s with issuer := c.issuer, inbox := rest, evaluated := [] }
    let isThread := c.issuer = some .initialiser ∨ c.issuer = some .sequencer
    (¬ (isThread ∧ ∃ v, i = .xform v) → step s = exec i u) ∧
    (isThread → (∃ v, i = .xform v) →
      step s = match exec i u with
        | .next t    => takeCommands rest { t with evaluated := t.response.toList }
        | .fault f   => .fault f
        | .refused r => .refused r)

/-- R9, assumption log 3: with an empty inbox the next command, agent and word, is a free value drawn at `tick`; an evaluation
is no step, so drawing one is refused (assumption log 18). -/
def Obligations.StepWithoutInboxIsFree : Prop :=
  ∀ s : State, s.inbox = [] →
    let a := agentOf (Config.freeAgent s.tick)
    step s = match decode (Config.freeWord s.tick) with
      | .ok i    =>
        if isEvaluation (some a) i then .refused .noSuchStep
        else exec i { s with issuer := some a, evaluated := [], tick := s.tick + 1 }
      | .error _ => .refused .reservedEncoding

/-- R90: in a running context, a step that the table refuses is refused with the table's reason, a step the table says "no"
to does not exist, and a step the table admits is never refused for its issuer; outside any context the group-0 and group-1
operations and XFORM are never refused for their issuer. A group-0 or group-1 operation that the sequencer would take as a step
of its own is refused (R9, R204, assumption log 10), and the name of "no" is the model's (log 7). -/
def Obligations.AdmissionByTable : Prop :=
  (∀ (i : Instr) (s : State) (a : Agent), s.issuer = some a → ContextRuns a s →
    match admissionTable i a s.owner with
    | .yes      => ∀ r, exec i s = .refused r → ¬ IsAdmissionReason r
    | .refuse r => exec i s = .refused r
    | .no       => exec i s = .refused .noSuchStep
    | .inPhases => exec i s = .refused .notInSequence) ∧
  (∀ (i : Instr) (s : State), s.issuer = none → (opcode i).toNat < 0x20 ∨ opcode i = 0x24 →
    ∀ r, exec i s = .refused r → ¬ IsAdmissionReason r)

/-! ### Peripheral Interface (R100 to R110) -/

/-- R101, R102, R103: RXRDY, TXRDY and OVR answer their flag and change nothing. -/
def Obligations.FlagReadsAnswerTheFlag : Prop :=
  ∀ s : State, s.issuer = none →
    exec .rxrdy s = .next { s with response := some (if s.rxne then 0x10000 else 0) } ∧
    exec .txrdy s = .next { s with response := some (if s.txe then 0x10000 else 0) } ∧
    exec .ovr s = .next { s with response := some (if s.ore then 0x10000 else 0) }

/-- R104: RDU answers RDR and clears RXNE, leaving RDR and ORE; with RXNE = 0 it is refused. -/
def Obligations.ReadUnit : Prop :=
  ∀ s : State, s.issuer = none →
    (s.rxne = true → exec .rdu s = .next { s with rxne := false, response := some (1#1 ++ s.rdr) }) ∧
    (s.rxne = false → exec .rdu s = .refused .readNotReady)

/-- R105: WRU loads all 16 bits into TDR and clears TXE; with TXE = 0 it is refused. -/
def Obligations.WriteUnit : Prop :=
  ∀ (s : State) (u : Datum), s.issuer = none →
    (s.txe = true → exec (.wru u) s = .next { s with tdr := u, txe := false, response := some 0x10000 }) ∧
    (s.txe = false → exec (.wru u) s = .refused .writeNotReady)

/-- R106, R107, R108: CLROVR clears ORE; TXIEN and TXIDIS set and clear TXEIE and count, also when the bit already has the
value. -/
def Obligations.ClearAndEnable : Prop :=
  ∀ s : State, s.issuer = none →
    exec .clrovr s = .next { s with ore := false, response := some 0x10000 } ∧
    exec .txien s = .next { s with txeie := true, txienCnt := s.txienCnt + 1, response := some 0x10000 } ∧
    exec .txidis s = .next { s with txeie := false, txidisCnt := s.txidisCnt + 1, response := some 0x10000 }

/-- R109: RXIEN sets RXNEIE, alone or by the initialiser before the handoff. -/
def Obligations.EnableReceive : Prop :=
  ∀ s : State, s.issuer = none ∨ (s.issuer = some .initialiser ∧ s.owner = .init ∧ s.phase = .idle) →
    exec .rxien s = .next { s with rxneie := true, response := some 0x10000 }

/-- R110: there is no operation that disables the receive interrupt; once RXNEIE is 1 it is 1 in every later state. -/
def Obligations.ReceiveEnableIsForEver : Prop :=
  (∀ (i : Instr) (s t : State), exec i s = .next t → s.rxneie = true → t.rxneie = true) ∧
  (∀ (k : Nat) (s t : State), Host.Core.run core k s = .next t → s.rxneie = true → t.rxneie = true)

/-! ### Bounded queue (R120 to R129) -/

/-- R121: QNEW zeroes head, tail and len and sets QBUILT; the slots are not written; a second one is refused. -/
def Obligations.BuildQueueOnce : Prop :=
  ∀ s : State, s.issuer = none ∨ (s.issuer = some .initialiser ∧ s.owner = .init ∧ s.phase = .idle) →
    (s.qbuilt = false →
      exec .qnew s = .next { s with head := 0, tail := 0, len := 0, qbuilt := true, response := some 0x10000 }) ∧
    (s.qbuilt = true → exec .qnew s = .refused .alreadyBuilt)

/-- R122: below capacity ENQ stores at tail, advances tail by one modulo 8 and counts; at capacity it answers Full and no
element changes. -/
def Obligations.Enqueue : Prop :=
  ∀ (s : State) (u : Datum), s.issuer = none → s.qbuilt = true →
    (s.len.toNat < 8 → exec (.enq u) s = .next { s with
      slots := s.slots.set s.tail.toNat u s.tail.isLt, tail := s.tail + 1, len := s.len + 1,
      response := some 0x10000 }) ∧
    (8 ≤ s.len.toNat → exec (.enq u) s = .next { s with response := some 0 })

/-- R123: DEQ of a non-empty queue answers the unit at head and advances head by one modulo 8; of an empty queue it answers
None and no element changes. -/
def Obligations.Dequeue : Prop :=
  ∀ s : State, s.issuer = none → s.qbuilt = true →
    (0 < s.len.toNat → exec .deq s = .next { s with
      head := s.head + 1, len := s.len - 1,
      response := some (1#1 ++ s.slots[s.head.toNat]'s.head.isLt) }) ∧
    (s.len.toNat = 0 → exec .deq s = .next { s with response := some 0 })

/-- R124, R125: QEMPTY and QLEN answer and change nothing. -/
def Obligations.QueueQueries : Prop :=
  ∀ s : State, s.issuer = none → s.qbuilt = true →
    exec .qempty s = .next { s with response := some (if s.len.toNat = 0 then 0x10000 else 0) } ∧
    exec .qlen s = .next { s with response := some (1#1 ++ s.len.setWidth 16) }

/-- R120, R161: before QNEW, ENQ, DEQ, QEMPTY, QLEN and HANDOFF are refused with QueueNotBuilt. -/
def Obligations.QueueRefusedBeforeBuilt : Prop :=
  ∀ (s : State) (u : Datum), s.qbuilt = false →
    (s.issuer = none →
      exec (.enq u) s = .refused .queueNotBuilt ∧ exec .deq s = .refused .queueNotBuilt ∧
      exec .qempty s = .refused .queueNotBuilt ∧ exec .qlen s = .refused .queueNotBuilt) ∧
    (s.issuer = some .initialiser → s.owner = .init → s.phase = .idle →
      exec .handoff s = .refused .queueNotBuilt)

/-- R23, R122 to R125: on the abstract queue Q, any sequence of queue operations is the same machine as a list of at most 8
units: the same responses in order, the same queue after, and the ring stays in order (R24). -/
def Obligations.RingRefinesList : Prop :=
  ∀ (is : List Instr) (s : State) (rs : List Result) (q : List Datum),
    s.issuer = none → s.qbuilt = true → QueueInv s → listOps is s.queue = some (rs, q) →
    ∃ t, execSeq is s = some (rs.map encodeResult, t) ∧ t.queue = q ∧ QueueInv t

/-- R126: over any interleaving of queue operations the k-th unit returned is the k-th unit successfully enqueued, what was in
the queue before coming first; and any sequence of enqueues into an empty queue followed by an equal number of dequeues
returns the units in enqueue order, up to the capacity. -/
def Obligations.FifoOrder : Prop :=
  (∀ (is : List Instr) (s t : State) (ws : List Rsp), (∀ i ∈ is, 0x10 ≤ (opcode i).toNat ∧ (opcode i).toNat < 0x14) →
    s.issuer = none → s.qbuilt = true → QueueInv s → execSeq is s = some (ws, t) →
    s.queue ++ acceptedUnits is ws = returnedUnits is ws ++ t.queue) ∧
  (∀ (us : List Datum) (s : State), s.issuer = none → s.qbuilt = true → QueueInv s → s.queue = [] →
    ∃ ws t, execSeq (us.map Instr.enq ++ List.replicate us.length Instr.deq) s = some (ws, t) ∧
      returnedUnits (us.map Instr.enq ++ List.replicate us.length Instr.deq) ws = us.take 8 ∧ t.queue = [])

/-- R127: the length stays between 0 and 8 in every state after QNEW, and the 9th enqueue fails with Full and leaves the 8
resident units unchanged. -/
def Obligations.CapacityHolds : Prop :=
  (∀ (k : Nat) (s t : State), Host.Core.run core k s = .next t → (s.qbuilt = true → QueueInv s) → t.qbuilt = true →
    t.len.toNat ≤ 8) ∧
  (∀ (s : State) (u : Datum), s.issuer = none → s.qbuilt = true → s.queue.length = 8 →
    ∃ t, exec (.enq u) s = .next t ∧ t.response = some (encodeResult (.enq .full)) ∧ t.queue = s.queue)

/-- R128: enqueueing into a full queue never evicts a unit, by ENQ alone or inside SVCRX: the queue before and after is
identical. -/
def Obligations.DropNewest : Prop :=
  (∀ (s : State) (u : Datum), s.issuer = none → s.qbuilt = true → s.queue.length = 8 →
    ∃ t, exec (.enq u) s = .next t ∧ t.queue = s.queue ∧ t.slots = s.slots) ∧
  (∀ s t : State, exec .svcrx s = .next t → s.queue.length = 8 → t.queue = s.queue ∧ t.slots = s.slots)

/-! ### Service sequencer (R140 to R151) -/

/-- R36: the request is this equation of the five bits in every state: a level, with no latch. -/
def Obligations.RequestEquation : Prop :=
  ∀ s : State, s.irq = true ↔
    (s.rxneie = true ∧ (s.rxne = true ∨ s.ore = true)) ∨ (s.txeie = true ∧ s.txe = true)

/-- R141: XFORM answers the exact difference for a unit of 32 or more, whatever XFORM_LOW is, and under the policy wrap
(assumption log 6) the sum with 65504 for a unit below 32; it changes no state. It does so outside any context, for the
initialiser outside an invocation and for the sequencer inside one, by R90's table; the sequencer outside an invocation is not
running and is refused (the refusal's name is the model's: assumption log 10). -/
def Obligations.TransformSubtracts : Prop :=
  ∀ (s : State) (u : Datum),
    (s.issuer = none ∨ (s.issuer = some .initialiser ∧ s.phase = .idle) ∨
        (s.issuer = some .sequencer ∧ s.phase ≠ .idle) →
      (32 ≤ u.toNat → ∃ d : Datum, d.toNat = u.toNat - 32 ∧
        exec (.xform u) s = .next { s with response := some (1#1 ++ d) }) ∧
      (u.toNat < 32 → Config.xformLow = .wrap → ∃ d : Datum, d.toNat = u.toNat + 65504 ∧
        exec (.xform u) s = .next { s with response := some (1#1 ++ d) })) ∧
    (s.issuer = some .sequencer → s.phase = .idle → exec (.xform u) s = .refused .contextNotRunning)

/-- R142, R203: IRQENT enters the routine when unmasked, requested and idle: phase goes to TX and nothing else changes; before
the handoff it faults; and it has no step while masked, unrequested or in service (the strict form, assumption log 7 and 9). -/
def Obligations.EntryOfService : Prop :=
  ∀ s : State, s.issuer = some .controller →
    (s.unmasked = true → s.irq = true → s.phase = .idle → s.owner = .isr →
      exec .irqent s = .next { s with phase := .tx, response := some 0x10000 }) ∧
    (s.unmasked = true → s.irq = true → s.phase = .idle → s.owner = .init →
      exec .irqent s = .fault .uninitializedService) ∧
    (s.unmasked = false ∨ s.irq = false ∨ s.phase ≠ .idle → exec .irqent s = .refused .notEnabled)

/-- R143: SVCTX by its four paths: not ready; ready and empty; ready with one unit; ready with more. It has no step outside
its phase (the refusal's name is the model's: assumption log 7). -/
def Obligations.TransmitPhase : Prop :=
  ∀ s : State, s.issuer = some .sequencer → s.owner = .isr →
    (s.phase ≠ .tx → exec .svctx s = .refused .notEnabled) ∧
    (s.phase = .tx → s.txe = false →
      exec .svctx s = .next { s with phase := .rx, response := some 0x10000 }) ∧
    (s.phase = .tx → s.txe = true → s.qbuilt = true → s.len.toNat = 0 →
      exec .svctx s = .next { s with
        txeie := false, txidisCnt := s.txidisCnt + 1, spuriousTx := s.spuriousTx + 1,
        phase := .rx, response := some 0x10000 }) ∧
    (s.phase = .tx → s.txe = true → s.qbuilt = true → s.len.toNat = 1 →
      exec .svctx s = .next { s with
        head := s.head + 1, len := 0, tdr := s.slots[s.head.toNat]'s.head.isLt, txe := false,
        txeie := false, txidisCnt := s.txidisCnt + 1, phase := .rx, response := some 0x10000 }) ∧
    (s.phase = .tx → s.txe = true → s.qbuilt = true → 2 ≤ s.len.toNat →
      exec .svctx s = .next { s with
        head := s.head + 1, len := s.len - 1, tdr := s.slots[s.head.toNat]'s.head.isLt, txe := false,
        phase := .rx, response := some 0x10000 })

/-- R144: SVCRX by its four paths: nothing received; queue empty; queue with room; queue full. A unit of 32 or more is
transformed whatever XFORM_LOW is; a unit below 32, under the policy wrap (assumption log 6), and counted. It has no step
outside its phase (the refusal's name is the model's: assumption log 7). -/
def Obligations.ReceivePhase : Prop :=
  ∀ s : State, s.issuer = some .sequencer → s.owner = .isr →
    let under := s.underflowCnt + if s.rdr.toNat < 32 then 1 else 0
    (s.phase ≠ .rx → exec .svcrx s = .refused .notEnabled) ∧
    (s.phase = .rx → s.rxne = false →
      exec .svcrx s = .next { s with phase := .ovr, response := some 0x10000 }) ∧
    (s.phase = .rx → s.rxne = true → s.qbuilt = true → (32 ≤ s.rdr.toNat ∨ Config.xformLow = .wrap) →
      (s.len.toNat = 0 → exec .svcrx s = .next { s with
        rxne := false, underflowCnt := under, slots := s.slots.set s.tail.toNat (s.rdr - 32) s.tail.isLt,
        tail := s.tail + 1, len := 1, txeie := true, txienCnt := s.txienCnt + 1,
        phase := .ovr, response := some 0x10000 }) ∧
      (1 ≤ s.len.toNat → s.len.toNat < 8 → exec .svcrx s = .next { s with
        rxne := false, underflowCnt := under, slots := s.slots.set s.tail.toNat (s.rdr - 32) s.tail.isLt,
        tail := s.tail + 1, len := s.len + 1, phase := .ovr, response := some 0x10000 }) ∧
      (8 ≤ s.len.toNat → exec .svcrx s = .next { s with
        rxne := false, underflowCnt := under, dropFull := s.dropFull + 1,
        phase := .ovr, response := some 0x10000 }))

/-- R145, R205: SVCOVR leaves ORE clear and returns to IDLE, and nothing else changes. It has no step outside its
phase (the refusal's name is the model's: assumption log 7). -/
def Obligations.OverrunPhaseAndReturn : Prop :=
  ∀ s : State, s.issuer = some .sequencer → s.owner = .isr →
    (s.phase = .ovr → exec .svcovr s = .next { s with ore := false, phase := .idle, response := some 0x10000 }) ∧
    (s.phase ≠ .ovr → exec .svcovr s = .refused .notEnabled)

/-- R146, under the policy wrap of XFORM_LOW: one whole invocation with no line event inside it, row by row of the table. -/
def Obligations.ServiceInvocationTable : Prop :=
  Config.xformLow = .wrap → ∀ s : State, UfcInv s → s.owner = .isr → s.unmasked = true → s.irq = true → s.phase = .idle →
    ∃ t, Host.Core.run core 4 (s.placeSteps svcSteps) = .next t ∧
      t.phase = .idle ∧ t.ore = false ∧ t.rxne = false ∧ t.txLine = s.txLine ∧ t.inbox = s.inbox ∧
      (s.txe = false → s.rxne = false →
        t.queue = s.queue ∧ t.txeie = s.txeie ∧ t.tdr = s.tdr ∧ t.txe = false) ∧
      (s.txe = true → s.rxne = false → s.len.toNat = 0 →
        t.queue = [] ∧ t.txeie = false ∧ t.tdr = s.tdr ∧ t.txe = true) ∧
      (s.txe = true → s.rxne = false → s.len.toNat = 1 →
        s.queue = [t.tdr] ∧ t.queue = [] ∧ t.txeie = false ∧ t.txe = false) ∧
      (s.txe = true → s.rxne = false → 2 ≤ s.len.toNat →
        s.queue = t.tdr :: t.queue ∧ t.txeie = true ∧ t.txe = false) ∧
      (s.txe = false → s.rxne = true → s.len.toNat = 0 →
        t.queue = [s.rdr - 32] ∧ t.txeie = true ∧ t.tdr = s.tdr ∧ t.txe = false) ∧
      (s.txe = false → s.rxne = true → 1 ≤ s.len.toNat → s.len.toNat ≤ 7 →
        t.queue = s.queue ++ [s.rdr - 32] ∧ t.txeie = true ∧ t.tdr = s.tdr ∧ t.txe = false) ∧
      (s.txe = false → s.rxne = true → s.len.toNat = 8 →
        t.queue = s.queue ∧ t.txeie = true ∧ t.tdr = s.tdr ∧ t.txe = false) ∧
      (s.txe = true → s.rxne = true → s.len.toNat = 0 →
        t.queue = [s.rdr - 32] ∧ t.txeie = true ∧ t.tdr = s.tdr ∧ t.txe = true) ∧
      (s.txe = true → s.rxne = true → s.len.toNat = 1 →
        s.queue = [t.tdr] ∧ t.queue = [s.rdr - 32] ∧ t.txeie = true ∧ t.txe = false) ∧
      (s.txe = true → s.rxne = true → 2 ≤ s.len.toNat →
        (∃ rest, s.queue = t.tdr :: rest ∧ t.queue = rest ++ [s.rdr - 32]) ∧ t.txeie = true ∧ t.txe = false)

/-- R147, R184: draining n queued units takes n invocations: from a state with a unit in flight and nothing received, the
schedule of n times (TXDRN, then one invocation) and a last TXDRN empties the queue onto the line in order and leaves UFC
quiescent (R243). -/
def Obligations.DrainsInOrder : Prop :=
  ∀ s : State, UfcInv s → s.owner = .isr → s.unmasked = true → s.phase = .idle → s.txe = false → s.rxne = false →
    s.ore = false →
    let rounds := (List.replicate s.len.toNat ((some Agent.line, Instr.txdrn) :: svcSteps)).flatten
    ∃ t, Host.Core.run core (5 * s.len.toNat + 1) (s.placeSteps (rounds ++ [(some .line, .txdrn)])) = .next t ∧
      t.queue = [] ∧ t.txLine = s.txLine ++ s.tdr :: s.queue ∧ t.txeie = false ∧ Quiescent t ∧ t.inbox = s.inbox

/-- R33: phase advances only IDLE to TX by IRQENT, TX to RX by SVCTX, RX to OVR by SVCRX, OVR to IDLE by SVCOVR; there is no
other transition. -/
def Obligations.PhaseOrder : Prop :=
  ∀ (i : Instr) (s t : State), exec i s = .next t →
    (i = .irqent ∧ s.phase = .idle ∧ t.phase = .tx) ∨ (i = .svctx ∧ s.phase = .tx ∧ t.phase = .rx) ∨
    (i = .svcrx ∧ s.phase = .rx ∧ t.phase = .ovr) ∨ (i = .svcovr ∧ s.phase = .ovr ∧ t.phase = .idle) ∨
    (i ≠ .irqent ∧ i ≠ .svctx ∧ i ≠ .svcrx ∧ i ≠ .svcovr ∧ t.phase = s.phase)

/-- R146, R204, R206, R209: a step of the sequencer is the phase that `phase` names, run in the state before it but for the
model's own fields, and leads to the next phase, so that none stands between the three and none is left out; and inside an
invocation no agent but the sequencer and the line steps, and the line leaves the phase. An XFORM of the sequencer is no step
(R90, assumption log 18). That no phase waits for a flag is PhasesAlwaysComplete. -/
def Obligations.RunsToCompletion : Prop :=
  ∀ s t : State, step s = .next t →
    (t.issuer = some .sequencer → ∃ r : Option Rsp,
      let u := { s with
        issuer := some .sequencer, inbox := t.inbox, response := r, evaluated := t.evaluated, tick := t.tick }
      (s.phase = .tx ∧ exec .svctx u = .next t ∧ t.phase = .rx) ∨
      (s.phase = .rx ∧ exec .svcrx u = .next t ∧ t.phase = .ovr) ∨
      (s.phase = .ovr ∧ exec .svcovr u = .next t ∧ t.phase = .idle)) ∧
    (∀ a : Agent, t.issuer = some a → s.phase ≠ .idle → a = .sequencer ∨ (a = .line ∧ t.phase = s.phase))

/-- R142, R202: after the handoff a request is withdrawn by the phases only: no other agent's step, not even IRQENT, lets irq
fall. -/
def Obligations.RequestPersists : Prop :=
  ∀ (i : Instr) (s t : State), s.issuer ≠ none → s.owner = .isr → exec i s = .next t → s.irq = true →
    i ≠ .svctx → i ≠ .svcrx → i ≠ .svcovr → t.irq = true

/-- R191 to R194, R38: the ghost counters count exactly the error kinds a step raises, and nothing else. -/
def Obligations.ErrorKindsAreCounted : Prop :=
  ∀ (i : Instr) (s t : State), exec i s = .next t →
    t.dropFull = s.dropFull + (errorKinds i s).count .queueFull ∧
    t.dropOvr = s.dropOvr + (errorKinds i s).count .lineOverrun ∧
    t.spuriousTx = s.spuriousTx + (errorKinds i s).count .spuriousTransmitReady ∧
    t.underflowCnt = s.underflowCnt + (errorKinds i s).count .arithmeticUnderflow

/-- R143, R144, R151: in every state of the invariant the phase whose turn it is completes: no refusal and no fault of a
service phase is reachable (under the policy wrap of XFORM_LOW). -/
def Obligations.PhasesAlwaysComplete : Prop :=
  Config.xformLow = .wrap → ∀ s : State, UfcInv s → s.issuer = some .sequencer →
    (s.phase = .tx → ∃ t, exec .svctx s = .next t) ∧
    (s.phase = .rx → ∃ t, exec .svcrx s = .next t) ∧
    (s.phase = .ovr → ∃ t, exec .svcovr s = .next t)

/-! ### Initialisation (R160 to R166) -/

/-- R161: HANDOFF moves OWNER to ISR and nothing else; it needs a built queue; after it every operation on the peripheral or
the queue by the initialiser, a second HANDOFF among them, is refused. -/
def Obligations.HandoffOnce : Prop :=
  ∀ s : State, s.issuer = some .initialiser →
    (s.phase = .idle → s.owner = .init → s.qbuilt = true →
      exec .handoff s = .next { s with owner := .isr, response := some 0x10000 }) ∧
    (s.phase = .idle → s.owner = .init → s.qbuilt = false → exec .handoff s = .refused .queueNotBuilt) ∧
    (s.owner = .isr → exec .handoff s = .refused .ownershipViolation ∧
      ∀ i, (opcode i).toNat < 0x20 → exec i s = .refused .ownershipViolation)

/-- R162, R163: UNMASK sets UNMASKED in either state of OWNER; WFI changes nothing. -/
def Obligations.UnmaskAndWait : Prop :=
  ∀ s : State, s.issuer = some .initialiser → s.phase = .idle →
    exec .unmask s = .next { s with unmasked := true, response := some 0x10000 } ∧
    exec .wfi s = .next { s with response := some 0x10000 }

/-- R42, R164, R234: INIT, from the reset state with any draw, ends in the post-initialisation state, also with QNEW and RXIEN
exchanged. -/
def Obligations.InitReachesPostInit : Prop :=
  ∀ (d : Draw) (rest : List Command),
    Host.Core.run core 5 ({ State.powerOn d with inbox := rest }.placeSteps initSteps) =
      .next { postInit d with inbox := rest } ∧
    Host.Core.run core 5 ({ State.powerOn d with inbox := rest }.placeSteps
        (([.rxien, .qnew, .handoff, .unmask, .wfi] : List Instr).map fun i => (some .initialiser, i))) =
      .next { postInit d with inbox := rest }

/-- R165, R237: a sequence that unmasks before the handoff is not refused, and a request then faults at entry. -/
def Obligations.UnmaskBeforeHandoffFaults : Prop :=
  ∀ (d : Draw) (u : Datum),
    Host.Core.run core 5 ((State.powerOn d).placeSteps
      [(some .initialiser, .qnew), (some .initialiser, .rxien), (some .initialiser, .unmask),
        (some .line, .rxarr u), (some .controller, .irqent)]) = .fault .uninitializedService

/-- R26, R32, R34, R35: ownership is transferred once and never back, a built queue is never destroyed, and an unmasked vector
is never masked again, over any run. -/
def Obligations.OwnershipNeverReturns : Prop :=
  ∀ (k : Nat) (s t : State), Host.Core.run core k s = .next t →
    (s.owner = .isr → t.owner = .isr) ∧ (s.qbuilt = true → t.qbuilt = true) ∧ (s.unmasked = true → t.unmasked = true)

/-- R166, R238: after the handoff a step of the initialiser is WFI or UNMASK, run in the state before it but for the model's own
fields, and it changes nothing but UNMASKED, which a repeated UNMASK leaves; no operation of it on the peripheral or the queue
has a next state (HandoffOnce has the refusal), and its XFORM is no step (assumption log 18). -/
def Obligations.InitialiserIsDoneAfterHandoff : Prop :=
  (∀ s t : State, step s = .next t → t.issuer = some .initialiser → s.owner = .isr → ∃ r : Option Rsp,
    let u := { s with
      issuer := some .initialiser, inbox := t.inbox, response := r, evaluated := t.evaluated, tick := t.tick }
    (exec .wfi u = .next t ∧ t.unmasked = s.unmasked ∨ exec .unmask u = .next t ∧ t.unmasked = true) ∧
    t = { u with unmasked := t.unmasked, response := t.response }) ∧
  (∀ (i : Instr) (s t : State), s.issuer = some .initialiser → s.owner = .isr → exec i s = .next t →
    (i = .wfi ∨ i = .unmask ∨ ∃ u, i = .xform u) ∧
    t = { s with unmasked := t.unmasked, response := t.response } ∧ (s.unmasked = true → t.unmasked = true))

/-! ### Line events (R180 to R184) -/

/-- R181: an arrival into an empty RDR loads it and sets RXNE whatever ORE is; into a full one it sets ORE, counts and loses the
new unit. It completes in every state. -/
def Obligations.Arrival : Prop :=
  ∀ (s : State) (u : Datum), s.issuer = some .line →
    (s.rxne = false → exec (.rxarr u) s = .next { s with rdr := u, rxne := true, response := some 0x10000 }) ∧
    (s.rxne = true → exec (.rxarr u) s =
      .next { s with ore := true, dropOvr := s.dropOvr + 1, response := some 0x10000 })

/-- R182: TXDRN puts TDR at the end of the transmit line and sets TXE; with TXE = 1 it has no step (assumption log 7). -/
def Obligations.TransmitRegisterDrains : Prop :=
  ∀ s : State, s.issuer = some .line →
    (s.txe = false → exec .txdrn s =
      .next { s with txLine := s.txLine ++ [s.tdr], txe := true, response := some 0x10000 }) ∧
    (s.txe = true → exec .txdrn s = .refused .notEnabled)

/-- R180: line events write only RXNE, ORE, RDR, TXE and the ghosts tx_line and drop_ovr (and the model's own response), never
the queue, an enable flag, phase, OWNER or UNMASKED; they cannot fault; and they step in every state in which they are
enabled, before, during and after initialisation and inside an invocation. -/
def Obligations.LineTouchesOnlyItsFlags : Prop :=
  ∀ (i : Instr) (s : State), s.issuer = some .line →
    (∀ f, exec i s ≠ .fault f) ∧
    (∀ t, exec i s = .next t → t = { s with
      rxne := t.rxne, ore := t.ore, rdr := t.rdr, txe := t.txe, txLine := t.txLine, dropOvr := t.dropOvr,
      response := t.response }) ∧
    ((∃ u, i = .rxarr u) ∨ (i = .txdrn ∧ s.txe = false) → ∃ t, exec i s = .next t)

/-! ### Frames, invariants, whole-machine rules -/

/-- R43, the table's "written by" column: an operation changes no element whose row does not name it. A phase writes what its
sub-operations write. -/
def Obligations.WrittenOnlyByItsWriters : Prop :=
  ∀ (i : Instr) (s t : State), exec i s = .next t →
    (i = .svcrx ∨ (∃ u, i = .enq u) ∨ t.slots = s.slots) ∧
    (i = .qnew ∨ i = .deq ∨ i = .svctx ∨ t.head = s.head) ∧
    (i = .qnew ∨ (∃ u, i = .enq u) ∨ i = .svcrx ∨ t.tail = s.tail) ∧
    (i = .qnew ∨ (∃ u, i = .enq u) ∨ i = .deq ∨ i = .svctx ∨ i = .svcrx ∨ t.len = s.len) ∧
    (i = .qnew ∨ t.qbuilt = s.qbuilt) ∧
    (i = .txien ∨ i = .txidis ∨ i = .svctx ∨ i = .svcrx ∨ t.txeie = s.txeie) ∧
    (i = .rxien ∨ t.rxneie = s.rxneie) ∧
    (i = .rdu ∨ i = .svcrx ∨ (∃ u, i = .rxarr u) ∨ t.rxne = s.rxne) ∧
    ((∃ u, i = .wru u) ∨ i = .svctx ∨ i = .txdrn ∨ t.txe = s.txe) ∧
    (i = .clrovr ∨ i = .svcovr ∨ (∃ u, i = .rxarr u) ∨ t.ore = s.ore) ∧
    ((∃ u, i = .rxarr u) ∨ t.rdr = s.rdr) ∧
    ((∃ u, i = .wru u) ∨ i = .svctx ∨ t.tdr = s.tdr) ∧
    (i = .unmask ∨ t.unmasked = s.unmasked) ∧
    (i = .irqent ∨ i = .svctx ∨ i = .svcrx ∨ i = .svcovr ∨ t.phase = s.phase) ∧
    (i = .handoff ∨ t.owner = s.owner) ∧
    (i = .txdrn ∨ t.txLine = s.txLine) ∧
    t.issuer = s.issuer ∧ t.inbox = s.inbox ∧ t.evaluated = s.evaluated ∧ t.tick = s.tick

/-- R60, R61, R122: an operation that stores a unit stores it at slot[tail]: every other slot reads as before, and an operation
other than ENQ and SVCRX leaves every slot. -/
def Obligations.StoresOnlyAtTail : Prop :=
  ∀ (i : Instr) (s t : State), exec i s = .next t → ∀ j : Index,
    (j ≠ s.tail ∨ (i ≠ .svcrx ∧ ∀ u, i ≠ .enq u)) → memRead t j = memRead s j

/-- R24, R33 to R35, R39: every step of the four agents keeps the invariant, whatever the schedule. -/
def Obligations.EveryStepKeepsInvariant : Prop :=
  ∀ s t : State, UfcInv s → InContext s → step s = .next t → UfcInv t ∧ InContext t

/-- R41: the invariant holds at power-on, for every draw of what R41 leaves open. -/
def Obligations.InvariantAtPowerOn : Prop := ∀ d : Draw, UfcInv (State.powerOn d) ∧ InContext (State.powerOn d)

/-- R39: in every state reached from the post-initialisation state by steps of the four agents, at every phase boundary,
TXEIE = 1 if and only if len > 0, and the ring is in order. -/
def Obligations.MirrorInEveryReachedState : Prop :=
  ∀ (d : Draw) (cs : List Command) (k : Nat) (t : State), (∀ c ∈ cs, c.issuer ≠ none) →
    Host.Core.run core k { postInit d with inbox := cs } = .next t →
    t.owner = .isr ∧ (t.txeie = true ↔ 0 < t.len.toNat) ∧ QueueInv t

/-- R196, under the policy wrap of XFORM_LOW: the only fault is UninitializedService, and only an IRQENT while OWNER = INIT
raises it. -/
def Obligations.OnlyFaultIsUninitializedService : Prop :=
  Config.xformLow = .wrap → ∀ (i : Instr) (s : State) (f : Fault), exec i s = .fault f →
    f = .uninitializedService ∧ i = .irqent ∧ s.owner = .init

/-- R151, R206: after the handoff no run faults (under the policy wrap of XFORM_LOW): there is no fatal error path. -/
def Obligations.NoFaultAfterHandoff : Prop :=
  Config.xformLow = .wrap → ∀ (k : Nat) (s : State) (f : Fault), s.owner = .isr → Host.Core.run core k s ≠ .fault f

/-- R126, R128, R149, R183: a step of an agent either keeps the sequence of units sent or on their way, or appends the
transform of a unit that arrived into an empty RDR, or loses the youngest one, at a full queue. -/
def Obligations.PipelineInOrder : Prop :=
  ∀ (i : Instr) (s t : State), UfcInv s → s.issuer ≠ none → exec i s = .next t →
    t.pipeline = s.pipeline ∨
    (∃ u, i = .rxarr u ∧ s.rxne = false ∧ t.pipeline = s.pipeline ++ transformed u) ∨
    (i = .svcrx ∧ s.rxne = true ∧ s.queue.length = 8 ∧ t.pipeline ++ transformed s.rdr = s.pipeline)

/-- R183: over any run of chosen commands (none drawn freely, so that `tick` stands), what is on the transmit line is, in order,
a subsequence of what was on its way before and then the transforms of the units that RXARR delivered in the commands taken:
nothing is invented, duplicated or reordered. -/
def Obligations.LineIsImageOfArrivals : Prop :=
  ∀ (k : Nat) (s t : State), UfcInv s → InContext s → Host.Core.run core k s = .next t → t.tick = s.tick →
    let taken := s.inbox.take (s.inbox.length - t.inbox.length)
    List.Sublist t.txLine (s.pipeline ++ (deliveredUnits taken).flatMap transformed)

/-- R37, R38: no result depends on a ghost: with the ghosts erased every operation has the same outcome. -/
def Obligations.GhostsAreNeverRead : Prop :=
  ∀ (i : Instr) (s : State), eraseGhostsOf (exec i s.eraseGhosts) = eraseGhostsOf (exec i s)

/-- R21, R22, R30, R31, R41: no result depends on a value the spec leaves unspecified: two states that differ only there take
every operation to outcomes that differ only there, with the same response. -/
def Obligations.UnspecifiedIsNeverRead : Prop :=
  ∀ (i : Instr) (s t : State), (s.qbuilt = true → QueueInv s) → AgreeOnSpecified s t →
    OutcomesAgree (exec i s) (exec i t)

/-- R41, R230, R231: after power-on reset, whatever is drawn: no queue built, both enables 0, the transmitter ready, the vector
masked, the sequencer idle, the initialiser owning and running, nothing sent, every counter 0. State.reset is one such state
(its choice of the draw is the model's: assumption log 1, 2). -/
def Obligations.ResetValues : Prop :=
  (∀ d : Draw,
    let s := State.powerOn d
    s.qbuilt = false ∧ s.txeie = false ∧ s.rxneie = false ∧ s.txe = true ∧ s.unmasked = false ∧ s.phase = .idle ∧
    s.owner = .init ∧ s.issuer = some .initialiser ∧ s.txLine = [] ∧ s.dropFull = 0 ∧ s.dropOvr = 0 ∧
    s.spuriousTx = 0 ∧ s.underflowCnt = 0 ∧ s.txienCnt = 0 ∧ s.txidisCnt = 0 ∧ s.rxne = d.rxne ∧ s.ore = d.ore) ∧
  (∃ d : Draw, State.reset = State.powerOn d)

/-- R243: after INIT a quiescent state has nothing received, no overrun, the transmit interrupt disabled, an empty queue and
nothing in flight: everything on its way is on the line. -/
def Obligations.QuiescentMeansAllSent : Prop :=
  ∀ s : State, UfcInv s → s.owner = .isr → s.rxneie = true → Quiescent s →
    s.rxne = false ∧ s.ore = false ∧ s.txeie = false ∧ s.queue = [] ∧ s.pipeline = s.txLine
end

