-- ==== Sys2Proof/Laws/Decode.lean ====
section
/-! SUPPORT. The fields of an encoded word (spec/30_encoding.md R81), and the response words of R83. -/

namespace Sys2Proof

theorem append_toNat (c : BitVec 8) (u : Datum) : (c ++ u).toNat = c.toNat * 65536 + u.toNat := by
  have hu : u.toNat < 2 ^ 16 := u.isLt
  show (BitVec.append c u).toNat = _
  rw [show BitVec.append c u = c ++ u from rfl, BitVec.toNat_append]
  rw [← Nat.shiftLeft_add_eq_or_of_lt hu, Nat.shiftLeft_eq]

theorem fieldGrp_append (c : BitVec 8) (u : Datum) : (fieldGrp (c ++ u)).toNat = c.toNat / 16 := by
  have hu : u.toNat < 65536 := u.isLt
  have hc : c.toNat < 256 := c.isLt
  simp only [fieldGrp, BitVec.extractLsb'_toNat, Nat.shiftRight_eq_div_pow]
  rw [append_toNat]; omega

theorem fieldFn_append (c : BitVec 8) (u : Datum) : (fieldFn (c ++ u)).toNat = c.toNat % 16 := by
  have hu : u.toNat < 65536 := u.isLt
  have hc : c.toNat < 256 := c.isLt
  simp only [fieldFn, BitVec.extractLsb'_toNat, Nat.shiftRight_eq_div_pow]
  rw [append_toNat]; omega

theorem fieldU_append (c : BitVec 8) (u : Datum) : fieldU (c ++ u) = u := by
  have hu : u.toNat < 65536 := u.isLt
  refine BitVec.eq_of_toNat_eq ?_
  simp only [fieldU, BitVec.extractLsb'_toNat, Nat.shiftRight_eq_div_pow]
  rw [append_toNat]
  show (c.toNat * 65536 + u.toNat) / 2 ^ 0 % 65536 = u.toNat
  omega

/-- A word is its operation code and its operand field. -/
theorem word_eq_append (w : Cmd) : w = (fieldGrp w ++ fieldFn w : BitVec 8) ++ fieldU w := by
  have hw : w.toNat < 16777216 := w.isLt
  refine BitVec.eq_of_toNat_eq ?_
  have hfn : (fieldFn w).toNat < 2 ^ 4 := (fieldFn w).isLt
  have happ : (fieldGrp w ++ fieldFn w : BitVec 8).toNat = (fieldGrp w).toNat * 16 + (fieldFn w).toNat := by
    rw [BitVec.toNat_append, ← Nat.shiftLeft_add_eq_or_of_lt hfn, Nat.shiftLeft_eq]
  rw [append_toNat, happ]
  simp only [fieldGrp, fieldFn, fieldU, BitVec.extractLsb'_toNat, Nat.shiftRight_eq_div_pow]
  show w.toNat = (w.toNat / 2 ^ 20 % 16 * 16 + w.toNat / 2 ^ 16 % 16) * 65536 + w.toNat / 2 ^ 0 % 65536
  omega

/-- `withoutOperand` accepts exactly the operand 0. -/
theorem withoutOperand_ok {i j : Instr} {u : Datum} : withoutOperand i u = .ok j ↔ u = 0 ∧ j = i := by
  unfold withoutOperand
  split <;> simp_all [eq_comm (a := j)]

end Sys2Proof
end

