-- ==== Sys2Proof/Laws/State.lean ====
section
/-! SUPPORT. One lemma per field per named update of State, each true by rfl: no later proof unfolds a record update. -/

namespace Sys2Proof.Machine

variable (s : State)


/-! ### clearRxne -/

@[simp] theorem State.clearRxne_slots : s.clearRxne.slots = s.slots := rfl
@[simp] theorem State.clearRxne_head : s.clearRxne.head = s.head := rfl
@[simp] theorem State.clearRxne_tail : s.clearRxne.tail = s.tail := rfl
@[simp] theorem State.clearRxne_len : s.clearRxne.len = s.len := rfl
@[simp] theorem State.clearRxne_qbuilt : s.clearRxne.qbuilt = s.qbuilt := rfl
@[simp] theorem State.clearRxne_txeie : s.clearRxne.txeie = s.txeie := rfl
@[simp] theorem State.clearRxne_rxneie : s.clearRxne.rxneie = s.rxneie := rfl
@[simp] theorem State.clearRxne_rxne : s.clearRxne.rxne = false := rfl
@[simp] theorem State.clearRxne_txe : s.clearRxne.txe = s.txe := rfl
@[simp] theorem State.clearRxne_ore : s.clearRxne.ore = s.ore := rfl
@[simp] theorem State.clearRxne_rdr : s.clearRxne.rdr = s.rdr := rfl
@[simp] theorem State.clearRxne_tdr : s.clearRxne.tdr = s.tdr := rfl
@[simp] theorem State.clearRxne_unmasked : s.clearRxne.unmasked = s.unmasked := rfl
@[simp] theorem State.clearRxne_phase : s.clearRxne.phase = s.phase := rfl
@[simp] theorem State.clearRxne_owner : s.clearRxne.owner = s.owner := rfl
@[simp] theorem State.clearRxne_txLine : s.clearRxne.txLine = s.txLine := rfl
@[simp] theorem State.clearRxne_dropFull : s.clearRxne.dropFull = s.dropFull := rfl
@[simp] theorem State.clearRxne_dropOvr : s.clearRxne.dropOvr = s.dropOvr := rfl
@[simp] theorem State.clearRxne_spuriousTx : s.clearRxne.spuriousTx = s.spuriousTx := rfl
@[simp] theorem State.clearRxne_underflowCnt : s.clearRxne.underflowCnt = s.underflowCnt := rfl
@[simp] theorem State.clearRxne_txienCnt : s.clearRxne.txienCnt = s.txienCnt := rfl
@[simp] theorem State.clearRxne_txidisCnt : s.clearRxne.txidisCnt = s.txidisCnt := rfl
@[simp] theorem State.clearRxne_issuer : s.clearRxne.issuer = s.issuer := rfl
@[simp] theorem State.clearRxne_inbox : s.clearRxne.inbox = s.inbox := rfl
@[simp] theorem State.clearRxne_response : s.clearRxne.response = s.response := rfl
@[simp] theorem State.clearRxne_tick : s.clearRxne.tick = s.tick := rfl
@[simp] theorem State.clearRxne_evaluated : s.clearRxne.evaluated = s.evaluated := rfl

/-! ### setRxne -/

@[simp] theorem State.setRxne_slots : s.setRxne.slots = s.slots := rfl
@[simp] theorem State.setRxne_head : s.setRxne.head = s.head := rfl
@[simp] theorem State.setRxne_tail : s.setRxne.tail = s.tail := rfl
@[simp] theorem State.setRxne_len : s.setRxne.len = s.len := rfl
@[simp] theorem State.setRxne_qbuilt : s.setRxne.qbuilt = s.qbuilt := rfl
@[simp] theorem State.setRxne_txeie : s.setRxne.txeie = s.txeie := rfl
@[simp] theorem State.setRxne_rxneie : s.setRxne.rxneie = s.rxneie := rfl
@[simp] theorem State.setRxne_rxne : s.setRxne.rxne = true := rfl
@[simp] theorem State.setRxne_txe : s.setRxne.txe = s.txe := rfl
@[simp] theorem State.setRxne_ore : s.setRxne.ore = s.ore := rfl
@[simp] theorem State.setRxne_rdr : s.setRxne.rdr = s.rdr := rfl
@[simp] theorem State.setRxne_tdr : s.setRxne.tdr = s.tdr := rfl
@[simp] theorem State.setRxne_unmasked : s.setRxne.unmasked = s.unmasked := rfl
@[simp] theorem State.setRxne_phase : s.setRxne.phase = s.phase := rfl
@[simp] theorem State.setRxne_owner : s.setRxne.owner = s.owner := rfl
@[simp] theorem State.setRxne_txLine : s.setRxne.txLine = s.txLine := rfl
@[simp] theorem State.setRxne_dropFull : s.setRxne.dropFull = s.dropFull := rfl
@[simp] theorem State.setRxne_dropOvr : s.setRxne.dropOvr = s.dropOvr := rfl
@[simp] theorem State.setRxne_spuriousTx : s.setRxne.spuriousTx = s.spuriousTx := rfl
@[simp] theorem State.setRxne_underflowCnt : s.setRxne.underflowCnt = s.underflowCnt := rfl
@[simp] theorem State.setRxne_txienCnt : s.setRxne.txienCnt = s.txienCnt := rfl
@[simp] theorem State.setRxne_txidisCnt : s.setRxne.txidisCnt = s.txidisCnt := rfl
@[simp] theorem State.setRxne_issuer : s.setRxne.issuer = s.issuer := rfl
@[simp] theorem State.setRxne_inbox : s.setRxne.inbox = s.inbox := rfl
@[simp] theorem State.setRxne_response : s.setRxne.response = s.response := rfl
@[simp] theorem State.setRxne_tick : s.setRxne.tick = s.tick := rfl
@[simp] theorem State.setRxne_evaluated : s.setRxne.evaluated = s.evaluated := rfl

/-! ### clearTxe -/

@[simp] theorem State.clearTxe_slots : s.clearTxe.slots = s.slots := rfl
@[simp] theorem State.clearTxe_head : s.clearTxe.head = s.head := rfl
@[simp] theorem State.clearTxe_tail : s.clearTxe.tail = s.tail := rfl
@[simp] theorem State.clearTxe_len : s.clearTxe.len = s.len := rfl
@[simp] theorem State.clearTxe_qbuilt : s.clearTxe.qbuilt = s.qbuilt := rfl
@[simp] theorem State.clearTxe_txeie : s.clearTxe.txeie = s.txeie := rfl
@[simp] theorem State.clearTxe_rxneie : s.clearTxe.rxneie = s.rxneie := rfl
@[simp] theorem State.clearTxe_rxne : s.clearTxe.rxne = s.rxne := rfl
@[simp] theorem State.clearTxe_txe : s.clearTxe.txe = false := rfl
@[simp] theorem State.clearTxe_ore : s.clearTxe.ore = s.ore := rfl
@[simp] theorem State.clearTxe_rdr : s.clearTxe.rdr = s.rdr := rfl
@[simp] theorem State.clearTxe_tdr : s.clearTxe.tdr = s.tdr := rfl
@[simp] theorem State.clearTxe_unmasked : s.clearTxe.unmasked = s.unmasked := rfl
@[simp] theorem State.clearTxe_phase : s.clearTxe.phase = s.phase := rfl
@[simp] theorem State.clearTxe_owner : s.clearTxe.owner = s.owner := rfl
@[simp] theorem State.clearTxe_txLine : s.clearTxe.txLine = s.txLine := rfl
@[simp] theorem State.clearTxe_dropFull : s.clearTxe.dropFull = s.dropFull := rfl
@[simp] theorem State.clearTxe_dropOvr : s.clearTxe.dropOvr = s.dropOvr := rfl
@[simp] theorem State.clearTxe_spuriousTx : s.clearTxe.spuriousTx = s.spuriousTx := rfl
@[simp] theorem State.clearTxe_underflowCnt : s.clearTxe.underflowCnt = s.underflowCnt := rfl
@[simp] theorem State.clearTxe_txienCnt : s.clearTxe.txienCnt = s.txienCnt := rfl
@[simp] theorem State.clearTxe_txidisCnt : s.clearTxe.txidisCnt = s.txidisCnt := rfl
@[simp] theorem State.clearTxe_issuer : s.clearTxe.issuer = s.issuer := rfl
@[simp] theorem State.clearTxe_inbox : s.clearTxe.inbox = s.inbox := rfl
@[simp] theorem State.clearTxe_response : s.clearTxe.response = s.response := rfl
@[simp] theorem State.clearTxe_tick : s.clearTxe.tick = s.tick := rfl
@[simp] theorem State.clearTxe_evaluated : s.clearTxe.evaluated = s.evaluated := rfl

/-! ### setTxe -/

@[simp] theorem State.setTxe_slots : s.setTxe.slots = s.slots := rfl
@[simp] theorem State.setTxe_head : s.setTxe.head = s.head := rfl
@[simp] theorem State.setTxe_tail : s.setTxe.tail = s.tail := rfl
@[simp] theorem State.setTxe_len : s.setTxe.len = s.len := rfl
@[simp] theorem State.setTxe_qbuilt : s.setTxe.qbuilt = s.qbuilt := rfl
@[simp] theorem State.setTxe_txeie : s.setTxe.txeie = s.txeie := rfl
@[simp] theorem State.setTxe_rxneie : s.setTxe.rxneie = s.rxneie := rfl
@[simp] theorem State.setTxe_rxne : s.setTxe.rxne = s.rxne := rfl
@[simp] theorem State.setTxe_txe : s.setTxe.txe = true := rfl
@[simp] theorem State.setTxe_ore : s.setTxe.ore = s.ore := rfl
@[simp] theorem State.setTxe_rdr : s.setTxe.rdr = s.rdr := rfl
@[simp] theorem State.setTxe_tdr : s.setTxe.tdr = s.tdr := rfl
@[simp] theorem State.setTxe_unmasked : s.setTxe.unmasked = s.unmasked := rfl
@[simp] theorem State.setTxe_phase : s.setTxe.phase = s.phase := rfl
@[simp] theorem State.setTxe_owner : s.setTxe.owner = s.owner := rfl
@[simp] theorem State.setTxe_txLine : s.setTxe.txLine = s.txLine := rfl
@[simp] theorem State.setTxe_dropFull : s.setTxe.dropFull = s.dropFull := rfl
@[simp] theorem State.setTxe_dropOvr : s.setTxe.dropOvr = s.dropOvr := rfl
@[simp] theorem State.setTxe_spuriousTx : s.setTxe.spuriousTx = s.spuriousTx := rfl
@[simp] theorem State.setTxe_underflowCnt : s.setTxe.underflowCnt = s.underflowCnt := rfl
@[simp] theorem State.setTxe_txienCnt : s.setTxe.txienCnt = s.txienCnt := rfl
@[simp] theorem State.setTxe_txidisCnt : s.setTxe.txidisCnt = s.txidisCnt := rfl
@[simp] theorem State.setTxe_issuer : s.setTxe.issuer = s.issuer := rfl
@[simp] theorem State.setTxe_inbox : s.setTxe.inbox = s.inbox := rfl
@[simp] theorem State.setTxe_response : s.setTxe.response = s.response := rfl
@[simp] theorem State.setTxe_tick : s.setTxe.tick = s.tick := rfl
@[simp] theorem State.setTxe_evaluated : s.setTxe.evaluated = s.evaluated := rfl

/-! ### clearOre -/

@[simp] theorem State.clearOre_slots : s.clearOre.slots = s.slots := rfl
@[simp] theorem State.clearOre_head : s.clearOre.head = s.head := rfl
@[simp] theorem State.clearOre_tail : s.clearOre.tail = s.tail := rfl
@[simp] theorem State.clearOre_len : s.clearOre.len = s.len := rfl
@[simp] theorem State.clearOre_qbuilt : s.clearOre.qbuilt = s.qbuilt := rfl
@[simp] theorem State.clearOre_txeie : s.clearOre.txeie = s.txeie := rfl
@[simp] theorem State.clearOre_rxneie : s.clearOre.rxneie = s.rxneie := rfl
@[simp] theorem State.clearOre_rxne : s.clearOre.rxne = s.rxne := rfl
@[simp] theorem State.clearOre_txe : s.clearOre.txe = s.txe := rfl
@[simp] theorem State.clearOre_ore : s.clearOre.ore = false := rfl
@[simp] theorem State.clearOre_rdr : s.clearOre.rdr = s.rdr := rfl
@[simp] theorem State.clearOre_tdr : s.clearOre.tdr = s.tdr := rfl
@[simp] theorem State.clearOre_unmasked : s.clearOre.unmasked = s.unmasked := rfl
@[simp] theorem State.clearOre_phase : s.clearOre.phase = s.phase := rfl
@[simp] theorem State.clearOre_owner : s.clearOre.owner = s.owner := rfl
@[simp] theorem State.clearOre_txLine : s.clearOre.txLine = s.txLine := rfl
@[simp] theorem State.clearOre_dropFull : s.clearOre.dropFull = s.dropFull := rfl
@[simp] theorem State.clearOre_dropOvr : s.clearOre.dropOvr = s.dropOvr := rfl
@[simp] theorem State.clearOre_spuriousTx : s.clearOre.spuriousTx = s.spuriousTx := rfl
@[simp] theorem State.clearOre_underflowCnt : s.clearOre.underflowCnt = s.underflowCnt := rfl
@[simp] theorem State.clearOre_txienCnt : s.clearOre.txienCnt = s.txienCnt := rfl
@[simp] theorem State.clearOre_txidisCnt : s.clearOre.txidisCnt = s.txidisCnt := rfl
@[simp] theorem State.clearOre_issuer : s.clearOre.issuer = s.issuer := rfl
@[simp] theorem State.clearOre_inbox : s.clearOre.inbox = s.inbox := rfl
@[simp] theorem State.clearOre_response : s.clearOre.response = s.response := rfl
@[simp] theorem State.clearOre_tick : s.clearOre.tick = s.tick := rfl
@[simp] theorem State.clearOre_evaluated : s.clearOre.evaluated = s.evaluated := rfl

/-! ### setOre -/

@[simp] theorem State.setOre_slots : s.setOre.slots = s.slots := rfl
@[simp] theorem State.setOre_head : s.setOre.head = s.head := rfl
@[simp] theorem State.setOre_tail : s.setOre.tail = s.tail := rfl
@[simp] theorem State.setOre_len : s.setOre.len = s.len := rfl
@[simp] theorem State.setOre_qbuilt : s.setOre.qbuilt = s.qbuilt := rfl
@[simp] theorem State.setOre_txeie : s.setOre.txeie = s.txeie := rfl
@[simp] theorem State.setOre_rxneie : s.setOre.rxneie = s.rxneie := rfl
@[simp] theorem State.setOre_rxne : s.setOre.rxne = s.rxne := rfl
@[simp] theorem State.setOre_txe : s.setOre.txe = s.txe := rfl
@[simp] theorem State.setOre_ore : s.setOre.ore = true := rfl
@[simp] theorem State.setOre_rdr : s.setOre.rdr = s.rdr := rfl
@[simp] theorem State.setOre_tdr : s.setOre.tdr = s.tdr := rfl
@[simp] theorem State.setOre_unmasked : s.setOre.unmasked = s.unmasked := rfl
@[simp] theorem State.setOre_phase : s.setOre.phase = s.phase := rfl
@[simp] theorem State.setOre_owner : s.setOre.owner = s.owner := rfl
@[simp] theorem State.setOre_txLine : s.setOre.txLine = s.txLine := rfl
@[simp] theorem State.setOre_dropFull : s.setOre.dropFull = s.dropFull := rfl
@[simp] theorem State.setOre_dropOvr : s.setOre.dropOvr = s.dropOvr := rfl
@[simp] theorem State.setOre_spuriousTx : s.setOre.spuriousTx = s.spuriousTx := rfl
@[simp] theorem State.setOre_underflowCnt : s.setOre.underflowCnt = s.underflowCnt := rfl
@[simp] theorem State.setOre_txienCnt : s.setOre.txienCnt = s.txienCnt := rfl
@[simp] theorem State.setOre_txidisCnt : s.setOre.txidisCnt = s.txidisCnt := rfl
@[simp] theorem State.setOre_issuer : s.setOre.issuer = s.issuer := rfl
@[simp] theorem State.setOre_inbox : s.setOre.inbox = s.inbox := rfl
@[simp] theorem State.setOre_response : s.setOre.response = s.response := rfl
@[simp] theorem State.setOre_tick : s.setOre.tick = s.tick := rfl
@[simp] theorem State.setOre_evaluated : s.setOre.evaluated = s.evaluated := rfl

/-! ### setRxneie -/

@[simp] theorem State.setRxneie_slots : s.setRxneie.slots = s.slots := rfl
@[simp] theorem State.setRxneie_head : s.setRxneie.head = s.head := rfl
@[simp] theorem State.setRxneie_tail : s.setRxneie.tail = s.tail := rfl
@[simp] theorem State.setRxneie_len : s.setRxneie.len = s.len := rfl
@[simp] theorem State.setRxneie_qbuilt : s.setRxneie.qbuilt = s.qbuilt := rfl
@[simp] theorem State.setRxneie_txeie : s.setRxneie.txeie = s.txeie := rfl
@[simp] theorem State.setRxneie_rxneie : s.setRxneie.rxneie = true := rfl
@[simp] theorem State.setRxneie_rxne : s.setRxneie.rxne = s.rxne := rfl
@[simp] theorem State.setRxneie_txe : s.setRxneie.txe = s.txe := rfl
@[simp] theorem State.setRxneie_ore : s.setRxneie.ore = s.ore := rfl
@[simp] theorem State.setRxneie_rdr : s.setRxneie.rdr = s.rdr := rfl
@[simp] theorem State.setRxneie_tdr : s.setRxneie.tdr = s.tdr := rfl
@[simp] theorem State.setRxneie_unmasked : s.setRxneie.unmasked = s.unmasked := rfl
@[simp] theorem State.setRxneie_phase : s.setRxneie.phase = s.phase := rfl
@[simp] theorem State.setRxneie_owner : s.setRxneie.owner = s.owner := rfl
@[simp] theorem State.setRxneie_txLine : s.setRxneie.txLine = s.txLine := rfl
@[simp] theorem State.setRxneie_dropFull : s.setRxneie.dropFull = s.dropFull := rfl
@[simp] theorem State.setRxneie_dropOvr : s.setRxneie.dropOvr = s.dropOvr := rfl
@[simp] theorem State.setRxneie_spuriousTx : s.setRxneie.spuriousTx = s.spuriousTx := rfl
@[simp] theorem State.setRxneie_underflowCnt : s.setRxneie.underflowCnt = s.underflowCnt := rfl
@[simp] theorem State.setRxneie_txienCnt : s.setRxneie.txienCnt = s.txienCnt := rfl
@[simp] theorem State.setRxneie_txidisCnt : s.setRxneie.txidisCnt = s.txidisCnt := rfl
@[simp] theorem State.setRxneie_issuer : s.setRxneie.issuer = s.issuer := rfl
@[simp] theorem State.setRxneie_inbox : s.setRxneie.inbox = s.inbox := rfl
@[simp] theorem State.setRxneie_response : s.setRxneie.response = s.response := rfl
@[simp] theorem State.setRxneie_tick : s.setRxneie.tick = s.tick := rfl
@[simp] theorem State.setRxneie_evaluated : s.setRxneie.evaluated = s.evaluated := rfl

/-! ### enableTx -/

@[simp] theorem State.enableTx_slots : s.enableTx.slots = s.slots := rfl
@[simp] theorem State.enableTx_head : s.enableTx.head = s.head := rfl
@[simp] theorem State.enableTx_tail : s.enableTx.tail = s.tail := rfl
@[simp] theorem State.enableTx_len : s.enableTx.len = s.len := rfl
@[simp] theorem State.enableTx_qbuilt : s.enableTx.qbuilt = s.qbuilt := rfl
@[simp] theorem State.enableTx_txeie : s.enableTx.txeie = true := rfl
@[simp] theorem State.enableTx_rxneie : s.enableTx.rxneie = s.rxneie := rfl
@[simp] theorem State.enableTx_rxne : s.enableTx.rxne = s.rxne := rfl
@[simp] theorem State.enableTx_txe : s.enableTx.txe = s.txe := rfl
@[simp] theorem State.enableTx_ore : s.enableTx.ore = s.ore := rfl
@[simp] theorem State.enableTx_rdr : s.enableTx.rdr = s.rdr := rfl
@[simp] theorem State.enableTx_tdr : s.enableTx.tdr = s.tdr := rfl
@[simp] theorem State.enableTx_unmasked : s.enableTx.unmasked = s.unmasked := rfl
@[simp] theorem State.enableTx_phase : s.enableTx.phase = s.phase := rfl
@[simp] theorem State.enableTx_owner : s.enableTx.owner = s.owner := rfl
@[simp] theorem State.enableTx_txLine : s.enableTx.txLine = s.txLine := rfl
@[simp] theorem State.enableTx_dropFull : s.enableTx.dropFull = s.dropFull := rfl
@[simp] theorem State.enableTx_dropOvr : s.enableTx.dropOvr = s.dropOvr := rfl
@[simp] theorem State.enableTx_spuriousTx : s.enableTx.spuriousTx = s.spuriousTx := rfl
@[simp] theorem State.enableTx_underflowCnt : s.enableTx.underflowCnt = s.underflowCnt := rfl
@[simp] theorem State.enableTx_txienCnt : s.enableTx.txienCnt = s.txienCnt + 1 := rfl
@[simp] theorem State.enableTx_txidisCnt : s.enableTx.txidisCnt = s.txidisCnt := rfl
@[simp] theorem State.enableTx_issuer : s.enableTx.issuer = s.issuer := rfl
@[simp] theorem State.enableTx_inbox : s.enableTx.inbox = s.inbox := rfl
@[simp] theorem State.enableTx_response : s.enableTx.response = s.response := rfl
@[simp] theorem State.enableTx_tick : s.enableTx.tick = s.tick := rfl
@[simp] theorem State.enableTx_evaluated : s.enableTx.evaluated = s.evaluated := rfl

/-! ### disableTx -/

@[simp] theorem State.disableTx_slots : s.disableTx.slots = s.slots := rfl
@[simp] theorem State.disableTx_head : s.disableTx.head = s.head := rfl
@[simp] theorem State.disableTx_tail : s.disableTx.tail = s.tail := rfl
@[simp] theorem State.disableTx_len : s.disableTx.len = s.len := rfl
@[simp] theorem State.disableTx_qbuilt : s.disableTx.qbuilt = s.qbuilt := rfl
@[simp] theorem State.disableTx_txeie : s.disableTx.txeie = false := rfl
@[simp] theorem State.disableTx_rxneie : s.disableTx.rxneie = s.rxneie := rfl
@[simp] theorem State.disableTx_rxne : s.disableTx.rxne = s.rxne := rfl
@[simp] theorem State.disableTx_txe : s.disableTx.txe = s.txe := rfl
@[simp] theorem State.disableTx_ore : s.disableTx.ore = s.ore := rfl
@[simp] theorem State.disableTx_rdr : s.disableTx.rdr = s.rdr := rfl
@[simp] theorem State.disableTx_tdr : s.disableTx.tdr = s.tdr := rfl
@[simp] theorem State.disableTx_unmasked : s.disableTx.unmasked = s.unmasked := rfl
@[simp] theorem State.disableTx_phase : s.disableTx.phase = s.phase := rfl
@[simp] theorem State.disableTx_owner : s.disableTx.owner = s.owner := rfl
@[simp] theorem State.disableTx_txLine : s.disableTx.txLine = s.txLine := rfl
@[simp] theorem State.disableTx_dropFull : s.disableTx.dropFull = s.dropFull := rfl
@[simp] theorem State.disableTx_dropOvr : s.disableTx.dropOvr = s.dropOvr := rfl
@[simp] theorem State.disableTx_spuriousTx : s.disableTx.spuriousTx = s.spuriousTx := rfl
@[simp] theorem State.disableTx_underflowCnt : s.disableTx.underflowCnt = s.underflowCnt := rfl
@[simp] theorem State.disableTx_txienCnt : s.disableTx.txienCnt = s.txienCnt := rfl
@[simp] theorem State.disableTx_txidisCnt : s.disableTx.txidisCnt = s.txidisCnt + 1 := rfl
@[simp] theorem State.disableTx_issuer : s.disableTx.issuer = s.issuer := rfl
@[simp] theorem State.disableTx_inbox : s.disableTx.inbox = s.inbox := rfl
@[simp] theorem State.disableTx_response : s.disableTx.response = s.response := rfl
@[simp] theorem State.disableTx_tick : s.disableTx.tick = s.tick := rfl
@[simp] theorem State.disableTx_evaluated : s.disableTx.evaluated = s.evaluated := rfl

/-! ### countDropFull -/

@[simp] theorem State.countDropFull_slots : s.countDropFull.slots = s.slots := rfl
@[simp] theorem State.countDropFull_head : s.countDropFull.head = s.head := rfl
@[simp] theorem State.countDropFull_tail : s.countDropFull.tail = s.tail := rfl
@[simp] theorem State.countDropFull_len : s.countDropFull.len = s.len := rfl
@[simp] theorem State.countDropFull_qbuilt : s.countDropFull.qbuilt = s.qbuilt := rfl
@[simp] theorem State.countDropFull_txeie : s.countDropFull.txeie = s.txeie := rfl
@[simp] theorem State.countDropFull_rxneie : s.countDropFull.rxneie = s.rxneie := rfl
@[simp] theorem State.countDropFull_rxne : s.countDropFull.rxne = s.rxne := rfl
@[simp] theorem State.countDropFull_txe : s.countDropFull.txe = s.txe := rfl
@[simp] theorem State.countDropFull_ore : s.countDropFull.ore = s.ore := rfl
@[simp] theorem State.countDropFull_rdr : s.countDropFull.rdr = s.rdr := rfl
@[simp] theorem State.countDropFull_tdr : s.countDropFull.tdr = s.tdr := rfl
@[simp] theorem State.countDropFull_unmasked : s.countDropFull.unmasked = s.unmasked := rfl
@[simp] theorem State.countDropFull_phase : s.countDropFull.phase = s.phase := rfl
@[simp] theorem State.countDropFull_owner : s.countDropFull.owner = s.owner := rfl
@[simp] theorem State.countDropFull_txLine : s.countDropFull.txLine = s.txLine := rfl
@[simp] theorem State.countDropFull_dropFull : s.countDropFull.dropFull = s.dropFull + 1 := rfl
@[simp] theorem State.countDropFull_dropOvr : s.countDropFull.dropOvr = s.dropOvr := rfl
@[simp] theorem State.countDropFull_spuriousTx : s.countDropFull.spuriousTx = s.spuriousTx := rfl
@[simp] theorem State.countDropFull_underflowCnt : s.countDropFull.underflowCnt = s.underflowCnt := rfl
@[simp] theorem State.countDropFull_txienCnt : s.countDropFull.txienCnt = s.txienCnt := rfl
@[simp] theorem State.countDropFull_txidisCnt : s.countDropFull.txidisCnt = s.txidisCnt := rfl
@[simp] theorem State.countDropFull_issuer : s.countDropFull.issuer = s.issuer := rfl
@[simp] theorem State.countDropFull_inbox : s.countDropFull.inbox = s.inbox := rfl
@[simp] theorem State.countDropFull_response : s.countDropFull.response = s.response := rfl
@[simp] theorem State.countDropFull_tick : s.countDropFull.tick = s.tick := rfl
@[simp] theorem State.countDropFull_evaluated : s.countDropFull.evaluated = s.evaluated := rfl

/-! ### countDropOvr -/

@[simp] theorem State.countDropOvr_slots : s.countDropOvr.slots = s.slots := rfl
@[simp] theorem State.countDropOvr_head : s.countDropOvr.head = s.head := rfl
@[simp] theorem State.countDropOvr_tail : s.countDropOvr.tail = s.tail := rfl
@[simp] theorem State.countDropOvr_len : s.countDropOvr.len = s.len := rfl
@[simp] theorem State.countDropOvr_qbuilt : s.countDropOvr.qbuilt = s.qbuilt := rfl
@[simp] theorem State.countDropOvr_txeie : s.countDropOvr.txeie = s.txeie := rfl
@[simp] theorem State.countDropOvr_rxneie : s.countDropOvr.rxneie = s.rxneie := rfl
@[simp] theorem State.countDropOvr_rxne : s.countDropOvr.rxne = s.rxne := rfl
@[simp] theorem State.countDropOvr_txe : s.countDropOvr.txe = s.txe := rfl
@[simp] theorem State.countDropOvr_ore : s.countDropOvr.ore = s.ore := rfl
@[simp] theorem State.countDropOvr_rdr : s.countDropOvr.rdr = s.rdr := rfl
@[simp] theorem State.countDropOvr_tdr : s.countDropOvr.tdr = s.tdr := rfl
@[simp] theorem State.countDropOvr_unmasked : s.countDropOvr.unmasked = s.unmasked := rfl
@[simp] theorem State.countDropOvr_phase : s.countDropOvr.phase = s.phase := rfl
@[simp] theorem State.countDropOvr_owner : s.countDropOvr.owner = s.owner := rfl
@[simp] theorem State.countDropOvr_txLine : s.countDropOvr.txLine = s.txLine := rfl
@[simp] theorem State.countDropOvr_dropFull : s.countDropOvr.dropFull = s.dropFull := rfl
@[simp] theorem State.countDropOvr_dropOvr : s.countDropOvr.dropOvr = s.dropOvr + 1 := rfl
@[simp] theorem State.countDropOvr_spuriousTx : s.countDropOvr.spuriousTx = s.spuriousTx := rfl
@[simp] theorem State.countDropOvr_underflowCnt : s.countDropOvr.underflowCnt = s.underflowCnt := rfl
@[simp] theorem State.countDropOvr_txienCnt : s.countDropOvr.txienCnt = s.txienCnt := rfl
@[simp] theorem State.countDropOvr_txidisCnt : s.countDropOvr.txidisCnt = s.txidisCnt := rfl
@[simp] theorem State.countDropOvr_issuer : s.countDropOvr.issuer = s.issuer := rfl
@[simp] theorem State.countDropOvr_inbox : s.countDropOvr.inbox = s.inbox := rfl
@[simp] theorem State.countDropOvr_response : s.countDropOvr.response = s.response := rfl
@[simp] theorem State.countDropOvr_tick : s.countDropOvr.tick = s.tick := rfl
@[simp] theorem State.countDropOvr_evaluated : s.countDropOvr.evaluated = s.evaluated := rfl

/-! ### countSpurious -/

@[simp] theorem State.countSpurious_slots : s.countSpurious.slots = s.slots := rfl
@[simp] theorem State.countSpurious_head : s.countSpurious.head = s.head := rfl
@[simp] theorem State.countSpurious_tail : s.countSpurious.tail = s.tail := rfl
@[simp] theorem State.countSpurious_len : s.countSpurious.len = s.len := rfl
@[simp] theorem State.countSpurious_qbuilt : s.countSpurious.qbuilt = s.qbuilt := rfl
@[simp] theorem State.countSpurious_txeie : s.countSpurious.txeie = s.txeie := rfl
@[simp] theorem State.countSpurious_rxneie : s.countSpurious.rxneie = s.rxneie := rfl
@[simp] theorem State.countSpurious_rxne : s.countSpurious.rxne = s.rxne := rfl
@[simp] theorem State.countSpurious_txe : s.countSpurious.txe = s.txe := rfl
@[simp] theorem State.countSpurious_ore : s.countSpurious.ore = s.ore := rfl
@[simp] theorem State.countSpurious_rdr : s.countSpurious.rdr = s.rdr := rfl
@[simp] theorem State.countSpurious_tdr : s.countSpurious.tdr = s.tdr := rfl
@[simp] theorem State.countSpurious_unmasked : s.countSpurious.unmasked = s.unmasked := rfl
@[simp] theorem State.countSpurious_phase : s.countSpurious.phase = s.phase := rfl
@[simp] theorem State.countSpurious_owner : s.countSpurious.owner = s.owner := rfl
@[simp] theorem State.countSpurious_txLine : s.countSpurious.txLine = s.txLine := rfl
@[simp] theorem State.countSpurious_dropFull : s.countSpurious.dropFull = s.dropFull := rfl
@[simp] theorem State.countSpurious_dropOvr : s.countSpurious.dropOvr = s.dropOvr := rfl
@[simp] theorem State.countSpurious_spuriousTx : s.countSpurious.spuriousTx = s.spuriousTx + 1 := rfl
@[simp] theorem State.countSpurious_underflowCnt : s.countSpurious.underflowCnt = s.underflowCnt := rfl
@[simp] theorem State.countSpurious_txienCnt : s.countSpurious.txienCnt = s.txienCnt := rfl
@[simp] theorem State.countSpurious_txidisCnt : s.countSpurious.txidisCnt = s.txidisCnt := rfl
@[simp] theorem State.countSpurious_issuer : s.countSpurious.issuer = s.issuer := rfl
@[simp] theorem State.countSpurious_inbox : s.countSpurious.inbox = s.inbox := rfl
@[simp] theorem State.countSpurious_response : s.countSpurious.response = s.response := rfl
@[simp] theorem State.countSpurious_tick : s.countSpurious.tick = s.tick := rfl
@[simp] theorem State.countSpurious_evaluated : s.countSpurious.evaluated = s.evaluated := rfl

/-! ### loadRdr -/

@[simp] theorem State.loadRdr_slots (u : Datum) : (s.loadRdr u).slots = s.slots := rfl
@[simp] theorem State.loadRdr_head (u : Datum) : (s.loadRdr u).head = s.head := rfl
@[simp] theorem State.loadRdr_tail (u : Datum) : (s.loadRdr u).tail = s.tail := rfl
@[simp] theorem State.loadRdr_len (u : Datum) : (s.loadRdr u).len = s.len := rfl
@[simp] theorem State.loadRdr_qbuilt (u : Datum) : (s.loadRdr u).qbuilt = s.qbuilt := rfl
@[simp] theorem State.loadRdr_txeie (u : Datum) : (s.loadRdr u).txeie = s.txeie := rfl
@[simp] theorem State.loadRdr_rxneie (u : Datum) : (s.loadRdr u).rxneie = s.rxneie := rfl
@[simp] theorem State.loadRdr_rxne (u : Datum) : (s.loadRdr u).rxne = s.rxne := rfl
@[simp] theorem State.loadRdr_txe (u : Datum) : (s.loadRdr u).txe = s.txe := rfl
@[simp] theorem State.loadRdr_ore (u : Datum) : (s.loadRdr u).ore = s.ore := rfl
@[simp] theorem State.loadRdr_rdr (u : Datum) : (s.loadRdr u).rdr = u := rfl
@[simp] theorem State.loadRdr_tdr (u : Datum) : (s.loadRdr u).tdr = s.tdr := rfl
@[simp] theorem State.loadRdr_unmasked (u : Datum) : (s.loadRdr u).unmasked = s.unmasked := rfl
@[simp] theorem State.loadRdr_phase (u : Datum) : (s.loadRdr u).phase = s.phase := rfl
@[simp] theorem State.loadRdr_owner (u : Datum) : (s.loadRdr u).owner = s.owner := rfl
@[simp] theorem State.loadRdr_txLine (u : Datum) : (s.loadRdr u).txLine = s.txLine := rfl
@[simp] theorem State.loadRdr_dropFull (u : Datum) : (s.loadRdr u).dropFull = s.dropFull := rfl
@[simp] theorem State.loadRdr_dropOvr (u : Datum) : (s.loadRdr u).dropOvr = s.dropOvr := rfl
@[simp] theorem State.loadRdr_spuriousTx (u : Datum) : (s.loadRdr u).spuriousTx = s.spuriousTx := rfl
@[simp] theorem State.loadRdr_underflowCnt (u : Datum) : (s.loadRdr u).underflowCnt = s.underflowCnt := rfl
@[simp] theorem State.loadRdr_txienCnt (u : Datum) : (s.loadRdr u).txienCnt = s.txienCnt := rfl
@[simp] theorem State.loadRdr_txidisCnt (u : Datum) : (s.loadRdr u).txidisCnt = s.txidisCnt := rfl
@[simp] theorem State.loadRdr_issuer (u : Datum) : (s.loadRdr u).issuer = s.issuer := rfl
@[simp] theorem State.loadRdr_inbox (u : Datum) : (s.loadRdr u).inbox = s.inbox := rfl
@[simp] theorem State.loadRdr_response (u : Datum) : (s.loadRdr u).response = s.response := rfl
@[simp] theorem State.loadRdr_tick (u : Datum) : (s.loadRdr u).tick = s.tick := rfl
@[simp] theorem State.loadRdr_evaluated (u : Datum) : (s.loadRdr u).evaluated = s.evaluated := rfl

/-! ### loadTdr -/

@[simp] theorem State.loadTdr_slots (u : Datum) : (s.loadTdr u).slots = s.slots := rfl
@[simp] theorem State.loadTdr_head (u : Datum) : (s.loadTdr u).head = s.head := rfl
@[simp] theorem State.loadTdr_tail (u : Datum) : (s.loadTdr u).tail = s.tail := rfl
@[simp] theorem State.loadTdr_len (u : Datum) : (s.loadTdr u).len = s.len := rfl
@[simp] theorem State.loadTdr_qbuilt (u : Datum) : (s.loadTdr u).qbuilt = s.qbuilt := rfl
@[simp] theorem State.loadTdr_txeie (u : Datum) : (s.loadTdr u).txeie = s.txeie := rfl
@[simp] theorem State.loadTdr_rxneie (u : Datum) : (s.loadTdr u).rxneie = s.rxneie := rfl
@[simp] theorem State.loadTdr_rxne (u : Datum) : (s.loadTdr u).rxne = s.rxne := rfl
@[simp] theorem State.loadTdr_txe (u : Datum) : (s.loadTdr u).txe = s.txe := rfl
@[simp] theorem State.loadTdr_ore (u : Datum) : (s.loadTdr u).ore = s.ore := rfl
@[simp] theorem State.loadTdr_rdr (u : Datum) : (s.loadTdr u).rdr = s.rdr := rfl
@[simp] theorem State.loadTdr_tdr (u : Datum) : (s.loadTdr u).tdr = u := rfl
@[simp] theorem State.loadTdr_unmasked (u : Datum) : (s.loadTdr u).unmasked = s.unmasked := rfl
@[simp] theorem State.loadTdr_phase (u : Datum) : (s.loadTdr u).phase = s.phase := rfl
@[simp] theorem State.loadTdr_owner (u : Datum) : (s.loadTdr u).owner = s.owner := rfl
@[simp] theorem State.loadTdr_txLine (u : Datum) : (s.loadTdr u).txLine = s.txLine := rfl
@[simp] theorem State.loadTdr_dropFull (u : Datum) : (s.loadTdr u).dropFull = s.dropFull := rfl
@[simp] theorem State.loadTdr_dropOvr (u : Datum) : (s.loadTdr u).dropOvr = s.dropOvr := rfl
@[simp] theorem State.loadTdr_spuriousTx (u : Datum) : (s.loadTdr u).spuriousTx = s.spuriousTx := rfl
@[simp] theorem State.loadTdr_underflowCnt (u : Datum) : (s.loadTdr u).underflowCnt = s.underflowCnt := rfl
@[simp] theorem State.loadTdr_txienCnt (u : Datum) : (s.loadTdr u).txienCnt = s.txienCnt := rfl
@[simp] theorem State.loadTdr_txidisCnt (u : Datum) : (s.loadTdr u).txidisCnt = s.txidisCnt := rfl
@[simp] theorem State.loadTdr_issuer (u : Datum) : (s.loadTdr u).issuer = s.issuer := rfl
@[simp] theorem State.loadTdr_inbox (u : Datum) : (s.loadTdr u).inbox = s.inbox := rfl
@[simp] theorem State.loadTdr_response (u : Datum) : (s.loadTdr u).response = s.response := rfl
@[simp] theorem State.loadTdr_tick (u : Datum) : (s.loadTdr u).tick = s.tick := rfl
@[simp] theorem State.loadTdr_evaluated (u : Datum) : (s.loadTdr u).evaluated = s.evaluated := rfl

/-! ### emitTdr -/

@[simp] theorem State.emitTdr_slots : s.emitTdr.slots = s.slots := rfl
@[simp] theorem State.emitTdr_head : s.emitTdr.head = s.head := rfl
@[simp] theorem State.emitTdr_tail : s.emitTdr.tail = s.tail := rfl
@[simp] theorem State.emitTdr_len : s.emitTdr.len = s.len := rfl
@[simp] theorem State.emitTdr_qbuilt : s.emitTdr.qbuilt = s.qbuilt := rfl
@[simp] theorem State.emitTdr_txeie : s.emitTdr.txeie = s.txeie := rfl
@[simp] theorem State.emitTdr_rxneie : s.emitTdr.rxneie = s.rxneie := rfl
@[simp] theorem State.emitTdr_rxne : s.emitTdr.rxne = s.rxne := rfl
@[simp] theorem State.emitTdr_txe : s.emitTdr.txe = s.txe := rfl
@[simp] theorem State.emitTdr_ore : s.emitTdr.ore = s.ore := rfl
@[simp] theorem State.emitTdr_rdr : s.emitTdr.rdr = s.rdr := rfl
@[simp] theorem State.emitTdr_tdr : s.emitTdr.tdr = s.tdr := rfl
@[simp] theorem State.emitTdr_unmasked : s.emitTdr.unmasked = s.unmasked := rfl
@[simp] theorem State.emitTdr_phase : s.emitTdr.phase = s.phase := rfl
@[simp] theorem State.emitTdr_owner : s.emitTdr.owner = s.owner := rfl
@[simp] theorem State.emitTdr_txLine : s.emitTdr.txLine = s.txLine ++ [s.tdr] := rfl
@[simp] theorem State.emitTdr_dropFull : s.emitTdr.dropFull = s.dropFull := rfl
@[simp] theorem State.emitTdr_dropOvr : s.emitTdr.dropOvr = s.dropOvr := rfl
@[simp] theorem State.emitTdr_spuriousTx : s.emitTdr.spuriousTx = s.spuriousTx := rfl
@[simp] theorem State.emitTdr_underflowCnt : s.emitTdr.underflowCnt = s.underflowCnt := rfl
@[simp] theorem State.emitTdr_txienCnt : s.emitTdr.txienCnt = s.txienCnt := rfl
@[simp] theorem State.emitTdr_txidisCnt : s.emitTdr.txidisCnt = s.txidisCnt := rfl
@[simp] theorem State.emitTdr_issuer : s.emitTdr.issuer = s.issuer := rfl
@[simp] theorem State.emitTdr_inbox : s.emitTdr.inbox = s.inbox := rfl
@[simp] theorem State.emitTdr_response : s.emitTdr.response = s.response := rfl
@[simp] theorem State.emitTdr_tick : s.emitTdr.tick = s.tick := rfl
@[simp] theorem State.emitTdr_evaluated : s.emitTdr.evaluated = s.evaluated := rfl

/-! ### buildQueue -/

@[simp] theorem State.buildQueue_slots : s.buildQueue.slots = s.slots := rfl
@[simp] theorem State.buildQueue_head : s.buildQueue.head = 0 := rfl
@[simp] theorem State.buildQueue_tail : s.buildQueue.tail = 0 := rfl
@[simp] theorem State.buildQueue_len : s.buildQueue.len = 0 := rfl
@[simp] theorem State.buildQueue_qbuilt : s.buildQueue.qbuilt = true := rfl
@[simp] theorem State.buildQueue_txeie : s.buildQueue.txeie = s.txeie := rfl
@[simp] theorem State.buildQueue_rxneie : s.buildQueue.rxneie = s.rxneie := rfl
@[simp] theorem State.buildQueue_rxne : s.buildQueue.rxne = s.rxne := rfl
@[simp] theorem State.buildQueue_txe : s.buildQueue.txe = s.txe := rfl
@[simp] theorem State.buildQueue_ore : s.buildQueue.ore = s.ore := rfl
@[simp] theorem State.buildQueue_rdr : s.buildQueue.rdr = s.rdr := rfl
@[simp] theorem State.buildQueue_tdr : s.buildQueue.tdr = s.tdr := rfl
@[simp] theorem State.buildQueue_unmasked : s.buildQueue.unmasked = s.unmasked := rfl
@[simp] theorem State.buildQueue_phase : s.buildQueue.phase = s.phase := rfl
@[simp] theorem State.buildQueue_owner : s.buildQueue.owner = s.owner := rfl
@[simp] theorem State.buildQueue_txLine : s.buildQueue.txLine = s.txLine := rfl
@[simp] theorem State.buildQueue_dropFull : s.buildQueue.dropFull = s.dropFull := rfl
@[simp] theorem State.buildQueue_dropOvr : s.buildQueue.dropOvr = s.dropOvr := rfl
@[simp] theorem State.buildQueue_spuriousTx : s.buildQueue.spuriousTx = s.spuriousTx := rfl
@[simp] theorem State.buildQueue_underflowCnt : s.buildQueue.underflowCnt = s.underflowCnt := rfl
@[simp] theorem State.buildQueue_txienCnt : s.buildQueue.txienCnt = s.txienCnt := rfl
@[simp] theorem State.buildQueue_txidisCnt : s.buildQueue.txidisCnt = s.txidisCnt := rfl
@[simp] theorem State.buildQueue_issuer : s.buildQueue.issuer = s.issuer := rfl
@[simp] theorem State.buildQueue_inbox : s.buildQueue.inbox = s.inbox := rfl
@[simp] theorem State.buildQueue_response : s.buildQueue.response = s.response := rfl
@[simp] theorem State.buildQueue_tick : s.buildQueue.tick = s.tick := rfl
@[simp] theorem State.buildQueue_evaluated : s.buildQueue.evaluated = s.evaluated := rfl

/-! ### giveToIsr -/

@[simp] theorem State.giveToIsr_slots : s.giveToIsr.slots = s.slots := rfl
@[simp] theorem State.giveToIsr_head : s.giveToIsr.head = s.head := rfl
@[simp] theorem State.giveToIsr_tail : s.giveToIsr.tail = s.tail := rfl
@[simp] theorem State.giveToIsr_len : s.giveToIsr.len = s.len := rfl
@[simp] theorem State.giveToIsr_qbuilt : s.giveToIsr.qbuilt = s.qbuilt := rfl
@[simp] theorem State.giveToIsr_txeie : s.giveToIsr.txeie = s.txeie := rfl
@[simp] theorem State.giveToIsr_rxneie : s.giveToIsr.rxneie = s.rxneie := rfl
@[simp] theorem State.giveToIsr_rxne : s.giveToIsr.rxne = s.rxne := rfl
@[simp] theorem State.giveToIsr_txe : s.giveToIsr.txe = s.txe := rfl
@[simp] theorem State.giveToIsr_ore : s.giveToIsr.ore = s.ore := rfl
@[simp] theorem State.giveToIsr_rdr : s.giveToIsr.rdr = s.rdr := rfl
@[simp] theorem State.giveToIsr_tdr : s.giveToIsr.tdr = s.tdr := rfl
@[simp] theorem State.giveToIsr_unmasked : s.giveToIsr.unmasked = s.unmasked := rfl
@[simp] theorem State.giveToIsr_phase : s.giveToIsr.phase = s.phase := rfl
@[simp] theorem State.giveToIsr_owner : s.giveToIsr.owner = .isr := rfl
@[simp] theorem State.giveToIsr_txLine : s.giveToIsr.txLine = s.txLine := rfl
@[simp] theorem State.giveToIsr_dropFull : s.giveToIsr.dropFull = s.dropFull := rfl
@[simp] theorem State.giveToIsr_dropOvr : s.giveToIsr.dropOvr = s.dropOvr := rfl
@[simp] theorem State.giveToIsr_spuriousTx : s.giveToIsr.spuriousTx = s.spuriousTx := rfl
@[simp] theorem State.giveToIsr_underflowCnt : s.giveToIsr.underflowCnt = s.underflowCnt := rfl
@[simp] theorem State.giveToIsr_txienCnt : s.giveToIsr.txienCnt = s.txienCnt := rfl
@[simp] theorem State.giveToIsr_txidisCnt : s.giveToIsr.txidisCnt = s.txidisCnt := rfl
@[simp] theorem State.giveToIsr_issuer : s.giveToIsr.issuer = s.issuer := rfl
@[simp] theorem State.giveToIsr_inbox : s.giveToIsr.inbox = s.inbox := rfl
@[simp] theorem State.giveToIsr_response : s.giveToIsr.response = s.response := rfl
@[simp] theorem State.giveToIsr_tick : s.giveToIsr.tick = s.tick := rfl
@[simp] theorem State.giveToIsr_evaluated : s.giveToIsr.evaluated = s.evaluated := rfl

/-! ### setUnmasked -/

@[simp] theorem State.setUnmasked_slots : s.setUnmasked.slots = s.slots := rfl
@[simp] theorem State.setUnmasked_head : s.setUnmasked.head = s.head := rfl
@[simp] theorem State.setUnmasked_tail : s.setUnmasked.tail = s.tail := rfl
@[simp] theorem State.setUnmasked_len : s.setUnmasked.len = s.len := rfl
@[simp] theorem State.setUnmasked_qbuilt : s.setUnmasked.qbuilt = s.qbuilt := rfl
@[simp] theorem State.setUnmasked_txeie : s.setUnmasked.txeie = s.txeie := rfl
@[simp] theorem State.setUnmasked_rxneie : s.setUnmasked.rxneie = s.rxneie := rfl
@[simp] theorem State.setUnmasked_rxne : s.setUnmasked.rxne = s.rxne := rfl
@[simp] theorem State.setUnmasked_txe : s.setUnmasked.txe = s.txe := rfl
@[simp] theorem State.setUnmasked_ore : s.setUnmasked.ore = s.ore := rfl
@[simp] theorem State.setUnmasked_rdr : s.setUnmasked.rdr = s.rdr := rfl
@[simp] theorem State.setUnmasked_tdr : s.setUnmasked.tdr = s.tdr := rfl
@[simp] theorem State.setUnmasked_unmasked : s.setUnmasked.unmasked = true := rfl
@[simp] theorem State.setUnmasked_phase : s.setUnmasked.phase = s.phase := rfl
@[simp] theorem State.setUnmasked_owner : s.setUnmasked.owner = s.owner := rfl
@[simp] theorem State.setUnmasked_txLine : s.setUnmasked.txLine = s.txLine := rfl
@[simp] theorem State.setUnmasked_dropFull : s.setUnmasked.dropFull = s.dropFull := rfl
@[simp] theorem State.setUnmasked_dropOvr : s.setUnmasked.dropOvr = s.dropOvr := rfl
@[simp] theorem State.setUnmasked_spuriousTx : s.setUnmasked.spuriousTx = s.spuriousTx := rfl
@[simp] theorem State.setUnmasked_underflowCnt : s.setUnmasked.underflowCnt = s.underflowCnt := rfl
@[simp] theorem State.setUnmasked_txienCnt : s.setUnmasked.txienCnt = s.txienCnt := rfl
@[simp] theorem State.setUnmasked_txidisCnt : s.setUnmasked.txidisCnt = s.txidisCnt := rfl
@[simp] theorem State.setUnmasked_issuer : s.setUnmasked.issuer = s.issuer := rfl
@[simp] theorem State.setUnmasked_inbox : s.setUnmasked.inbox = s.inbox := rfl
@[simp] theorem State.setUnmasked_response : s.setUnmasked.response = s.response := rfl
@[simp] theorem State.setUnmasked_tick : s.setUnmasked.tick = s.tick := rfl
@[simp] theorem State.setUnmasked_evaluated : s.setUnmasked.evaluated = s.evaluated := rfl

/-! ### setPhase -/

@[simp] theorem State.setPhase_slots (p : Phase) : (s.setPhase p).slots = s.slots := rfl
@[simp] theorem State.setPhase_head (p : Phase) : (s.setPhase p).head = s.head := rfl
@[simp] theorem State.setPhase_tail (p : Phase) : (s.setPhase p).tail = s.tail := rfl
@[simp] theorem State.setPhase_len (p : Phase) : (s.setPhase p).len = s.len := rfl
@[simp] theorem State.setPhase_qbuilt (p : Phase) : (s.setPhase p).qbuilt = s.qbuilt := rfl
@[simp] theorem State.setPhase_txeie (p : Phase) : (s.setPhase p).txeie = s.txeie := rfl
@[simp] theorem State.setPhase_rxneie (p : Phase) : (s.setPhase p).rxneie = s.rxneie := rfl
@[simp] theorem State.setPhase_rxne (p : Phase) : (s.setPhase p).rxne = s.rxne := rfl
@[simp] theorem State.setPhase_txe (p : Phase) : (s.setPhase p).txe = s.txe := rfl
@[simp] theorem State.setPhase_ore (p : Phase) : (s.setPhase p).ore = s.ore := rfl
@[simp] theorem State.setPhase_rdr (p : Phase) : (s.setPhase p).rdr = s.rdr := rfl
@[simp] theorem State.setPhase_tdr (p : Phase) : (s.setPhase p).tdr = s.tdr := rfl
@[simp] theorem State.setPhase_unmasked (p : Phase) : (s.setPhase p).unmasked = s.unmasked := rfl
@[simp] theorem State.setPhase_phase (p : Phase) : (s.setPhase p).phase = p := rfl
@[simp] theorem State.setPhase_owner (p : Phase) : (s.setPhase p).owner = s.owner := rfl
@[simp] theorem State.setPhase_txLine (p : Phase) : (s.setPhase p).txLine = s.txLine := rfl
@[simp] theorem State.setPhase_dropFull (p : Phase) : (s.setPhase p).dropFull = s.dropFull := rfl
@[simp] theorem State.setPhase_dropOvr (p : Phase) : (s.setPhase p).dropOvr = s.dropOvr := rfl
@[simp] theorem State.setPhase_spuriousTx (p : Phase) : (s.setPhase p).spuriousTx = s.spuriousTx := rfl
@[simp] theorem State.setPhase_underflowCnt (p : Phase) : (s.setPhase p).underflowCnt = s.underflowCnt := rfl
@[simp] theorem State.setPhase_txienCnt (p : Phase) : (s.setPhase p).txienCnt = s.txienCnt := rfl
@[simp] theorem State.setPhase_txidisCnt (p : Phase) : (s.setPhase p).txidisCnt = s.txidisCnt := rfl
@[simp] theorem State.setPhase_issuer (p : Phase) : (s.setPhase p).issuer = s.issuer := rfl
@[simp] theorem State.setPhase_inbox (p : Phase) : (s.setPhase p).inbox = s.inbox := rfl
@[simp] theorem State.setPhase_response (p : Phase) : (s.setPhase p).response = s.response := rfl
@[simp] theorem State.setPhase_tick (p : Phase) : (s.setPhase p).tick = s.tick := rfl
@[simp] theorem State.setPhase_evaluated (p : Phase) : (s.setPhase p).evaluated = s.evaluated := rfl

/-! ### respond -/

@[simp] theorem State.respond_slots (r : Result) : (s.respond r).slots = s.slots := rfl
@[simp] theorem State.respond_head (r : Result) : (s.respond r).head = s.head := rfl
@[simp] theorem State.respond_tail (r : Result) : (s.respond r).tail = s.tail := rfl
@[simp] theorem State.respond_len (r : Result) : (s.respond r).len = s.len := rfl
@[simp] theorem State.respond_qbuilt (r : Result) : (s.respond r).qbuilt = s.qbuilt := rfl
@[simp] theorem State.respond_txeie (r : Result) : (s.respond r).txeie = s.txeie := rfl
@[simp] theorem State.respond_rxneie (r : Result) : (s.respond r).rxneie = s.rxneie := rfl
@[simp] theorem State.respond_rxne (r : Result) : (s.respond r).rxne = s.rxne := rfl
@[simp] theorem State.respond_txe (r : Result) : (s.respond r).txe = s.txe := rfl
@[simp] theorem State.respond_ore (r : Result) : (s.respond r).ore = s.ore := rfl
@[simp] theorem State.respond_rdr (r : Result) : (s.respond r).rdr = s.rdr := rfl
@[simp] theorem State.respond_tdr (r : Result) : (s.respond r).tdr = s.tdr := rfl
@[simp] theorem State.respond_unmasked (r : Result) : (s.respond r).unmasked = s.unmasked := rfl
@[simp] theorem State.respond_phase (r : Result) : (s.respond r).phase = s.phase := rfl
@[simp] theorem State.respond_owner (r : Result) : (s.respond r).owner = s.owner := rfl
@[simp] theorem State.respond_txLine (r : Result) : (s.respond r).txLine = s.txLine := rfl
@[simp] theorem State.respond_dropFull (r : Result) : (s.respond r).dropFull = s.dropFull := rfl
@[simp] theorem State.respond_dropOvr (r : Result) : (s.respond r).dropOvr = s.dropOvr := rfl
@[simp] theorem State.respond_spuriousTx (r : Result) : (s.respond r).spuriousTx = s.spuriousTx := rfl
@[simp] theorem State.respond_underflowCnt (r : Result) : (s.respond r).underflowCnt = s.underflowCnt := rfl
@[simp] theorem State.respond_txienCnt (r : Result) : (s.respond r).txienCnt = s.txienCnt := rfl
@[simp] theorem State.respond_txidisCnt (r : Result) : (s.respond r).txidisCnt = s.txidisCnt := rfl
@[simp] theorem State.respond_issuer (r : Result) : (s.respond r).issuer = s.issuer := rfl
@[simp] theorem State.respond_inbox (r : Result) : (s.respond r).inbox = s.inbox := rfl
@[simp] theorem State.respond_response (r : Result) : (s.respond r).response = some (encodeResult r) := rfl
@[simp] theorem State.respond_tick (r : Result) : (s.respond r).tick = s.tick := rfl
@[simp] theorem State.respond_evaluated (r : Result) : (s.respond r).evaluated = s.evaluated := rfl

/-! ### keepEvaluation -/

@[simp] theorem State.keepEvaluation_slots : s.keepEvaluation.slots = s.slots := rfl
@[simp] theorem State.keepEvaluation_head : s.keepEvaluation.head = s.head := rfl
@[simp] theorem State.keepEvaluation_tail : s.keepEvaluation.tail = s.tail := rfl
@[simp] theorem State.keepEvaluation_len : s.keepEvaluation.len = s.len := rfl
@[simp] theorem State.keepEvaluation_qbuilt : s.keepEvaluation.qbuilt = s.qbuilt := rfl
@[simp] theorem State.keepEvaluation_txeie : s.keepEvaluation.txeie = s.txeie := rfl
@[simp] theorem State.keepEvaluation_rxneie : s.keepEvaluation.rxneie = s.rxneie := rfl
@[simp] theorem State.keepEvaluation_rxne : s.keepEvaluation.rxne = s.rxne := rfl
@[simp] theorem State.keepEvaluation_txe : s.keepEvaluation.txe = s.txe := rfl
@[simp] theorem State.keepEvaluation_ore : s.keepEvaluation.ore = s.ore := rfl
@[simp] theorem State.keepEvaluation_rdr : s.keepEvaluation.rdr = s.rdr := rfl
@[simp] theorem State.keepEvaluation_tdr : s.keepEvaluation.tdr = s.tdr := rfl
@[simp] theorem State.keepEvaluation_unmasked : s.keepEvaluation.unmasked = s.unmasked := rfl
@[simp] theorem State.keepEvaluation_phase : s.keepEvaluation.phase = s.phase := rfl
@[simp] theorem State.keepEvaluation_owner : s.keepEvaluation.owner = s.owner := rfl
@[simp] theorem State.keepEvaluation_txLine : s.keepEvaluation.txLine = s.txLine := rfl
@[simp] theorem State.keepEvaluation_dropFull : s.keepEvaluation.dropFull = s.dropFull := rfl
@[simp] theorem State.keepEvaluation_dropOvr : s.keepEvaluation.dropOvr = s.dropOvr := rfl
@[simp] theorem State.keepEvaluation_spuriousTx : s.keepEvaluation.spuriousTx = s.spuriousTx := rfl
@[simp] theorem State.keepEvaluation_underflowCnt : s.keepEvaluation.underflowCnt = s.underflowCnt := rfl
@[simp] theorem State.keepEvaluation_txienCnt : s.keepEvaluation.txienCnt = s.txienCnt := rfl
@[simp] theorem State.keepEvaluation_txidisCnt : s.keepEvaluation.txidisCnt = s.txidisCnt := rfl
@[simp] theorem State.keepEvaluation_issuer : s.keepEvaluation.issuer = s.issuer := rfl
@[simp] theorem State.keepEvaluation_inbox : s.keepEvaluation.inbox = s.inbox := rfl
@[simp] theorem State.keepEvaluation_response : s.keepEvaluation.response = s.response := rfl
@[simp] theorem State.keepEvaluation_evaluated : s.keepEvaluation.evaluated = s.evaluated ++ s.response.toList := rfl
@[simp] theorem State.keepEvaluation_tick : s.keepEvaluation.tick = s.tick := rfl

/-! ### pushTail -/

@[simp] theorem pushTail_slots (u : Datum) : (pushTail u s).slots = s.slots.set (slotOf s.tail) u (slotOf s.tail).isLt := rfl
@[simp] theorem pushTail_head (u : Datum) : (pushTail u s).head = s.head := rfl
@[simp] theorem pushTail_tail (u : Datum) : (pushTail u s).tail = nextIndex s.tail := rfl
@[simp] theorem pushTail_len (u : Datum) : (pushTail u s).len = s.len + 1 := rfl
@[simp] theorem pushTail_qbuilt (u : Datum) : (pushTail u s).qbuilt = s.qbuilt := rfl
@[simp] theorem pushTail_txeie (u : Datum) : (pushTail u s).txeie = s.txeie := rfl
@[simp] theorem pushTail_rxneie (u : Datum) : (pushTail u s).rxneie = s.rxneie := rfl
@[simp] theorem pushTail_rxne (u : Datum) : (pushTail u s).rxne = s.rxne := rfl
@[simp] theorem pushTail_txe (u : Datum) : (pushTail u s).txe = s.txe := rfl
@[simp] theorem pushTail_ore (u : Datum) : (pushTail u s).ore = s.ore := rfl
@[simp] theorem pushTail_rdr (u : Datum) : (pushTail u s).rdr = s.rdr := rfl
@[simp] theorem pushTail_tdr (u : Datum) : (pushTail u s).tdr = s.tdr := rfl
@[simp] theorem pushTail_unmasked (u : Datum) : (pushTail u s).unmasked = s.unmasked := rfl
@[simp] theorem pushTail_phase (u : Datum) : (pushTail u s).phase = s.phase := rfl
@[simp] theorem pushTail_owner (u : Datum) : (pushTail u s).owner = s.owner := rfl
@[simp] theorem pushTail_txLine (u : Datum) : (pushTail u s).txLine = s.txLine := rfl
@[simp] theorem pushTail_dropFull (u : Datum) : (pushTail u s).dropFull = s.dropFull := rfl
@[simp] theorem pushTail_dropOvr (u : Datum) : (pushTail u s).dropOvr = s.dropOvr := rfl
@[simp] theorem pushTail_spuriousTx (u : Datum) : (pushTail u s).spuriousTx = s.spuriousTx := rfl
@[simp] theorem pushTail_underflowCnt (u : Datum) : (pushTail u s).underflowCnt = s.underflowCnt := rfl
@[simp] theorem pushTail_txienCnt (u : Datum) : (pushTail u s).txienCnt = s.txienCnt := rfl
@[simp] theorem pushTail_txidisCnt (u : Datum) : (pushTail u s).txidisCnt = s.txidisCnt := rfl
@[simp] theorem pushTail_issuer (u : Datum) : (pushTail u s).issuer = s.issuer := rfl
@[simp] theorem pushTail_inbox (u : Datum) : (pushTail u s).inbox = s.inbox := rfl
@[simp] theorem pushTail_response (u : Datum) : (pushTail u s).response = s.response := rfl
@[simp] theorem pushTail_tick (u : Datum) : (pushTail u s).tick = s.tick := rfl
@[simp] theorem pushTail_evaluated (u : Datum) : (pushTail u s).evaluated = s.evaluated := rfl

/-! ### popHead -/

@[simp] theorem popHead_slots : (popHead s).slots = s.slots := rfl
@[simp] theorem popHead_head : (popHead s).head = nextIndex s.head := rfl
@[simp] theorem popHead_tail : (popHead s).tail = s.tail := rfl
@[simp] theorem popHead_len : (popHead s).len = s.len - 1 := rfl
@[simp] theorem popHead_qbuilt : (popHead s).qbuilt = s.qbuilt := rfl
@[simp] theorem popHead_txeie : (popHead s).txeie = s.txeie := rfl
@[simp] theorem popHead_rxneie : (popHead s).rxneie = s.rxneie := rfl
@[simp] theorem popHead_rxne : (popHead s).rxne = s.rxne := rfl
@[simp] theorem popHead_txe : (popHead s).txe = s.txe := rfl
@[simp] theorem popHead_ore : (popHead s).ore = s.ore := rfl
@[simp] theorem popHead_rdr : (popHead s).rdr = s.rdr := rfl
@[simp] theorem popHead_tdr : (popHead s).tdr = s.tdr := rfl
@[simp] theorem popHead_unmasked : (popHead s).unmasked = s.unmasked := rfl
@[simp] theorem popHead_phase : (popHead s).phase = s.phase := rfl
@[simp] theorem popHead_owner : (popHead s).owner = s.owner := rfl
@[simp] theorem popHead_txLine : (popHead s).txLine = s.txLine := rfl
@[simp] theorem popHead_dropFull : (popHead s).dropFull = s.dropFull := rfl
@[simp] theorem popHead_dropOvr : (popHead s).dropOvr = s.dropOvr := rfl
@[simp] theorem popHead_spuriousTx : (popHead s).spuriousTx = s.spuriousTx := rfl
@[simp] theorem popHead_underflowCnt : (popHead s).underflowCnt = s.underflowCnt := rfl
@[simp] theorem popHead_txienCnt : (popHead s).txienCnt = s.txienCnt := rfl
@[simp] theorem popHead_txidisCnt : (popHead s).txidisCnt = s.txidisCnt := rfl
@[simp] theorem popHead_issuer : (popHead s).issuer = s.issuer := rfl
@[simp] theorem popHead_inbox : (popHead s).inbox = s.inbox := rfl
@[simp] theorem popHead_response : (popHead s).response = s.response := rfl
@[simp] theorem popHead_tick : (popHead s).tick = s.tick := rfl
@[simp] theorem popHead_evaluated : (popHead s).evaluated = s.evaluated := rfl

end Sys2Proof.Machine
end

