-- ==== Sys2Proof/Laws/Ops.lean ====
section
/-! SUPPORT. Once for each shared operation, everything it can do: admission, settling, the bare operations, the two
service bodies; and from them what each meaning does when it answers a next state. -/

namespace Sys2Proof.Machine

/-! ### Outcomes -/

theorem except_map_ok {α β : Type} {f : α → β} {x : Except Stop α} {b : β} :
    x.map f = .ok b ↔ ∃ a, x = .ok a ∧ b = f a := by
  cases x <;> simp [Except.map, eq_comm (a := b)]

theorem except_bind_ok {α β : Type} {f : α → Except Stop β} {x : Except Stop α} {b : β} :
    x.bind f = .ok b ↔ ∃ a, x = .ok a ∧ f a = .ok b := by
  cases x <;> simp [Except.bind]

theorem settle_next {x : Except Stop (Result × State)} {t : State} :
    settle x = .next t ↔ ∃ r s, x = .ok (r, s) ∧ t = s.respond r := by
  rcases x with (f | r) | ⟨r, s⟩ <;> simp [settle, eq_comm (a := t)]

theorem perform_of_admitted {k : OpClass} {s : State} (h : admission k s = none) (x : Except Stop (Result × State)) :
    perform k s x = settle x := by
  simp [perform, h]

theorem perform_of_refused {k : OpClass} {s : State} {r : Refusal} (h : admission k s = some r)
    (x : Except Stop (Result × State)) : perform k s x = .refused r := by
  simp [perform, h]

theorem perform_next {k : OpClass} {s t : State} {x : Except Stop (Result × State)} :
    perform k s x = .next t ↔ admission k s = none ∧ ∃ r u, x = .ok (r, u) ∧ t = u.respond r := by
  unfold perform
  cases admission k s <;> simp [settle_next]

theorem perform_ok_next {k : OpClass} {s t u : State} {r : Result} :
    perform k s (.ok (r, u)) = .next t ↔ admission k s = none ∧ t = u.respond r := by
  rw [perform_next]
  constructor
  · rintro ⟨ha, r', u', h, rfl⟩
    cases h
    exact ⟨ha, rfl⟩
  · rintro ⟨ha, rfl⟩
    exact ⟨ha, r, u, rfl, rfl⟩

theorem perform_map_next {α : Type} {k : OpClass} {s t : State} {x : Except Stop α} {f : α → Result × State} :
    perform k s (x.map f) = .next t ↔ admission k s = none ∧ ∃ a, x = .ok a ∧ t = (f a).2.respond (f a).1 := by
  rcases x with e | a
  · simp [perform_next, Except.map]
  · simpa [Except.map] using perform_ok_next (r := (f a).1) (u := (f a).2)

theorem perform_fault {k : OpClass} {s : State} {x : Except Stop (Result × State)} {f : Fault} :
    perform k s x = .fault f ↔ admission k s = none ∧ x = .error (.fault f) := by
  unfold perform
  cases admission k s with
  | some r => simp
  | none => rcases x with (f' | r') | ⟨r', u⟩ <;> simp [settle]

theorem whenEnabled_ok {c : Bool} {x : Except Stop (Result × State)} {p : Result × State} :
    whenEnabled c x = .ok p ↔ c = true ∧ x = .ok p := by
  cases c <;> simp [whenEnabled]

theorem whenBuilt_ok {α : Type} {s : State} {x p : α} : whenBuilt s x = .ok p ↔ s.qbuilt = true ∧ p = x := by
  cases h : s.qbuilt <;> simp [whenBuilt, h, eq_comm (a := p)]

/-! ### Bare operations -/

theorem opRdu_ok {s : State} {p : Datum × State} :
    opRdu s = .ok p ↔ s.rxne = true ∧ p = (s.rdr, s.clearRxne) := by
  cases h : s.rxne <;> simp [opRdu, h, eq_comm (a := p)]

theorem opWru_ok {u : Datum} {s t : State} :
    opWru u s = .ok t ↔ s.txe = true ∧ t = (s.loadTdr u).clearTxe := by
  cases h : s.txe <;> simp [opWru, h, eq_comm (a := t)]

theorem opQnew_ok {s t : State} : opQnew s = .ok t ↔ s.qbuilt = false ∧ t = s.buildQueue := by
  cases h : s.qbuilt <;> simp [opQnew, h, eq_comm (a := t)]

theorem opEnq_ok {u : Datum} {s : State} {p : EnqResult × State} :
    opEnq u s = .ok p ↔ s.qbuilt = true ∧ p = if s.queueFull then (.full, s) else (.ok, pushTail u s) :=
  whenBuilt_ok

theorem opDeq_ok {s : State} {p : Option Datum × State} :
    opDeq s = .ok p ↔
      s.qbuilt = true ∧ p = if s.queueEmpty then (none, s) else (some (memRead s s.head), popHead s) :=
  whenBuilt_ok

theorem opQempty_ok {s : State} {b : Bool} : opQempty s = .ok b ↔ s.qbuilt = true ∧ b = s.queueEmpty := whenBuilt_ok

theorem opQlen_ok {s : State} {n : Len} : opQlen s = .ok n ↔ s.qbuilt = true ∧ n = s.len := whenBuilt_ok

theorem opHandoff_ok {s t : State} :
    opHandoff s = .ok t ↔ s.owner = .init ∧ s.qbuilt = true ∧ t = s.giveToIsr := by
  cases ho : s.owner <;> cases hq : s.qbuilt <;> simp [opHandoff, ho, hq, eq_comm (a := t)]

theorem enterService_ok {s t : State} : enterService s = .ok t ↔ s.owner = .isr ∧ t = s.setPhase .tx := by
  cases h : s.owner <;> simp [enterService, h, eq_comm (a := t)]

/-- Under the policy wrap the transform is the modular subtraction and never faults (R141). -/
theorem opXform_wrap (h : Config.xformLow = .wrap) (u : Datum) : opXform u = .ok (u - 32#16) := by
  have key : xformUnder .wrap u = some (u - 32#16) := by
    have hu : u.toNat < 65536 := u.isLt
    have h32 : (32#16 : Datum).toNat = 32 := rfl
    unfold xformUnder
    split <;> refine congrArg some (BitVec.eq_of_toNat_eq ?_) <;>
      simp only [BitVec.toNat_ofNat, BitVec.toNat_sub, Config.unitW, Config.xformOffset, h32] at * <;> omega
  simp [opXform, h, key]

/-- A unit of 32 or more is transformed the same under every policy (R141). -/
theorem opXform_above {u : Datum} (h : 32 ≤ u.toNat) : opXform u = .ok (u - 32#16) := by
  have hu : u.toNat < 65536 := u.isLt
  have h32 : (32#16 : Datum).toNat = 32 := rfl
  have key : xformUnder Config.xformLow u = some (u - 32#16) := by
    unfold xformUnder
    rw [if_pos h]
    refine congrArg some (BitVec.eq_of_toNat_eq ?_)
    simp only [BitVec.toNat_ofNat, BitVec.toNat_sub, Config.unitW, Config.xformOffset, h32]
    omega
  simp [opXform, key]

/-! ### The service bodies -/

/-- Everything SVCTX's body can do when it completes (R143). -/
theorem serviceTx_ok {s t : State} : serviceTx s = .ok t ↔
    (s.txe = false ∧ t = s) ∨
    (s.txe = true ∧ s.qbuilt = true ∧ s.queueEmpty = true ∧ t = s.disableTx.countSpurious) ∨
    (s.txe = true ∧ s.qbuilt = true ∧ s.queueEmpty = false ∧
      t = if (popHead s).queueEmpty then (((popHead s).loadTdr (memRead s s.head)).clearTxe).disableTx
        else ((popHead s).loadTdr (memRead s s.head)).clearTxe) := by
  cases htx : s.txe with
  | false => simp [serviceTx, opTxrdy, htx, eq_comm (a := t)]
  | true =>
    cases hb : s.qbuilt with
    | false => simp [serviceTx, opTxrdy, htx, opDeq, whenBuilt, hb, Except.bind]
    | true =>
      cases he : s.queueEmpty with
      | true => simp [serviceTx, opTxrdy, htx, opDeq, whenBuilt, hb, he, Except.bind, opTxidis, eq_comm (a := t)]
      | false =>
        have h1 : ((popHead s).loadTdr (memRead s s.head)).clearTxe.queueEmpty = (popHead s).queueEmpty := rfl
        simp [serviceTx, opTxrdy, htx, opDeq, whenBuilt, hb, he, Except.bind, Except.map, opWru, opQempty, opTxidis,
          h1, eq_comm (a := t)]

/-- The state SVCRX enqueues from: the unit read, and counted if below 32 (R144). -/
def afterRead (s : State) : State := s.clearRxne.countUnderflow s.rdr

/-- Reading a unit changes RXNE and at most one ghost counter. -/
theorem afterRead_eq (s : State) : afterRead s = { s with
    rxne := false
    underflowCnt := s.underflowCnt + if s.rdr.toNat < Config.xformOffset then 1 else 0 } := by
  by_cases h : s.rdr.toNat < Config.xformOffset <;> simp [afterRead, State.countUnderflow, h, State.clearRxne]

/-- Everything SVCRX's body can do when it completes (R144). -/
theorem serviceRx_ok {s t : State} : serviceRx s = .ok t ↔
    (s.rxne = false ∧ t = s) ∨
    (s.rxne = true ∧ s.qbuilt = true ∧ s.queueFull = true ∧ (∃ d, opXform s.rdr = .ok d) ∧
      t = (afterRead s).countDropFull) ∨
    (s.rxne = true ∧ s.qbuilt = true ∧ s.queueFull = false ∧ ∃ d, opXform s.rdr = .ok d ∧
      t = if s.queueEmpty then (pushTail d (afterRead s)).enableTx else pushTail d (afterRead s)) := by
  cases hrx : s.rxne with
  | false => simp [serviceRx, opRxrdy, hrx, eq_comm (a := t)]
  | true =>
    cases hx : opXform s.rdr with
    | error e => simp [serviceRx, opRxrdy, hrx, opRdu, Except.bind, hx]
    | ok d =>
      have hb : (s.clearRxne.countUnderflow s.rdr).qbuilt = s.qbuilt := by
        unfold State.countUnderflow; split <;> rfl
      have he : (s.clearRxne.countUnderflow s.rdr).queueEmpty = s.queueEmpty := by
        unfold State.countUnderflow; split <;> rfl
      have hf : (s.clearRxne.countUnderflow s.rdr).queueFull = s.queueFull := by
        unfold State.countUnderflow; split <;> rfl
      cases hbb : s.qbuilt with
      | false =>
        simp [serviceRx, opRxrdy, hrx, opRdu, Except.bind, hx, opQempty, whenBuilt, hb, hbb]
      | true =>
        cases hff : s.queueFull <;>
        simp [serviceRx, opRxrdy, hrx, opRdu, Except.bind, Except.map, hx, opQempty, opEnq, whenBuilt, hb, hbb, he,
          hf, hff, afterRead, opTxien, eq_comm (a := t)]

/-! ### The meanings: when each answers a next state, and which -/

theorem execRxrdy_next {s t : State} :
    execRxrdy s = .next t ↔ admission .handle s = none ∧ t = s.respond (.bool s.rxne) :=
  perform_ok_next

theorem execTxrdy_next {s t : State} :
    execTxrdy s = .next t ↔ admission .handle s = none ∧ t = s.respond (.bool s.txe) :=
  perform_ok_next

theorem execOvr_next {s t : State} :
    execOvr s = .next t ↔ admission .handle s = none ∧ t = s.respond (.bool s.ore) :=
  perform_ok_next

theorem execRdu_next {s t : State} : execRdu s = .next t ↔
    admission .handle s = none ∧ s.rxne = true ∧ t = s.clearRxne.respond (.datum s.rdr) := by
  rw [execRdu, perform_map_next]
  simp [opRdu_ok, and_assoc]

theorem execWru_next {u : Datum} {s t : State} : execWru u s = .next t ↔
    admission .handle s = none ∧ s.txe = true ∧ t = (s.loadTdr u).clearTxe.respond .nothing := by
  rw [execWru, perform_map_next]
  simp [opWru_ok, and_assoc]

theorem execClrovr_next {s t : State} :
    execClrovr s = .next t ↔ admission .handle s = none ∧ t = s.clearOre.respond .nothing :=
  perform_ok_next

theorem execTxien_next {s t : State} :
    execTxien s = .next t ↔ admission .handle s = none ∧ t = s.enableTx.respond .nothing :=
  perform_ok_next

theorem execTxidis_next {s t : State} :
    execTxidis s = .next t ↔ admission .handle s = none ∧ t = s.disableTx.respond .nothing :=
  perform_ok_next

theorem execRxien_next {s t : State} :
    execRxien s = .next t ↔ admission .setup s = none ∧ t = s.setRxneie.respond .nothing :=
  perform_ok_next

theorem execEnq_next {u : Datum} {s t : State} : execEnq u s = .next t ↔
    admission .handle s = none ∧ s.qbuilt = true ∧
      t = if s.queueFull then s.respond (.enq .full) else (pushTail u s).respond (.enq .ok) := by
  rw [execEnq, perform_map_next]
  cases h : s.queueFull <;> simp [opEnq_ok, h, and_assoc]

theorem execDeq_next {s t : State} : execDeq s = .next t ↔
    admission .handle s = none ∧ s.qbuilt = true ∧
      t = if s.queueEmpty then s.respond (.option none)
        else (popHead s).respond (.option (some (memRead s s.head))) := by
  rw [execDeq, perform_map_next]
  cases h : s.queueEmpty <;> simp [opDeq_ok, h, and_assoc]

theorem execQempty_next {s t : State} : execQempty s = .next t ↔
    admission .handle s = none ∧ s.qbuilt = true ∧ t = s.respond (.bool s.queueEmpty) := by
  rw [execQempty, perform_map_next]
  simp [opQempty_ok, and_assoc]

theorem execQlen_next {s t : State} : execQlen s = .next t ↔
    admission .handle s = none ∧ s.qbuilt = true ∧ t = s.respond (.length s.len) := by
  rw [execQlen, perform_map_next]
  simp [opQlen_ok, and_assoc]

theorem execQnew_next {s t : State} : execQnew s = .next t ↔
    admission .setup s = none ∧ s.qbuilt = false ∧ t = s.buildQueue.respond .nothing := by
  rw [execQnew, perform_map_next]
  simp [opQnew_ok, and_assoc]

theorem execIrqent_next {s t : State} : execIrqent s = .next t ↔
    admission .entry s = none ∧ (s.unmasked = true ∧ s.irq = true ∧ s.phase = .idle) ∧ s.owner = .isr ∧
      t = (s.setPhase .tx).respond .nothing := by
  rw [execIrqent, perform_next]
  constructor
  · rintro ⟨ha, r, v, h, rfl⟩
    obtain ⟨hc, h⟩ := whenEnabled_ok.1 h
    obtain ⟨p, hp, he⟩ := except_map_ok.1 h
    obtain ⟨ho, rfl⟩ := enterService_ok.1 hp
    obtain ⟨rfl, rfl⟩ := Prod.mk.inj he
    simp only [Bool.and_eq_true, decide_eq_true_eq, and_assoc] at hc
    exact ⟨ha, hc, ho, rfl⟩
  · rintro ⟨ha, hc, ho, rfl⟩
    refine ⟨ha, _, _, whenEnabled_ok.2 ⟨by simp [hc], except_map_ok.2 ⟨_, enterService_ok.2 ⟨ho, rfl⟩, rfl⟩⟩, rfl⟩

theorem execSvctx_next {s t : State} : execSvctx s = .next t ↔
    admission .phase s = none ∧ s.phase = .tx ∧
      ∃ u, serviceTx s = .ok u ∧ t = (u.setPhase .rx).respond .nothing := by
  simp only [execSvctx, perform_next, whenEnabled_ok, except_map_ok, decide_eq_true_eq, advancePhase]
  constructor
  · rintro ⟨ha, r, v, ⟨h1, p, h, he⟩, rfl⟩
    obtain ⟨rfl, rfl⟩ := Prod.mk.inj he
    exact ⟨ha, h1, p, h, rfl⟩
  · rintro ⟨ha, h1, p, h, rfl⟩
    exact ⟨ha, _, _, ⟨h1, p, h, rfl⟩, rfl⟩

theorem execSvcrx_next {s t : State} : execSvcrx s = .next t ↔
    admission .phase s = none ∧ s.phase = .rx ∧
      ∃ u, serviceRx s = .ok u ∧ t = (u.setPhase .ovr).respond .nothing := by
  simp only [execSvcrx, perform_next, whenEnabled_ok, except_map_ok, decide_eq_true_eq, advancePhase]
  constructor
  · rintro ⟨ha, r, v, ⟨h1, p, h, he⟩, rfl⟩
    obtain ⟨rfl, rfl⟩ := Prod.mk.inj he
    exact ⟨ha, h1, p, h, rfl⟩
  · rintro ⟨ha, h1, p, h, rfl⟩
    exact ⟨ha, _, _, ⟨h1, p, h, rfl⟩, rfl⟩

/-- SVCOVR's body leaves ORE clear, and changes nothing else (R145). -/
theorem serviceOvr_eq (s : State) : serviceOvr s = s.clearOre := by
  cases h : s.ore <;> simp [serviceOvr, opOvr, opClrovr, h]
  cases s; simp_all [State.clearOre]

theorem execSvcovr_next {s t : State} : execSvcovr s = .next t ↔
    admission .phase s = none ∧ s.phase = .ovr ∧ t = (s.clearOre.setPhase .idle).respond .nothing := by
  simp only [execSvcovr, perform_next, whenEnabled_ok, decide_eq_true_eq, returnFromService, serviceOvr_eq]
  constructor
  · rintro ⟨ha, r, v, ⟨h1, he⟩, rfl⟩
    obtain ⟨rfl, rfl⟩ := Prod.mk.inj (Except.ok.inj he)
    exact ⟨ha, h1, rfl⟩
  · rintro ⟨ha, h1, rfl⟩
    exact ⟨ha, _, _, ⟨h1, rfl⟩, rfl⟩

theorem execXform_next {u : Datum} {s t : State} : execXform u s = .next t ↔
    admission .pure s = none ∧ ∃ d, opXform u = .ok d ∧ t = s.respond (.datum d) := by
  rw [execXform, perform_map_next]

theorem execHandoff_next {s t : State} : execHandoff s = .next t ↔
    admission .handoff s = none ∧ s.owner = .init ∧ s.qbuilt = true ∧ t = s.giveToIsr.respond .nothing := by
  rw [execHandoff, perform_map_next]
  simp [opHandoff_ok, and_assoc]

theorem execUnmask_next {s t : State} :
    execUnmask s = .next t ↔ admission .main s = none ∧ t = s.setUnmasked.respond .nothing :=
  perform_ok_next

theorem execWfi_next {s t : State} :
    execWfi s = .next t ↔ admission .main s = none ∧ t = s.respond .nothing :=
  perform_ok_next

theorem execRxarr_next {u : Datum} {s t : State} : execRxarr u s = .next t ↔
    admission .line s = none ∧ t = (opRxarr u s).respond .nothing :=
  perform_ok_next

theorem execTxdrn_next {s t : State} : execTxdrn s = .next t ↔
    admission .line s = none ∧ s.txe = false ∧ t = s.emitTdr.setTxe.respond .nothing := by
  simp only [execTxdrn, perform_next, whenEnabled_ok, opTxdrn, Bool.not_eq_true']
  constructor
  · rintro ⟨ha, r, v, ⟨h1, he⟩, rfl⟩
    obtain ⟨rfl, rfl⟩ := Prod.mk.inj (Except.ok.inj he)
    exact ⟨ha, h1, rfl⟩
  · rintro ⟨ha, h1, rfl⟩
    exact ⟨ha, _, _, ⟨h1, rfl⟩, rfl⟩

end Sys2Proof.Machine
end

