-- ==== Sys2Proof/Laws/Queue.lean ====
section
/-! SUPPORT. Index arithmetic, the slot memory, and what the ring operations do to the abstract queue Q of
spec/10_state.md R23. -/

namespace Sys2Proof.Machine

/-! ### Indices -/

theorem indexAfter_toNat (i : Index) (k : Nat) : (indexAfter i k).toNat = (i.toNat + k) % 8 := by
  have h8 : (i.toNat + k) % 8 < 8 := Nat.mod_lt _ (by decide)
  simp only [indexAfter, BitVec.toNat_ofNat, Config.capacity, Config.idxW]
  omega

theorem nextIndex_toNat (i : Index) : (nextIndex i).toNat = (i.toNat + 1) % 8 := indexAfter_toNat i 1

theorem indexAfter_zero (i : Index) : indexAfter i 0 = i := by
  have := i.isLt
  exact BitVec.eq_of_toNat_eq (by rw [indexAfter_toNat]; simp only [Config.idxW] at *; omega)

theorem indexAfter_next (i : Index) (k : Nat) : indexAfter (nextIndex i) k = indexAfter i (k + 1) :=
  BitVec.eq_of_toNat_eq (by rw [indexAfter_toNat, indexAfter_toNat, nextIndex_toNat]; omega)

theorem next_indexAfter (i : Index) (k : Nat) : nextIndex (indexAfter i k) = indexAfter i (k + 1) :=
  BitVec.eq_of_toNat_eq (by rw [nextIndex_toNat, indexAfter_toNat, indexAfter_toNat]; omega)

/-- Two places of the ring less than 8 apart are different slots. -/
theorem indexAfter_ne {i : Index} {j k : Nat} (hj : j < k) (hk : k < j + 8) : indexAfter i j ≠ indexAfter i k := by
  intro h
  have := congrArg BitVec.toNat h
  rw [indexAfter_toNat, indexAfter_toNat] at this
  omega

/-! ### Slot memory (R61) -/

theorem memRead_memWrite_same (s : State) (i : Index) (u : Datum) : memRead (memWrite s i u) i = u := by
  simp [memRead, memWrite, Vector.get_eq_getElem]

theorem memRead_memWrite_other (s : State) {i j : Index} (u : Datum) (h : i ≠ j) :
    memRead (memWrite s i u) j = memRead s j := by
  have hij : i.toNat ≠ j.toNat := fun e => h (BitVec.eq_of_toNat_eq e)
  simp only [memRead, memWrite, Vector.get_eq_getElem, slotOf]
  exact Vector.getElem_set_ne i.isLt j.isLt hij

/-- A read depends on the slots alone. -/
theorem memRead_congr {s t : State} (h : s.slots = t.slots) (i : Index) : memRead s i = memRead t i := by
  simp [memRead, h]

/-! ### The abstract queue -/

/-- Q depends on the slots, `head` and `len` alone. -/
theorem queue_congr {s t : State} (hs : s.slots = t.slots) (hh : s.head = t.head) (hl : s.len = t.len) :
    s.queue = t.queue := by
  simp [State.queue, hh, hl, memRead_congr hs]

@[simp] theorem queue_length (s : State) : s.queue.length = s.len.toNat := by simp [State.queue]

theorem listLen_toNat (q : List Datum) : (listLen q).toNat = q.length % 16 := by
  induction q with
  | nil => rfl
  | cons _ q ih =>
    have h1 : (1 : BitVec 4).toNat = 1 := rfl
    simp only [listLen, BitVec.toNat_add, ih, h1, List.length_cons, Config.lenW]
    omega

/-- The length of Q, counted unit by unit, is `len` (R23, R125). -/
theorem listLen_queue (s : State) : listLen s.queue = s.len := by
  have : s.len.toNat < 16 := s.len.isLt
  exact BitVec.eq_of_toNat_eq (by rw [listLen_toNat, queue_length]; omega)

theorem queueEmpty_iff {s : State} : s.queueEmpty = true ↔ s.len.toNat = 0 := by simp [State.queueEmpty]

theorem queueEmpty_false {s : State} : s.queueEmpty = false ↔ 0 < s.len.toNat := by
  simp [State.queueEmpty, Nat.pos_iff_ne_zero]

theorem queueFull_false {s : State} : s.queueFull = false ↔ s.len.toNat < 8 := by simp [State.queueFull]

theorem queueFull_iff {s : State} : s.queueFull = true ↔ 8 ≤ s.len.toNat := by simp [State.queueFull]

theorem queue_of_empty {s : State} (h : s.queueEmpty = true) : s.queue = [] := by
  simp [State.queue, queueEmpty_iff.1 h]

theorem pushTail_len_toNat {s : State} (u : Datum) (h : s.queueFull = false) :
    (pushTail u s).len.toNat = s.len.toNat + 1 := by
  have := queueFull_false.1 h
  simp only [pushTail_len, BitVec.toNat_add, Config.lenW]
  have h1 : (1 : BitVec 4).toNat = 1 := rfl
  simp only [h1]; omega

theorem popHead_len_toNat {s : State} (h : s.queueEmpty = false) : (popHead s).len.toNat = s.len.toNat - 1 := by
  have h0 := queueEmpty_false.1 h
  have hlt : s.len.toNat < 16 := s.len.isLt
  have h1 : (1 : BitVec 4).toNat = 1 := rfl
  simp only [popHead_len, BitVec.toNat_sub, Config.lenW, h1]
  omega

/-- ENQ below capacity appends to Q and keeps the ring in order (R122, R24). -/
theorem pushTail_spec {s : State} (u : Datum) (hi : QueueInv s) (hf : s.queueFull = false) :
    (pushTail u s).queue = s.queue ++ [u] ∧ QueueInv (pushTail u s) := by
  have hlt := queueFull_false.1 hf
  have hl := pushTail_len_toNat u hf
  refine ⟨?_, ?_, ?_⟩
  · simp only [State.queue, hl, List.range_succ, List.map_append, List.map_cons, List.map_nil]
    congr 1
    · refine List.map_congr_left fun k hk => ?_
      have hk := List.mem_range.1 hk
      refine memRead_memWrite_other s u ?_
      rw [hi.2]
      exact (indexAfter_ne hk (by omega)).symm
    · have : indexAfter (pushTail u s).head s.len.toNat = s.tail := hi.2.symm
      rw [this]
      exact congrArg (fun x => [x]) (memRead_memWrite_same s s.tail u)
  · rw [hl]; exact hlt
  · rw [hl]
    show nextIndex s.tail = indexAfter s.head _
    rw [hi.2, next_indexAfter]

/-- DEQ of a non-empty queue takes the head unit off Q and keeps the ring in order (R123, R24). -/
theorem popHead_spec {s : State} (hi : QueueInv s) (he : s.queueEmpty = false) :
    s.queue = memRead s s.head :: (popHead s).queue ∧ QueueInv (popHead s) := by
  have h0 := queueEmpty_false.1 he
  have hl := popHead_len_toNat he
  refine ⟨?_, ?_, ?_⟩
  · obtain ⟨n, hn⟩ : ∃ n, s.len.toNat = n + 1 := ⟨s.len.toNat - 1, by omega⟩
    simp only [State.queue, hl, hn, List.range_succ_eq_map, List.map_cons, List.map_map, indexAfter_zero,
      Nat.add_sub_cancel]
    congr 1
    refine List.map_congr_left fun k _ => ?_
    show memRead s (indexAfter s.head (k + 1)) = memRead s (indexAfter (nextIndex s.head) k)
    rw [indexAfter_next]
  · rw [hl]; have := hi.1; omega
  · rw [hl]
    show s.tail = indexAfter (nextIndex s.head) _
    rw [hi.2, indexAfter_next]
    congr 1; omega

/-! ### Updates that leave the queue -/

section

variable (s : State)

@[simp] theorem queue_clearRxne : s.clearRxne.queue = s.queue := queue_congr rfl rfl rfl
@[simp] theorem queue_setRxne : s.setRxne.queue = s.queue := queue_congr rfl rfl rfl
@[simp] theorem queue_clearTxe : s.clearTxe.queue = s.queue := queue_congr rfl rfl rfl
@[simp] theorem queue_setTxe : s.setTxe.queue = s.queue := queue_congr rfl rfl rfl
@[simp] theorem queue_clearOre : s.clearOre.queue = s.queue := queue_congr rfl rfl rfl
@[simp] theorem queue_setOre : s.setOre.queue = s.queue := queue_congr rfl rfl rfl
@[simp] theorem queue_setRxneie : s.setRxneie.queue = s.queue := queue_congr rfl rfl rfl
@[simp] theorem queue_enableTx : s.enableTx.queue = s.queue := queue_congr rfl rfl rfl
@[simp] theorem queue_disableTx : s.disableTx.queue = s.queue := queue_congr rfl rfl rfl
@[simp] theorem queue_countDropFull : s.countDropFull.queue = s.queue := queue_congr rfl rfl rfl
@[simp] theorem queue_countDropOvr : s.countDropOvr.queue = s.queue := queue_congr rfl rfl rfl
@[simp] theorem queue_countSpurious : s.countSpurious.queue = s.queue := queue_congr rfl rfl rfl
@[simp] theorem queue_loadRdr (u : Datum) : (s.loadRdr u).queue = s.queue := queue_congr rfl rfl rfl
@[simp] theorem queue_loadTdr (u : Datum) : (s.loadTdr u).queue = s.queue := queue_congr rfl rfl rfl
@[simp] theorem queue_emitTdr : s.emitTdr.queue = s.queue := queue_congr rfl rfl rfl
@[simp] theorem queue_giveToIsr : s.giveToIsr.queue = s.queue := queue_congr rfl rfl rfl
@[simp] theorem queue_setUnmasked : s.setUnmasked.queue = s.queue := queue_congr rfl rfl rfl
@[simp] theorem queue_setPhase (p : Phase) : (s.setPhase p).queue = s.queue := queue_congr rfl rfl rfl
@[simp] theorem queue_respond (r : Result) : (s.respond r).queue = s.queue := queue_congr rfl rfl rfl

theorem queue_afterRead : (afterRead s).queue = s.queue := by
  rw [afterRead_eq]; exact queue_congr rfl rfl rfl

end

end Sys2Proof.Machine
end

