-- ==== Sys2Proof/Laws/Step.lean ====
section
/-! SUPPORT. Everything one step can do, and the induction over runs, once. -/

namespace Sys2Proof.Machine

/-- A command that is an evaluation and no step. -/
abbrev EvaluationCommand (c : Command) : Prop := ∃ i, decode c.word = .ok i ∧ isEvaluation c.issuer i = true

/-- Only XFORM by the initialiser or the sequencer is an evaluation. -/
theorem isEvaluation_iff {a : Option Agent} {i : Instr} :
    isEvaluation a i = true ↔ (a = some .initialiser ∨ a = some .sequencer) ∧ ∃ u, i = .xform u := by
  constructor
  · unfold isEvaluation
    split
    · exact fun _ => ⟨.inl rfl, _, rfl⟩
    · exact fun _ => ⟨.inr rfl, _, rfl⟩
    · exact fun h => nomatch h
  · rintro ⟨rfl | rfl, u, rfl⟩ <;> rfl

/-- Everything an evaluation can do: it answers in the response word. -/
theorem exec_evaluation {i : Instr} {s t : State} (he : isEvaluation s.issuer i = true) (h : exec i s = .next t) :
    t = { s with response := t.response } := by
  obtain ⟨_, u, rfl⟩ := isEvaluation_iff.1 he
  obtain ⟨_, _, _, rfl⟩ := execXform_next.1 h
  rfl

/-- A command that is a step runs its operation. -/
theorem takeCommands_step {c : Command} {rest : List Command} {i : Instr} (s : State) (hd : decode c.word = .ok i)
    (he : isEvaluation c.issuer i = false) :
    takeCommands (c :: rest) s = exec i { s with issuer := c.issuer, inbox := rest } := by
  simp only [takeCommands, hd, he]

/-- An evaluation runs, and the step is still to come. -/
theorem takeCommands_evaluation {c : Command} {rest : List Command} {i : Instr} (s : State) (hd : decode c.word = .ok i)
    (he : isEvaluation c.issuer i = true) :
    takeCommands (c :: rest) s = match exec i { s with issuer := c.issuer, inbox := rest } with
      | .next t   => takeCommands rest t.keepEvaluation
      | outcome   => outcome := by
  simp only [takeCommands, hd, he]
  split <;> simp_all

/-- A step is taken from the inbox, since the launch is configured (R12). -/
theorem step_eq (s : State) : step s = takeCommands s.inbox { s with evaluated := [] } := by
  rw [step, takeStep, if_pos (by decide)]

/-- `Took cs s i u`: taking commands `cs` in `s` runs operation `i` in `u` as the step, after evaluations that changed nothing
but the model's own fields: a command of `cs`, or a free choice when all of `cs` are evaluations. -/
inductive Took (cs : List Command) (s : State) (i : Instr) (u : State) : Prop where
  | chosen (pre : List Command) (c : Command) (hcs : cs = pre ++ c :: u.inbox) (hpre : ∀ e ∈ pre, EvaluationCommand e)
      (hi : u.issuer = c.issuer) (hd : decode c.word = .ok i) (ht : u.tick = s.tick)
  | free (hcs : ∀ e ∈ cs, EvaluationCommand e) (hu : u.inbox = [])
      (hi : u.issuer = some (agentOf (Config.freeAgent s.tick))) (hd : decode (Config.freeWord s.tick) = .ok i)
      (ht : u.tick = s.tick + 1)

/-- Everything taking commands can do when it answers a next state or a fault: one operation ran, as the step or (a fault
only) as an evaluation, in a state that differs from `s` in the model's own fields alone. -/
theorem takeCommands_cases (cs : List Command) (s : State) :
    (∃ r, takeCommands cs s = .refused r) ∨
    ∃ i u, takeCommands cs s = exec i u ∧
      u = { s with issuer := u.issuer, inbox := u.inbox, response := u.response, evaluated := u.evaluated, tick := u.tick } ∧
      (∀ t, exec i u = .next t → isEvaluation u.issuer i = false ∧ Took cs s i u) := by
  induction cs generalizing s with
  | nil =>
    cases hd : decode (Config.freeWord s.tick) with
    | error e => exact .inl ⟨.reservedEncoding, by simp only [takeCommands, takeFree, hd]⟩
    | ok i =>
      cases he : isEvaluation (some (agentOf (Config.freeAgent s.tick))) i with
      | true => exact .inl ⟨.noSuchStep, by simp only [takeCommands, takeFree, hd, he, if_true]⟩
      | false =>
        refine .inr ⟨i, _, by simp only [takeCommands, takeFree, hd, he]; rfl, rfl, fun t _ => ⟨he, ?_⟩⟩
        exact .free (fun e h => nomatch h) rfl rfl hd rfl
  | cons c rest ih =>
    cases hd : decode c.word with
    | error e => exact .inl ⟨.reservedEncoding, by simp only [takeCommands, hd]⟩
    | ok i =>
      cases he : isEvaluation c.issuer i with
      | false =>
        refine .inr ⟨i, _, takeCommands_step s hd he, rfl, fun t _ => ⟨he, ?_⟩⟩
        exact .chosen [] c rfl (fun e h => nomatch h) rfl hd rfl
      | true =>
        rw [takeCommands_evaluation s hd he]
        have hc : EvaluationCommand c := ⟨i, hd, he⟩
        cases hx : exec i { s with issuer := c.issuer, inbox := rest } with
        | refused r => exact .inl ⟨r, rfl⟩
        | fault f => exact .inr ⟨i, _, hx.symm, rfl, fun t ht => by rw [hx] at ht; cases ht⟩
        | next v =>
          have hv := exec_evaluation he hx
          rcases ih v.keepEvaluation with h | ⟨j, u, hj, hu, hk⟩
          · exact .inl h
          · refine .inr ⟨j, u, hj, ?_, fun t ht => ⟨(hk t ht).1, ?_⟩⟩
            · rw [hu, hv]; rfl
            · have htick : v.keepEvaluation.tick = s.tick := by rw [hv]; rfl
              rcases (hk t ht).2 with ⟨pre, d, h1, h2, h3, h4, h5⟩ | ⟨h1, h2, h3, h4, h5⟩
              · exact .chosen (c :: pre) d (by rw [h1]; rfl) (List.forall_mem_cons.2 ⟨hc, h2⟩) h3 h4 (h5.trans htick)
              · rw [htick] at h3 h4 h5
                exact .free (List.forall_mem_cons.2 ⟨hc, h1⟩) h2 h3 h4 h5

/-- Everything one step can do when it answers a next state: its operation ran in a state that differs from `s` in the
model's own fields alone, and it is no evaluation. -/
theorem step_next {s t : State} (h : step s = .next t) :
    ∃ i u, exec i u = .next t ∧ isEvaluation u.issuer i = false ∧ Took s.inbox s i u ∧
      u = { s with issuer := u.issuer, inbox := u.inbox, response := u.response, evaluated := u.evaluated, tick := u.tick } := by
  rw [step_eq] at h
  rcases takeCommands_cases s.inbox { s with evaluated := [] } with ⟨r, hr⟩ | ⟨i, u, hx, hu, hk⟩
  · rw [hr] at h; cases h
  · rw [hx] at h
    obtain ⟨he, hT⟩ := hk t h
    refine ⟨i, u, h, he, ?_, hu⟩
    rcases hT with ⟨pre, c, h1, h2, h3, h4, h5⟩ | ⟨h1, h2, h3, h4, h5⟩
    · exact .chosen pre c h1 h2 h3 h4 h5
    · exact .free h1 h2 h3 h4 h5

/-- A step that faults ran an operation that faults, in such a state. -/
theorem step_fault {s : State} {f : Fault} (h : step s = .fault f) :
    ∃ i u, exec i u = .fault f ∧
      u = { s with issuer := u.issuer, inbox := u.inbox, response := u.response, evaluated := u.evaluated, tick := u.tick } := by
  rw [step_eq] at h
  rcases takeCommands_cases s.inbox { s with evaluated := [] } with ⟨r, hr⟩ | ⟨i, u, hx, hu, _⟩
  · rw [hr] at h; cases h
  · exact ⟨i, u, hx ▸ h, hu⟩

/-- One step of a run of any machine, then the rest of it. -/
theorem core_run_succ (M : Host.Core) (k : Nat) (s : M.State) :
    M.run (k + 1) s = match M.step s with
      | .next s'   => M.run k s'
      | .fault f   => .fault f
      | .refused r => .refused r := by
  cases h : M.step s <;> simp [Host.Core.run, h]

/-- One step of a run of UFC, then the rest of it. -/
theorem run_succ (k : Nat) (s : State) :
    Host.Core.run core (k + 1) s = match step s with
      | .next s'   => Host.Core.run core k s'
      | .fault f   => .fault f
      | .refused r => .refused r := by
  refine (core_run_succ core k s).trans ?_
  split
  · rename_i s' h
    have h : step s = .next s' := h
    rw [h]
  · rename_i f h
    have h : step s = .fault f := h
    rw [h]
  · rename_i r h
    have h : step s = .refused r := h
    rw [h]

/-- What every step keeps, every run keeps. -/
theorem run_keeps {P : State → Prop} (hP : ∀ s t, P s → step s = .next t → P t) :
    ∀ (k : Nat) (s t : State), P s → Host.Core.run core k s = .next t → P t
  | 0, _, _, hs, h => by cases h; exact hs
  | k + 1, s, t, hs, h => by
    rw [run_succ] at h
    cases hstep : step s with
    | next s' => rw [hstep] at h; exact run_keeps hP k s' t (hP s s' hs hstep) h
    | fault f => rw [hstep] at h; cases h
    | refused r => rw [hstep] at h; cases h

/-- Runs of `m` and then `n` steps. -/
theorem run_add (m n : Nat) (s t : State) (h : Host.Core.run core m s = .next t) :
    Host.Core.run core (m + n) s = Host.Core.run core n t := by
  induction m generalizing s with
  | zero => cases h; simp
  | succ m ih =>
    rw [run_succ] at h
    rw [Nat.add_right_comm, run_succ]
    cases hstep : step s with
    | next s' => rw [hstep] at h; exact ih s' h
    | fault f => rw [hstep] at h; cases h
    | refused r => rw [hstep] at h; cases h

end Sys2Proof.Machine
end

