-- ==== Sys2Proof/Laws/Exec.lean ====
section
/-! SUPPORT. Everything exec can do when it answers a next state, said once: one constructor of `Ran` per path of an
operation, with the conditions it ran under and the state it answered. -/

namespace Sys2Proof.Machine

/-- `Ran i s t`: operation `i` was admitted in `s`, ran along one of its paths, and left `t`. -/
inductive Ran : Instr → State → State → Prop where
  | rxrdy {s} (ha : admission .handle s = none) : Ran .rxrdy s (s.respond (.bool s.rxne))
  | txrdy {s} (ha : admission .handle s = none) : Ran .txrdy s (s.respond (.bool s.txe))
  | ovr {s} (ha : admission .handle s = none) : Ran .ovr s (s.respond (.bool s.ore))
  | rdu {s} (ha : admission .handle s = none) (h : s.rxne = true) : Ran .rdu s (s.clearRxne.respond (.datum s.rdr))
  | wru {s u} (ha : admission .handle s = none) (h : s.txe = true) :
      Ran (.wru u) s ((s.loadTdr u).clearTxe.respond .nothing)
  | clrovr {s} (ha : admission .handle s = none) : Ran .clrovr s (s.clearOre.respond .nothing)
  | txien {s} (ha : admission .handle s = none) : Ran .txien s (s.enableTx.respond .nothing)
  | txidis {s} (ha : admission .handle s = none) : Ran .txidis s (s.disableTx.respond .nothing)
  | rxien {s} (ha : admission .setup s = none) : Ran .rxien s (s.setRxneie.respond .nothing)
  | enqFull {s u} (ha : admission .handle s = none) (hb : s.qbuilt = true) (hf : s.queueFull = true) :
      Ran (.enq u) s (s.respond (.enq .full))
  | enqOk {s u} (ha : admission .handle s = none) (hb : s.qbuilt = true) (hf : s.queueFull = false) :
      Ran (.enq u) s ((pushTail u s).respond (.enq .ok))
  | deqNone {s} (ha : admission .handle s = none) (hb : s.qbuilt = true) (he : s.queueEmpty = true) :
      Ran .deq s (s.respond (.option none))
  | deqSome {s} (ha : admission .handle s = none) (hb : s.qbuilt = true) (he : s.queueEmpty = false) :
      Ran .deq s ((popHead s).respond (.option (some (memRead s s.head))))
  | qempty {s} (ha : admission .handle s = none) (hb : s.qbuilt = true) :
      Ran .qempty s (s.respond (.bool s.queueEmpty))
  | qlen {s} (ha : admission .handle s = none) (hb : s.qbuilt = true) : Ran .qlen s (s.respond (.length s.len))
  | qnew {s} (ha : admission .setup s = none) (hb : s.qbuilt = false) : Ran .qnew s (s.buildQueue.respond .nothing)
  | irqent {s} (ha : admission .entry s = none) (hm : s.unmasked = true) (hq : s.irq = true) (hp : s.phase = .idle)
      (ho : s.owner = .isr) : Ran .irqent s ((s.setPhase .tx).respond .nothing)
  | svctxNotReady {s} (ha : admission .phase s = none) (hp : s.phase = .tx) (h : s.txe = false) :
      Ran .svctx s ((s.setPhase .rx).respond .nothing)
  | svctxEmpty {s} (ha : admission .phase s = none) (hp : s.phase = .tx) (h : s.txe = true) (hb : s.qbuilt = true)
      (he : s.queueEmpty = true) : Ran .svctx s ((s.disableTx.countSpurious.setPhase .rx).respond .nothing)
  | svctxLast {s} (ha : admission .phase s = none) (hp : s.phase = .tx) (h : s.txe = true) (hb : s.qbuilt = true)
      (he : s.queueEmpty = false) (hl : (popHead s).queueEmpty = true) :
      Ran .svctx s (((((popHead s).loadTdr (memRead s s.head)).clearTxe).disableTx.setPhase .rx).respond .nothing)
  | svctxMore {s} (ha : admission .phase s = none) (hp : s.phase = .tx) (h : s.txe = true) (hb : s.qbuilt = true)
      (he : s.queueEmpty = false) (hl : (popHead s).queueEmpty = false) :
      Ran .svctx s (((((popHead s).loadTdr (memRead s s.head)).clearTxe).setPhase .rx).respond .nothing)
  | svcrxNone {s} (ha : admission .phase s = none) (hp : s.phase = .rx) (h : s.rxne = false) :
      Ran .svcrx s ((s.setPhase .ovr).respond .nothing)
  | svcrxFull {s d} (ha : admission .phase s = none) (hp : s.phase = .rx) (h : s.rxne = true) (hb : s.qbuilt = true)
      (hf : s.queueFull = true) (hx : opXform s.rdr = .ok d) :
      Ran .svcrx s (((afterRead s).countDropFull.setPhase .ovr).respond .nothing)
  | svcrxFirst {s d} (ha : admission .phase s = none) (hp : s.phase = .rx) (h : s.rxne = true) (hb : s.qbuilt = true)
      (hf : s.queueFull = false) (he : s.queueEmpty = true) (hx : opXform s.rdr = .ok d) :
      Ran .svcrx s (((pushTail d (afterRead s)).enableTx.setPhase .ovr).respond .nothing)
  | svcrxNext {s d} (ha : admission .phase s = none) (hp : s.phase = .rx) (h : s.rxne = true) (hb : s.qbuilt = true)
      (hf : s.queueFull = false) (he : s.queueEmpty = false) (hx : opXform s.rdr = .ok d) :
      Ran .svcrx s (((pushTail d (afterRead s)).setPhase .ovr).respond .nothing)
  | svcovr {s} (ha : admission .phase s = none) (hp : s.phase = .ovr) :
      Ran .svcovr s ((s.clearOre.setPhase .idle).respond .nothing)
  | xform {s u d} (ha : admission .pure s = none) (hx : opXform u = .ok d) : Ran (.xform u) s (s.respond (.datum d))
  | handoff {s} (ha : admission .handoff s = none) (ho : s.owner = .init) (hb : s.qbuilt = true) :
      Ran .handoff s (s.giveToIsr.respond .nothing)
  | unmask {s} (ha : admission .main s = none) : Ran .unmask s (s.setUnmasked.respond .nothing)
  | wfi {s} (ha : admission .main s = none) : Ran .wfi s (s.respond .nothing)
  | rxarrLoad {s u} (ha : admission .line s = none) (h : s.rxne = false) :
      Ran (.rxarr u) s ((s.loadRdr u).setRxne.respond .nothing)
  | rxarrOverrun {s u} (ha : admission .line s = none) (h : s.rxne = true) :
      Ran (.rxarr u) s (s.setOre.countDropOvr.respond .nothing)
  | txdrn {s} (ha : admission .line s = none) (h : s.txe = false) : Ran .txdrn s (s.emitTdr.setTxe.respond .nothing)

/-- Whatever exec answers as a next state, one of the paths of `Ran` led to it. -/
theorem ran_of_exec {i : Instr} {s t : State} (h : exec i s = .next t) : Ran i s t := by
  cases i
  case rxrdy => obtain ⟨ha, rfl⟩ := execRxrdy_next.1 h; exact .rxrdy ha
  case txrdy => obtain ⟨ha, rfl⟩ := execTxrdy_next.1 h; exact .txrdy ha
  case ovr => obtain ⟨ha, rfl⟩ := execOvr_next.1 h; exact .ovr ha
  case rdu => obtain ⟨ha, h1, rfl⟩ := execRdu_next.1 h; exact .rdu ha h1
  case wru u => obtain ⟨ha, h1, rfl⟩ := execWru_next.1 h; exact .wru ha h1
  case clrovr => obtain ⟨ha, rfl⟩ := execClrovr_next.1 h; exact .clrovr ha
  case txien => obtain ⟨ha, rfl⟩ := execTxien_next.1 h; exact .txien ha
  case txidis => obtain ⟨ha, rfl⟩ := execTxidis_next.1 h; exact .txidis ha
  case rxien => obtain ⟨ha, rfl⟩ := execRxien_next.1 h; exact .rxien ha
  case enq u =>
    obtain ⟨ha, hb, rfl⟩ := execEnq_next.1 h
    cases hf : s.queueFull
    · exact .enqOk ha hb hf
    · exact .enqFull ha hb hf
  case deq =>
    obtain ⟨ha, hb, rfl⟩ := execDeq_next.1 h
    cases he : s.queueEmpty
    · exact .deqSome ha hb he
    · exact .deqNone ha hb he
  case qempty => obtain ⟨ha, hb, rfl⟩ := execQempty_next.1 h; exact .qempty ha hb
  case qlen => obtain ⟨ha, hb, rfl⟩ := execQlen_next.1 h; exact .qlen ha hb
  case qnew => obtain ⟨ha, hb, rfl⟩ := execQnew_next.1 h; exact .qnew ha hb
  case irqent => obtain ⟨ha, ⟨hm, hq, hp⟩, ho, rfl⟩ := execIrqent_next.1 h; exact .irqent ha hm hq hp ho
  case svctx =>
    obtain ⟨ha, hp, u, hu, rfl⟩ := execSvctx_next.1 h
    rcases serviceTx_ok.1 hu with ⟨h1, rfl⟩ | ⟨h1, hb, he, rfl⟩ | ⟨h1, hb, he, rfl⟩
    · exact .svctxNotReady ha hp h1
    · exact .svctxEmpty ha hp h1 hb he
    · cases hl : (popHead s).queueEmpty
      · exact .svctxMore ha hp h1 hb he hl
      · exact .svctxLast ha hp h1 hb he hl
  case svcrx =>
    obtain ⟨ha, hp, u, hu, rfl⟩ := execSvcrx_next.1 h
    rcases serviceRx_ok.1 hu with ⟨h1, rfl⟩ | ⟨h1, hb, hf, ⟨d, hx⟩, rfl⟩ | ⟨h1, hb, hf, d, hx, rfl⟩
    · exact .svcrxNone ha hp h1
    · exact .svcrxFull ha hp h1 hb hf hx
    · cases he : s.queueEmpty
      · exact .svcrxNext ha hp h1 hb hf he hx
      · exact .svcrxFirst ha hp h1 hb hf he hx
  case svcovr => obtain ⟨ha, hp, rfl⟩ := execSvcovr_next.1 h; exact .svcovr ha hp
  case xform u => obtain ⟨ha, d, hx, rfl⟩ := execXform_next.1 h; exact .xform ha hx
  case handoff => obtain ⟨ha, ho, hb, rfl⟩ := execHandoff_next.1 h; exact .handoff ha ho hb
  case unmask => obtain ⟨ha, rfl⟩ := execUnmask_next.1 h; exact .unmask ha
  case wfi => obtain ⟨ha, rfl⟩ := execWfi_next.1 h; exact .wfi ha
  case rxarr u =>
    obtain ⟨ha, rfl⟩ := execRxarr_next.1 h
    cases h1 : s.rxne
    · rw [show opRxarr u s = _ from if_neg (by simp [h1])]; exact .rxarrLoad ha h1
    · rw [show opRxarr u s = _ from if_pos h1]; exact .rxarrOverrun ha h1
  case txdrn => obtain ⟨ha, h1, rfl⟩ := execTxdrn_next.1 h; exact .txdrn ha h1

/-! ### Who was admitted -/

/-- A handle operation runs as a step only outside any context (R9, R90). -/
theorem issuer_of_handle {s : State} (h : admission .handle s = none) : s.issuer = none := by
  unfold admission at h
  split at h
  · assumption
  · simp [admissionInitialiser] at h
  · simp [admissionSequencer] at h
  · simp at h
  · simp at h

/-- QNEW and RXIEN run outside any context, or by the initialiser before the handoff and outside an invocation. -/
theorem issuer_of_setup {s : State} (h : admission .setup s = none) :
    s.issuer = none ∨ (s.issuer = some .initialiser ∧ s.owner = .init ∧ s.phase = .idle) := by
  unfold admission at h
  split at h
  · rename_i hi; exact .inl hi
  · rename_i hi
    cases ho : s.owner <;> cases hp : s.phase <;> simp_all [admissionInitialiser]
  · simp [admissionSequencer] at h
  · simp at h
  · simp at h

/-- HANDOFF runs by the initialiser outside an invocation. -/
theorem issuer_of_handoff {s : State} (h : admission .handoff s = none) :
    s.issuer = some .initialiser ∧ s.owner = .init ∧ s.phase = .idle := by
  unfold admission at h
  split at h
  · simp [admissionOutside] at h
  · cases ho : s.owner <;> cases hp : s.phase <;> simp_all [admissionInitialiser]
  · simp [admissionSequencer] at h
  · simp at h
  · simp at h

/-- UNMASK and WFI run by the initialiser outside an invocation. -/
theorem issuer_of_main {s : State} (h : admission .main s = none) :
    s.issuer = some .initialiser ∧ s.phase = .idle := by
  unfold admission at h
  split at h
  · simp [admissionOutside] at h
  · cases hp : s.phase <;> simp_all [admissionInitialiser]
  · simp [admissionSequencer] at h
  · simp at h
  · simp at h

/-- XFORM runs outside any context, by the initialiser outside an invocation, or by the sequencer inside one. -/
theorem issuer_of_pure {s : State} (h : admission .pure s = none) :
    s.issuer = none ∨ (s.issuer = some .initialiser ∧ s.phase = .idle) ∨
      (s.issuer = some .sequencer ∧ s.phase ≠ .idle) := by
  unfold admission at h
  split at h
  · rename_i hi; exact .inl hi
  · cases hp : s.phase <;> simp_all [admissionInitialiser]
  · cases hp : s.phase <;> simp_all [admissionSequencer]
  · simp at h
  · simp at h

/-- IRQENT runs by the controller. -/
theorem issuer_of_entry {s : State} (h : admission .entry s = none) : s.issuer = some .controller := by
  unfold admission at h
  split at h <;> simp_all [admissionOutside, admissionInitialiser, admissionSequencer]

/-- The phases run by the sequencer, which holds the handle. -/
theorem issuer_of_phase {s : State} (h : admission .phase s = none) :
    s.issuer = some .sequencer ∧ s.owner = .isr := by
  unfold admission at h
  split at h <;> simp_all [admissionOutside, admissionInitialiser, admissionSequencer]

/-- The line events run by the line. -/
theorem issuer_of_line {s : State} (h : admission .line s = none) : s.issuer = some .line := by
  unfold admission at h
  split at h <;> simp_all [admissionOutside, admissionInitialiser, admissionSequencer]

end Sys2Proof.Machine
end

