-- ==== Sys2Proof/Laws/PerInstr.lean ====
section
/-! SUPPORT. The per-instruction family Encoding: the word of every operation is well formed by the checks of
spec/30_encoding.md R85, and its bits 23:16 are its operation code (R81). -/

namespace Sys2Proof.Laws.Encoding

/-- The encoded word passes R85's three checks and carries the operation code of R84 in bits 23:16. -/
def Statement (i : Instr) : Prop :=
  WellFormed.word (encode i) = true ∧ (encode i).toNat / 2 ^ 16 = (opcode i).toNat

/-- An operation with an operand: its code is one of the four of R86. -/
theorem of_operand {i : Instr} {u : Datum} (h : operand? i = some u)
    (hc : opcode i = 0x04 ∨ opcode i = 0x10 ∨ opcode i = 0x24 ∨ opcode i = 0x30) : Statement i := by
  have hu : u.toNat < 65536 := u.isLt
  have he : (encode i).toNat = (opcode i).toNat * 65536 + u.toNat := by
    simpa [encode, h] using append_toNat (opcode i) u
  have hq : (encode i).toNat / 2 ^ 16 = (opcode i).toNat := by omega
  refine ⟨?_, hq⟩
  have hg : (encode i).toNat / 2 ^ 20 = (opcode i).toNat / 16 := by rw [he]; omega
  simp only [WellFormed.word, WellFormed.groupAssigned, WellFormed.functionAssigned, WellFormed.operandAllowed, hq, hg]
  rcases hc with h | h | h | h <;> rw [h] <;> simp [WellFormed.operandCodes]

theorem rxrdy : Statement .rxrdy := by unfold Statement; decide
theorem txrdy : Statement .txrdy := by unfold Statement; decide
theorem ovr : Statement .ovr := by unfold Statement; decide
theorem rdu : Statement .rdu := by unfold Statement; decide
theorem wru (u : Datum) : Statement (.wru u) := of_operand rfl (.inl rfl)
theorem clrovr : Statement .clrovr := by unfold Statement; decide
theorem txien : Statement .txien := by unfold Statement; decide
theorem txidis : Statement .txidis := by unfold Statement; decide
theorem rxien : Statement .rxien := by unfold Statement; decide
theorem enq (u : Datum) : Statement (.enq u) := of_operand rfl (.inr (.inl rfl))
theorem deq : Statement .deq := by unfold Statement; decide
theorem qempty : Statement .qempty := by unfold Statement; decide
theorem qlen : Statement .qlen := by unfold Statement; decide
theorem qnew : Statement .qnew := by unfold Statement; decide
theorem irqent : Statement .irqent := by unfold Statement; decide
theorem svctx : Statement .svctx := by unfold Statement; decide
theorem svcrx : Statement .svcrx := by unfold Statement; decide
theorem svcovr : Statement .svcovr := by unfold Statement; decide
theorem xform (u : Datum) : Statement (.xform u) := of_operand rfl (.inr (.inr (.inl rfl)))
theorem handoff : Statement .handoff := by unfold Statement; decide
theorem unmask : Statement .unmask := by unfold Statement; decide
theorem wfi : Statement .wfi := by unfold Statement; decide
theorem rxarr (u : Datum) : Statement (.rxarr u) := of_operand rfl (.inr (.inr (.inr rfl)))
theorem txdrn : Statement .txdrn := by unfold Statement; decide

end Sys2Proof.Laws.Encoding
end

