-- ==== Sys2Proof/Tests/Slice0.lean ====
section
/-! SUPPORT. The model's own tests. Part 1: the checks of well-formedness and the words of spec/30_encoding.md. Part 2: one
step each, with the expected values of spec/95_test_vectors.md (the vector's id stands above each test). Part 3: for every
statement with hypotheses, a state and operands that meet them. -/

namespace Sys2Proof.Tests

open Sys2Proof Sys2Proof.Machine

/-! ### Helpers -/

/-- The next state of an outcome. -/
def nextOf : Outcome → Option State
  | .next t => some t
  | _       => none

/-- The fault of an outcome. -/
def faultOf : Outcome → Option Fault
  | .fault f => some f
  | _        => none

/-- The refusal of an outcome. -/
def refusalOf : Outcome → Option Refusal
  | .refused r => some r
  | _          => none

/-- What an operation leaves, seen through `f`. -/
def after {α : Type} (i : Instr) (s : State) (f : State → α) : Option α := (nextOf (exec i s)).map f

/-- Outside any context (R90, last paragraph), nothing built. -/
def bare : State := { State.reset with issuer := none }

/-- Outside any context, with the queue Q = [units] at slots 0, 1, …; `n` is its length. -/
def ring (v : Vector Datum 8) (head tail : Index) (n : Len) : State :=
  { bare with qbuilt := true, slots := v, head := head, tail := tail, len := n }

/-- The post-initialisation state PI of spec/95 (RXNE = ORE = 0), issued to by `a`. -/
def pi (a : Agent) : State := { postInit {} with issuer := some a }

/-- A state inside an invocation, in phase `p`, with the sequencer stepping. -/
def serving (p : Phase) : State := { pi .sequencer with phase := p }

/-- Eight units 65 to 72 from `head = 6`, as in vectors C8 and C12. -/
def full : State :=
  { serving .tx with slots := #v[67, 68, 69, 70, 71, 72, 65, 66], head := 6, tail := 6, len := 8, txeie := true }

/-- One unit 65 at `head = 6`, as in vectors C4 and C10. -/
def one : State :=
  { serving .tx with slots := #v[0, 0, 0, 0, 0, 0, 65, 0], head := 6, tail := 7, len := 1, txeie := true }

/-- Two units 65 and 66 at `head = 6`, as in vectors C7 and C11. -/
def two : State :=
  { serving .tx with slots := #v[0, 0, 0, 0, 0, 0, 65, 66], head := 6, tail := 0, len := 2, txeie := true }

/-- Seven units at `head = 6`. -/
def seven : State :=
  { serving .tx with slots := #v[67, 68, 69, 70, 71, 0, 65, 66], head := 6, tail := 5, len := 7, txeie := true }

/-! ### Part 1. Words -/

/-- R85 (a): a group of 4 or more is ill-formed. -/
theorem test_wf_group : WellFormed.groupAssigned 0x400000 = false ∧ WellFormed.word 0x400000 = false := by decide

/-- R85 (b): an unassigned function of each group is ill-formed. -/
theorem test_wf_function :
    WellFormed.functionAssigned 0x090000 = false ∧ WellFormed.word 0x090000 = false ∧
    WellFormed.word 0x150000 = false ∧ WellFormed.word 0x280000 = false ∧ WellFormed.word 0x320000 = false := by decide

/-- R85 (c): a nonzero operand on an operation without operand is ill-formed. -/
theorem test_wf_operand :
    WellFormed.operandAllowed 0x000001 = false ∧ WellFormed.word 0x000001 = false ∧
    WellFormed.word 0x310001 = false := by decide

/-- R86: the four operations with an operand admit every operand. -/
theorem test_wf_accepts :
    WellFormed.word 0x04FFFF = true ∧ WellFormed.word 0x10FFFF = true ∧ WellFormed.word 0x24FFFF = true ∧
    WellFormed.word 0x30FFFF = true ∧ WellFormed.word 0x270000 = true := by decide

/-- R84, group 0: grp 0000, fn as in the table, u. -/
theorem test_decode_peripheral :
    decode 0b0000_0000_0000000000000000 = .ok .rxrdy ∧ decode 0b0000_0001_0000000000000000 = .ok .txrdy ∧
    decode 0b0000_0010_0000000000000000 = .ok .ovr ∧ decode 0b0000_0011_0000000000000000 = .ok .rdu ∧
    decode 0b0000_0100_1010101111001101 = .ok (.wru 0xABCD) ∧ decode 0b0000_0101_0000000000000000 = .ok .clrovr ∧
    decode 0b0000_0110_0000000000000000 = .ok .txien ∧ decode 0b0000_0111_0000000000000000 = .ok .txidis ∧
    decode 0b0000_1000_0000000000000000 = .ok .rxien := by decide

/-- R84, group 1. -/
theorem test_decode_queue :
    decode 0b0001_0000_1111111111111111 = .ok (.enq 65535) ∧ decode 0b0001_0001_0000000000000000 = .ok .deq ∧
    decode 0b0001_0010_0000000000000000 = .ok .qempty ∧ decode 0b0001_0011_0000000000000000 = .ok .qlen ∧
    decode 0b0001_0100_0000000000000000 = .ok .qnew := by decide

/-- R84, group 2. -/
theorem test_decode_sequencer :
    decode 0b0010_0000_0000000000000000 = .ok .irqent ∧ decode 0b0010_0001_0000000000000000 = .ok .svctx ∧
    decode 0b0010_0010_0000000000000000 = .ok .svcrx ∧ decode 0b0010_0011_0000000000000000 = .ok .svcovr ∧
    decode 0b0010_0100_0000000000100000 = .ok (.xform 32) ∧ decode 0b0010_0101_0000000000000000 = .ok .handoff ∧
    decode 0b0010_0110_0000000000000000 = .ok .unmask ∧ decode 0b0010_0111_0000000000000000 = .ok .wfi := by decide

/-- R84, group 3. -/
theorem test_decode_line :
    decode 0b0011_0000_0000000001100001 = .ok (.rxarr 97) ∧ decode 0x300000 = .ok (.rxarr 0) ∧
    decode 0b0011_0001_0000000000000000 = .ok .txdrn := by decide

/-- V5.7 to V5.14: each case of R85 is refused by its own name. -/
theorem test_decode_reserved :
    decode 0x400000 = .error .group ∧ decode 0xFFFFFF = .error .group ∧ decode 0x090000 = .error .function ∧
    decode 0x0F0000 = .error .function ∧ decode 0x150000 = .error .function ∧ decode 0x280000 = .error .function ∧
    decode 0x320000 = .error .function ∧ decode 0x000001 = .error .operand ∧ decode 0x310001 = .error .operand := by decide

/-- The command column of V0, V1, V2, V4 and V6. -/
theorem test_encode :
    encode (.wru 0xFFEA) = 0x04FFEA ∧ encode (.enq 10) = 0x10000A ∧ encode .deq = 0x110000 ∧
    encode (.xform 0x0161) = 0x240161 ∧ encode .handoff = 0x250000 ∧ encode (.rxarr 97) = 0x300061 ∧
    encode .txdrn = 0x310000 := by decide

/-- The response column of S1, S2, V0 and V1. -/
theorem test_response_words :
    encodeResult (.bool false) = 0x00000 ∧ encodeResult (.datum 353) = 0x10161 ∧ encodeResult (.enq .full) = 0x00000 ∧
    encodeResult (.option (some 0)) = 0x10000 ∧ encodeResult (.option none) = 0x00000 ∧
    encodeResult (.length 8) = 0x10008 := by decide

/-- The table form: 24 bits are a word; the same number with fewer bits is cut, and more than 24 bits are no word. -/
theorem test_table_word :
    decodeTableWord 24 0x10FFFF = some (.enq 65535) ∧ decodeTableWord 24 0x150000 = none ∧
    decodeTableWord 32 0x1000000 = none ∧ decodeTableWord 16 0x310000 = some .rxrdy := by decide

/-- A placed word is the very next step after reset: QNEW (V1.1) and RXARR (V6.9). -/
theorem test_fetch_word :
    (nextOf (step (State.reset.withFetchWord 24 0x140000))).map (fun t => (t.qbuilt, t.inbox)) = some (true, []) ∧
    (nextOf (step (State.reset.withFetchWord 24 0x300061))).map (fun t => (t.rxne, t.rdr)) = some (true, 97) := by decide

/-- R87's own example, a comment, and a hexadecimal numeral. -/
theorem test_text_form :
    parseLine "ENQ 65 -> Ok".toList = some (.enq 65, some (.enq .ok)) ∧
    parseLine "XFORM 0x0161 ; a comment".toList = some (.xform 353, none) ∧
    parseLine "DEQ -> Some(65)".toList = some (.deq, some (.option (some 65))) ∧
    parseLine "WRU 65536".toList = none ∧ parseLine "deq".toList = none ∧
    printLine (.enq 65) (.enq .ok) = "ENQ 65 -> Ok" := by decide

/-! ### Part 2. One step each -/

/-- V0.1, V0.2. -/
theorem test_rxrdy :
    exec .rxrdy bare = .next { bare with response := some 0x00000 } ∧
    exec .rxrdy { bare with rxne := true, ore := true } =
      .next { bare with rxne := true, ore := true, response := some 0x10000 } := ⟨rfl, rfl⟩

/-- V0.3, V0.4. -/
theorem test_txrdy :
    after .txrdy { bare with txe := true, txeie := false } (·.response) = some (some 0x10000) ∧
    after .txrdy { bare with txe := false, txeie := true } (·.response) = some (some 0x00000) := by decide

/-- V0.5, V0.6. -/
theorem test_ovr :
    after .ovr { bare with ore := true } (fun t => (t.response, t.ore)) = some (some 0x10000, true) ∧
    after .ovr { bare with ore := false, rxne := true } (·.response) = some (some 0x00000) := by decide

/-- V0.8. -/
theorem test_rdu :
    after .rdu { bare with rxne := true, rdr := 0x0161, ore := true } (fun t => (t.response, t.rxne, t.ore, t.rdr)) =
      some (some 0x10161, false, true, 0x0161) := by decide

/-- V0.9. -/
theorem test_rdu_not_ready : refusalOf (exec .rdu { bare with rxne := false }) = some .readNotReady := by decide

/-- V0.11. -/
theorem test_wru :
    after (.wru 0xFFEA) { bare with txe := true } (fun t => (t.response, t.txe, t.tdr)) =
      some (some 0x10000, false, 0xFFEA) := by decide

/-- V0.12. -/
theorem test_wru_not_ready : refusalOf (exec (.wru 66) { bare with txe := false, tdr := 65 }) = some .writeNotReady := by
  decide

/-- V0.13. -/
theorem test_clrovr :
    after .clrovr { bare with ore := true, rxne := true, rdr := 97 } (fun t => (t.response, t.ore, t.rxne, t.rdr)) =
      some (some 0x10000, false, true, 97) := by decide

/-- V0.15: the request rises in the same step. -/
theorem test_txien :
    after .txien { bare with txeie := false, txe := true } (fun t => (t.txeie, t.txienCnt, t.irq)) =
      some (true, 1, true) := by decide

/-- V0.17, V0.18. -/
theorem test_txidis :
    after .txidis { bare with txeie := true, txe := true } (fun t => (t.txeie, t.txidisCnt, t.irq, t.txe)) =
      some (false, 1, false, true) ∧
    after .txidis { bare with txeie := false } (fun t => (t.txeie, t.txidisCnt)) = some (false, 1) := by decide

/-- V0.19. -/
theorem test_rxien :
    after .rxien { bare with rxneie := false, rxne := true } (fun t => (t.rxneie, t.irq, t.unmasked)) =
      some (true, true, false) := by decide

/-- V1.1. -/
theorem test_qnew :
    after .qnew { State.reset with head := 5, tail := 2, len := 9 } (fun t => (t.qbuilt, t.head, t.tail, t.len, t.queue)) =
      some (true, 0, 0, 0, []) := by decide

/-- V1.2. -/
theorem test_qnew_again : refusalOf (exec .qnew (ring (.replicate 8 0) 0 0 0)) = some .alreadyBuilt := by decide

/-- V1.8: the tail wraps and the queue becomes full. -/
theorem test_enq :
    after (.enq 65535) (ring #v[1, 2, 3, 4, 5, 6, 7, 0] 0 7 7) (fun t => (t.response, t.tail, t.len, t.queue)) =
      some (some 0x10000, 0, 8, [1, 2, 3, 4, 5, 6, 7, 65535]) := by decide

/-- V1.9. -/
theorem test_enq_full :
    exec (.enq 9) (ring #v[1, 2, 3, 4, 5, 6, 7, 8] 0 0 8) =
      .next { ring #v[1, 2, 3, 4, 5, 6, 7, 8] 0 0 8 with response := some 0x00000 } := rfl

/-- V1.14: the head wraps. -/
theorem test_deq :
    after .deq (ring #v[0, 0, 0, 0, 0, 0, 0, 7] 7 0 1) (fun t => (t.response, t.head, t.len)) =
      some (some 0x10007, 0, 0) := by decide

/-- V1.4, V1.7: None and Some(0). -/
theorem test_deq_none :
    after .deq (ring (.replicate 8 0) 3 3 0) (fun t => (t.response, t.head)) = some (some 0x00000, 3) ∧
    after .deq (ring (.replicate 8 0) 3 4 1) (fun t => (t.response, t.head, t.len)) = some (some 0x10000, 4, 0) := by decide

/-- V1.5, V1.10. -/
theorem test_qempty :
    after .qempty (ring (.replicate 8 0) 3 3 0) (·.response) = some (some 0x10000) ∧
    after .qempty (ring (.replicate 8 0) 0 0 8) (·.response) = some (some 0x00000) := by decide

/-- V1.5, V1.10. -/
theorem test_qlen :
    after .qlen (ring (.replicate 8 0) 3 3 0) (·.response) = some (some 0x10000) ∧
    after .qlen (ring (.replicate 8 0) 0 0 8) (·.response) = some (some 0x10008) := by decide

/-- V1.3. -/
theorem test_queue_not_built :
    refusalOf (exec (.enq 5) bare) = some .queueNotBuilt ∧ refusalOf (exec .deq bare) = some .queueNotBuilt ∧
    refusalOf (exec .qempty bare) = some .queueNotBuilt ∧ refusalOf (exec .qlen bare) = some .queueNotBuilt := by decide

/-- V2: the rows 0, 31, 32, 97, 256, 0x0105, 65535. -/
theorem test_xform :
    after (.xform 0) bare (·.response) = some (some 0x1FFE0) ∧ after (.xform 31) bare (·.response) = some (some 0x1FFFF) ∧
    after (.xform 32) bare (·.response) = some (some 0x10000) ∧ after (.xform 97) bare (·.response) = some (some 0x10041) ∧
    after (.xform 256) bare (·.response) = some (some 0x100E0) ∧
    after (.xform 0x0105) bare (·.response) = some (some 0x100E5) ∧
    after (.xform 65535) bare (·.response) = some (some 0x1FFDF) := by decide

/-- V5.6, "any": the initialiser, and the sequencer in each phase. Outside a phase the sequencer is not running (R90, R209). -/
theorem test_xform_contexts :
    after (.xform 97) (pi .initialiser) (·.response) = some (some 0x10041) ∧
    (∀ p ∈ [Phase.tx, .rx, .ovr], after (.xform 97) (serving p) (·.response) = some (some 0x10041)) ∧
    refusalOf (exec (.xform 97) (serving .idle)) = some .contextNotRunning := by decide

/-- V5.6 with R204 and R166: an XFORM is answered, and the step is the sequencer's phase, or the initialiser's WFI, after it. -/
theorem test_xform_is_no_step :
    (nextOf (step ((pi .initialiser).placeSteps [(some .initialiser, .xform 97), (some .initialiser, .wfi)]))).map
      (fun t => (t.evaluated, t.response, t.inbox)) = some ([0x10041], some 0x10000, []) ∧
    (nextOf (step ((serving .rx).placeSteps [(some .sequencer, .xform 97), (some .sequencer, .svcrx)]))).map
      (fun t => (t.evaluated, t.phase, t.inbox)) = some ([0x10041], .ovr, []) := by decide

/-- V3.1, V3.6. -/
theorem test_irqent :
    after .irqent { pi .controller with rxne := true } (·.phase) = some .tx ∧
    after .irqent { pi .controller with ore := true } (·.phase) = some .tx := by decide

/-- V3.2 to V3.5, V3.7. -/
theorem test_irqent_stops :
    refusalOf (exec .irqent { pi .controller with rxne := true, unmasked := false }) = some .notEnabled ∧
    refusalOf (exec .irqent (pi .controller)) = some .notEnabled ∧
    refusalOf (exec .irqent { pi .controller with rxne := true, phase := .rx }) = some .notEnabled ∧
    faultOf (exec .irqent { pi .controller with rxne := true, owner := .init }) = some .uninitializedService := by decide

/-- C4 and C5: the last unit, and one of several. -/
theorem test_svctx :
    after .svctx one (fun t => (t.tdr, t.txe, t.txeie, t.head)) = some (65, false, false, 7) ∧
    after .svctx two (fun t => (t.tdr, t.txe, t.txeie, t.queue)) = some (65, false, true, [66]) := by decide

/-- C3 and C2: the spurious step, and the transmitter not ready. -/
theorem test_svctx_nothing_sent :
    after .svctx (serving .tx) (fun t => (t.phase, t.txe, t.txeie, t.spuriousTx, t.txidisCnt)) =
      some (.rx, true, false, 1, 1) ∧
    after .svctx { two with txe := false } (fun t => (t.phase, t.queue, t.txeie)) = some (.rx, [65, 66], true) := by decide

/-- C6 and C7: the queue empty, and holding two. -/
theorem test_svcrx :
    after .svcrx { serving .rx with rxne := true, rdr := 120 } (fun t => (t.phase, t.rxne, t.queue, t.txeie, t.txienCnt)) =
      some (.ovr, false, [88], true, 1) ∧
    after .svcrx { two with phase := .rx, rxne := true, rdr := 120 } (fun t => (t.rxne, t.queue, t.tail, t.txienCnt)) =
      some (false, [65, 66, 88], 1, 0) := by decide

/-- C8 and P6 step 4: the queue full, and a control character. -/
theorem test_svcrx_drop_and_wrap :
    after .svcrx { full with phase := .rx, rxne := true, rdr := 120 }
        (fun t => (t.rxne, t.queue, t.dropFull, t.txeie)) =
      some (false, [65, 66, 67, 68, 69, 70, 71, 72], 1, true) ∧
    after .svcrx { serving .rx with rxne := true, rdr := 10 } (fun t => (t.queue, t.underflowCnt)) =
      some ([0xFFEA], 1) := by decide

/-- R145's example, and the phase with ORE clear. -/
theorem test_svcovr :
    after .svcovr { serving .ovr with ore := true } (fun t => (t.phase, t.ore)) = some (.idle, false) ∧
    after .svcovr (serving .ovr) (fun t => (t.phase, t.ore)) = some (.idle, false) := by decide

/-- V3, the sentence below the IRQENT table: a phase alone outside its turn has no step. -/
theorem test_phases_not_enabled :
    refusalOf (exec .svcrx (serving .tx)) = some .notEnabled ∧ refusalOf (exec .svctx (serving .idle)) = some .notEnabled ∧
    refusalOf (exec .svcovr (serving .rx)) = some .notEnabled := by decide

/-- R161's example. -/
theorem test_handoff :
    after .handoff { State.reset with qbuilt := true } (·.owner) = some .isr := by decide

/-- V4.3, V4.4, V4.5. -/
theorem test_handoff_stops :
    refusalOf (exec .handoff State.reset) = some .queueNotBuilt ∧
    refusalOf (exec .handoff (pi .initialiser)) = some .ownershipViolation ∧
    refusalOf (exec .qnew (pi .initialiser)) = some .ownershipViolation ∧
    refusalOf (exec .rxien (pi .initialiser)) = some .ownershipViolation := by decide

/-- R162's example; V4.6. -/
theorem test_unmask :
    after .unmask State.reset (·.unmasked) = some true ∧ after .unmask (pi .initialiser) (·.unmasked) = some true := by decide

/-- V4.7. -/
theorem test_wfi : exec .wfi (pi .initialiser) = .next { pi .initialiser with response := some 0x10000 } := rfl

/-- V6.1, V6.4. -/
theorem test_rxarr :
    after (.rxarr 97) (pi .line) (fun t => (t.rxne, t.rdr, t.ore)) = some (true, 97, false) ∧
    after (.rxarr 100) { pi .line with ore := true } (fun t => (t.rxne, t.rdr, t.ore, t.dropOvr)) =
      some (true, 100, true, 0) := by decide

/-- V6.2, V6.3. -/
theorem test_rxarr_overrun :
    after (.rxarr 98) { pi .line with rxne := true, rdr := 97 } (fun t => (t.rxne, t.rdr, t.ore, t.dropOvr)) =
      some (true, 97, true, 1) ∧
    after (.rxarr 99) { pi .line with rxne := true, rdr := 97, ore := true } (fun t => (t.rdr, t.ore, t.dropOvr)) =
      some (97, true, 1) := by decide

/-- V6.8: the wire shows the low bytes 65 and 234. -/
theorem test_txdrn :
    after .txdrn { pi .line with txe := false, tdr := 0xFFEA, txLine := [65] } (fun t => (t.txe, t.txLine, t.wireBytes)) =
      some (true, [65, 0xFFEA], [65, 234]) := by decide

/-- V6.7. -/
theorem test_txdrn_not_enabled : refusalOf (exec .txdrn (pi .line)) = some .notEnabled := by decide

/-- V5.1 to V5.4. -/
theorem test_admission_initialiser :
    refusalOf (exec (.enq 5) State.reset) = some .notInSequence ∧
    refusalOf (exec .txien State.reset) = some .notInSequence ∧
    refusalOf (exec .deq (pi .initialiser)) = some .ownershipViolation ∧
    refusalOf (exec .rdu (pi .initialiser)) = some .ownershipViolation := by decide

/-- V5.5. -/
theorem test_admission_sequencer :
    ∀ i ∈ [Instr.qnew, .rxien, .handoff, .unmask, .wfi], refusalOf (exec i (serving .tx)) = some .notInSequence := by decide

/-- V0, the table of the request equation: its eight rows. -/
theorem test_irq :
    State.irq { bare with rxneie := false, rxne := true, ore := true, txeie := false, txe := true } = false ∧
    State.irq { bare with rxneie := false, rxne := true, ore := true, txeie := true, txe := false } = false ∧
    State.irq { bare with rxneie := false, txeie := true, txe := true } = true ∧
    State.irq { bare with rxneie := true, txeie := false, txe := true } = false ∧
    State.irq { bare with rxneie := true, txeie := true, txe := false } = false ∧
    State.irq { bare with rxneie := true, txeie := true, txe := true } = true ∧
    State.irq { bare with rxneie := true, rxne := true } = true ∧
    State.irq { bare with rxneie := true, ore := true } = true := by decide

/-! ### Part 3. Witnesses: the hypotheses of the statements can be met -/

/-- The policy the statements about units below 32 name is this hardware's. -/
theorem witness_policy : Config.xformLow = .wrap := rfl

/-- EncodeOfDecode. -/
theorem witness_EncodeOfDecode : decode 0x24FFFF = .ok (.xform 65535) := by decide

/-- EveryWordIsOneRowOrReserved: both kinds of word exist. -/
theorem witness_EveryWordIsOneRowOrReserved : WellFormed.word 0x04ABCD = true ∧ WellFormed.word 0x000001 = false := by decide

/-- ReservedWordIsRefused, one word a clause, each the least the clause reserves. -/
theorem witness_ReservedWordIsRefused :
    (∀ w : Cmd, { State.reset with inbox := [⟨none, w⟩] }.inbox = ⟨none, w⟩ :: []) ∧
    4 ≤ (0x400000 : Cmd).toNat / 2 ^ 20 ∧
    ((0x090000 : Cmd).toNat / 2 ^ 20 = 0 ∧ 9 ≤ (0x090000 : Cmd).toNat / 2 ^ 16 % 16) ∧
    ((0x150000 : Cmd).toNat / 2 ^ 20 = 1 ∧ 5 ≤ (0x150000 : Cmd).toNat / 2 ^ 16 % 16) ∧
    ((0x280000 : Cmd).toNat / 2 ^ 20 = 2 ∧ 8 ≤ (0x280000 : Cmd).toNat / 2 ^ 16 % 16) ∧
    ((0x320000 : Cmd).toNat / 2 ^ 20 = 3 ∧ 2 ≤ (0x320000 : Cmd).toNat / 2 ^ 16 % 16) ∧
    ((0x000001 : Cmd).toNat / 2 ^ 16 = 0 ∧ (0x000001 : Cmd).toNat % 2 ^ 16 = 1) :=
  ⟨fun _ => rfl, by decide, by decide, by decide, by decide, by decide, by decide⟩

/-- CompletedOperationAnswers, and every statement whose one hypothesis is that an operation answered a next state: an
operation with a result, one without, one of each agent. -/
theorem witness_exec_next :
    (∃ t, exec .rxrdy bare = .next t) ∧ (∃ t, exec .wfi State.reset = .next t) ∧
    (∃ t, exec .irqent { pi .controller with rxne := true } = .next t) ∧ (∃ t, exec .svctx two = .next t) ∧
    (∃ t, exec .txdrn { pi .line with txe := false } = .next t) :=
  ⟨⟨_, rfl⟩, ⟨_, rfl⟩, ⟨_, rfl⟩, ⟨_, rfl⟩, ⟨_, rfl⟩⟩

/-- StepRunsDecodedCommand: a step, and an evaluation of each context. -/
theorem witness_StepRunsDecodedCommand :
    { State.reset with inbox := [⟨some .line, 0x300061⟩] }.inbox = ⟨some .line, 0x300061⟩ :: [] ∧
    decode 0x300061 = .ok (.rxarr 97) ∧
    ¬ ((some Agent.line = some .initialiser ∨ some Agent.line = some .sequencer) ∧ ∃ v, Instr.rxarr 97 = .xform v) ∧
    { State.reset with inbox := [⟨some .initialiser, 0x240061⟩] }.inbox = ⟨some .initialiser, 0x240061⟩ :: [] ∧
    { serving .rx with inbox := [⟨some .sequencer, 0x240061⟩] }.inbox = ⟨some .sequencer, 0x240061⟩ :: [] ∧
    decode 0x240061 = .ok (.xform 97) := ⟨rfl, by decide, (fun h => absurd h.1 (by decide)), rfl, rfl, by decide⟩

/-- StepWithoutInboxIsFree. -/
theorem witness_StepWithoutInboxIsFree : State.reset.inbox = [] := rfl

/-- AdmissionByTable: each agent in its running context, and each verdict; a refusal for an admitted issuer; and the second
clause's operations with a refusal. -/
theorem witness_AdmissionByTable :
    ContextRuns .initialiser State.reset ∧ ContextRuns .sequencer (serving .ovr) ∧ ContextRuns .controller (serving .rx) ∧
    ContextRuns .line (pi .line) ∧
    admissionTable .qnew .initialiser .init = .yes ∧ admissionTable .qnew .initialiser .isr = .refuse .ownershipViolation ∧
    admissionTable .deq .controller .isr = .no ∧ admissionTable .deq .sequencer .isr = .inPhases ∧
    admissionTable (.xform 5) .sequencer .isr = .yes ∧
    refusalOf (exec .handoff State.reset) = some .queueNotBuilt ∧
    bare.issuer = none ∧ (opcode .deq).toNat < 0x20 ∧ opcode (.xform 5) = 0x24 ∧
    exec .deq bare = .refused .queueNotBuilt := by
  refine ⟨by decide, by decide, by decide, by decide, rfl, rfl, rfl, rfl, rfl, by decide, rfl, by decide, rfl, rfl⟩

/-- FlagReadsAnswerTheFlag, ReadUnit, WriteUnit, ClearAndEnable: outside any context, with either value of the flag read. -/
theorem witness_outside :
    bare.issuer = none ∧
    ({ bare with rxne := true }.issuer = none ∧ { bare with rxne := true }.rxne = true) ∧
    (bare.issuer = none ∧ bare.rxne = false) ∧ (bare.issuer = none ∧ bare.txe = true) ∧
    ({ bare with txe := false }.issuer = none ∧ { bare with txe := false }.txe = false) := by decide

/-- EnableReceive, BuildQueueOnce: both disjuncts, with either value of QBUILT. -/
theorem witness_setup :
    (bare.issuer = none ∧ bare.qbuilt = false) ∧
    (State.reset.issuer = some .initialiser ∧ State.reset.owner = .init ∧ State.reset.phase = .idle ∧
      State.reset.qbuilt = false) ∧
    ({ State.reset with qbuilt := true }.issuer = some .initialiser ∧ { State.reset with qbuilt := true }.owner = .init ∧
      { State.reset with qbuilt := true }.phase = .idle ∧ { State.reset with qbuilt := true }.qbuilt = true) := by decide

/-- Enqueue, Dequeue, QueueQueries, RingRefinesList, FifoOrder, CapacityHolds, DropNewest: a built queue in order outside any
context, at the lengths 0, 7 and 8 where the clauses meet. -/
theorem witness_queue :
    ((ring (.replicate 8 0) 3 3 0).issuer = none ∧ (ring (.replicate 8 0) 3 3 0).qbuilt = true ∧
      QueueInv (ring (.replicate 8 0) 3 3 0) ∧ (ring (.replicate 8 0) 3 3 0).len.toNat = 0 ∧
      (ring (.replicate 8 0) 3 3 0).queue = []) ∧
    ((ring (.replicate 8 0) 1 0 7).qbuilt = true ∧ QueueInv (ring (.replicate 8 0) 1 0 7) ∧
      (ring (.replicate 8 0) 1 0 7).len.toNat = 7) ∧
    ((ring (.replicate 8 0) 1 1 8).issuer = none ∧ (ring (.replicate 8 0) 1 1 8).qbuilt = true ∧
      QueueInv (ring (.replicate 8 0) 1 1 8) ∧ (ring (.replicate 8 0) 1 1 8).queue.length = 8) := by decide

/-- RingRefinesList: a sequence the abstract queue answers. -/
theorem witness_RingRefinesList :
    listOps [.enq 10, .qlen, .deq, .deq, .qempty] (ring (.replicate 8 0) 3 3 0).queue =
      some ([.enq .ok, .length 1, .option (some 10), .option none, .bool true], []) := by decide

/-- FifoOrder, first clause: a sequence of queue operations that runs. -/
theorem witness_FifoOrder :
    (∀ i ∈ [Instr.enq 10, .enq 20, .deq], 0x10 ≤ (opcode i).toNat ∧ (opcode i).toNat < 0x14) ∧
    ∃ t, execSeq [.enq 10, .enq 20, .deq] (ring (.replicate 8 0) 3 3 0) = some ([0x10000, 0x10000, 0x1000A], t) :=
  ⟨by decide, ⟨_, rfl⟩⟩

/-- CapacityHolds, ReceiveEnableIsForEver, OwnershipNeverReturns: a run of two steps that completes, from a state with each
bit set. -/
theorem witness_runs :
    (∃ t, Host.Core.run core 2 ((pi .line).placeSteps [(some .line, .rxarr 97), (some .controller, .irqent)]) = .next t ∧
      t.qbuilt = true ∧ t.owner = .isr) ∧
    (pi .line).rxneie = true ∧ (pi .line).owner = .isr ∧ (pi .line).qbuilt = true ∧ (pi .line).unmasked = true ∧
    QueueInv (pi .line) := by
  refine ⟨⟨_, rfl, rfl, rfl⟩, ?_⟩
  decide

/-- DropNewest, second clause: SVCRX with a full queue runs, with a unit to drop. -/
theorem witness_DropNewest :
    (∃ t, exec .svcrx { full with phase := .rx, rxne := true, rdr := 120 } = .next t) ∧ full.queue.length = 8 :=
  ⟨⟨_, rfl⟩, by decide⟩

/-- QueueRefusedBeforeBuilt. -/
theorem witness_QueueRefusedBeforeBuilt :
    (bare.qbuilt = false ∧ bare.issuer = none) ∧
    (State.reset.qbuilt = false ∧ State.reset.issuer = some .initialiser ∧ State.reset.owner = .init ∧
      State.reset.phase = .idle) := by decide

/-- TransformSubtracts: the three contexts it completes in and the one it stops in, and the two sides of 32. -/
theorem witness_TransformSubtracts :
    bare.issuer = none ∧ ((pi .initialiser).issuer = some .initialiser ∧ (pi .initialiser).phase = .idle) ∧
    ((serving .tx).issuer = some .sequencer ∧ (serving .tx).phase ≠ .idle) ∧
    ((serving .idle).issuer = some .sequencer ∧ (serving .idle).phase = .idle) ∧
    32 ≤ (32 : Datum).toNat ∧ (31 : Datum).toNat < 32 ∧ Config.xformLow = .wrap := by decide

/-- The controller, with a unit received before or after the handoff. -/
def requested (o : Owner) : State := { pi .controller with rxne := true, owner := o }

/-- EntryOfService: each clause. -/
theorem witness_EntryOfService :
    (∀ o ∈ [Owner.isr, .init], (requested o).issuer = some .controller ∧ (requested o).unmasked = true ∧
      (requested o).irq = true ∧ (requested o).phase = .idle ∧ (requested o).owner = o) ∧
    { pi .controller with unmasked := false }.unmasked = false ∧ (pi .controller).irq = false ∧
    { pi .controller with phase := .ovr }.phase ≠ .idle := by decide

/-- TransmitPhase: each clause, at the lengths 0, 1 and 2. -/
theorem witness_TransmitPhase :
    ((serving .rx).issuer = some .sequencer ∧ (serving .rx).owner = .isr ∧ (serving .rx).phase ≠ .tx) ∧
    ({ two with txe := false }.issuer = some .sequencer ∧ { two with txe := false }.owner = .isr ∧
      { two with txe := false }.phase = .tx ∧ { two with txe := false }.txe = false) ∧
    ((serving .tx).phase = .tx ∧ (serving .tx).txe = true ∧ (serving .tx).qbuilt = true ∧ (serving .tx).len.toNat = 0) ∧
    (one.issuer = some .sequencer ∧ one.owner = .isr ∧ one.phase = .tx ∧ one.txe = true ∧ one.qbuilt = true ∧
      one.len.toNat = 1) ∧
    (two.issuer = some .sequencer ∧ two.owner = .isr ∧ two.phase = .tx ∧ two.txe = true ∧ two.qbuilt = true ∧
      2 ≤ two.len.toNat) := by decide

/-- A state in phase RX with the unit `u` received. -/
def receiving (s : State) (u : Datum) : State := { s with phase := .rx, rxne := true, rdr := u }

/-- ReceivePhase: the two clauses in which nothing is received. -/
theorem witness_ReceivePhase_none :
    ((serving .tx).issuer = some .sequencer ∧ (serving .tx).owner = .isr ∧ (serving .tx).phase ≠ .rx) ∧
    ((serving .rx).issuer = some .sequencer ∧ (serving .rx).owner = .isr ∧ (serving .rx).phase = .rx ∧
      (serving .rx).rxne = false) := by decide

/-- ReceivePhase: the clauses in which a unit is received, at the lengths 0, 1, 7 and 8, with a unit at 32 and one below. -/
theorem witness_ReceivePhase :
    (∀ u : Datum, ∀ s ∈ [serving .tx, one, seven, full], (receiving s u).issuer = some .sequencer ∧
      (receiving s u).owner = .isr ∧ (receiving s u).phase = .rx ∧ (receiving s u).rxne = true ∧
      (receiving s u).qbuilt = true) ∧
    32 ≤ (receiving one 32).rdr.toNat ∧ (receiving one 31).rdr.toNat < 32 ∧ Config.xformLow = .wrap ∧
    (serving .tx).len.toNat = 0 ∧ 1 ≤ one.len.toNat ∧ seven.len.toNat < 8 ∧ 8 ≤ full.len.toNat := by
  refine ⟨fun u s hs => ?_, by decide, by decide, rfl, by decide, by decide, by decide, by decide⟩
  simp only [List.mem_cons, List.not_mem_nil, or_false] at hs
  rcases hs with rfl | rfl | rfl | rfl <;> exact ⟨rfl, rfl, rfl, rfl, rfl⟩

/-- OverrunPhaseAndReturn. -/
theorem witness_OverrunPhaseAndReturn :
    ((serving .ovr).issuer = some .sequencer ∧ (serving .ovr).owner = .isr ∧ (serving .ovr).phase = .ovr) ∧
    ((serving .rx).issuer = some .sequencer ∧ (serving .rx).owner = .isr ∧ (serving .rx).phase ≠ .ovr) := by decide

/-- A state between invocations with the flags of a row of R146, an overrun requesting service. -/
def entering (s : State) (txe rxne : Bool) : State := { s with phase := .idle, txe := txe, rxne := rxne, ore := true }

/-- ServiceInvocationTable: a state of each row of R146 (the lengths 0, 1, 2, 7 and 8), with a request. -/
theorem witness_ServiceInvocationTable :
    (∀ s ∈ [pi .line, one, two, seven, full], ∀ txe ∈ [false, true], ∀ rxne ∈ [false, true],
      UfcInv (entering s txe rxne) ∧ (entering s txe rxne).irq = true) ∧
    (∀ s ∈ [pi .line, one, two, seven, full], ∀ txe ∈ [false, true], ∀ rxne ∈ [false, true],
      (entering s txe rxne).owner = .isr ∧ (entering s txe rxne).unmasked = true ∧ (entering s txe rxne).phase = .idle) ∧
    (pi .line).len.toNat = 0 ∧ one.len.toNat = 1 ∧ two.len.toNat = 2 ∧ seven.len.toNat = 7 ∧ full.len.toNat = 8 :=
  ⟨by decide, by decide, by decide, by decide, by decide, by decide, by decide⟩

/-- A state between invocations with a unit in flight and nothing received. -/
def inFlight (s : State) : State := { s with phase := .idle, txe := false }

/-- DrainsInOrder: an empty, and a full queue behind a unit in flight. -/
theorem witness_DrainsInOrder :
    ∀ s ∈ [pi .line, full], UfcInv (inFlight s) ∧ (inFlight s).owner = .isr ∧ (inFlight s).unmasked = true ∧
      (inFlight s).phase = .idle ∧ (inFlight s).txe = false ∧ (inFlight s).rxne = false ∧ (inFlight s).ore = false := by
  decide

/-- RunsToCompletion: the sequencer steps in each phase, and the line inside an invocation. -/
theorem witness_RunsToCompletion :
    (∃ t, step (two.placeSteps [(some .sequencer, .svctx)]) = .next t ∧ t.issuer = some .sequencer) ∧
    (∃ t, step ((receiving two 120).placeSteps [(some .sequencer, .svcrx)]) = .next t ∧ t.issuer = some .sequencer) ∧
    (∃ t, step ((serving .ovr).placeSteps [(some .sequencer, .svcovr)]) = .next t ∧ t.issuer = some .sequencer) ∧
    (∃ t, step (two.placeSteps [(some .line, .rxarr 97)]) = .next t ∧ t.issuer = some .line) ∧ two.phase ≠ .idle :=
  ⟨⟨_, rfl, rfl⟩, ⟨_, rfl, rfl⟩, ⟨_, rfl, rfl⟩, ⟨_, rfl, rfl⟩, by decide⟩

/-- RequestPersists: IRQENT itself, with a request. -/
theorem witness_RequestPersists :
    (requested .isr).issuer ≠ none ∧ (requested .isr).owner = .isr ∧ (∃ t, exec .irqent (requested .isr) = .next t) ∧
    (requested .isr).irq = true ∧ Instr.irqent ≠ .svctx ∧ Instr.irqent ≠ .svcrx ∧ Instr.irqent ≠ .svcovr :=
  ⟨by decide, rfl, ⟨_, rfl⟩, by decide, by decide, by decide, by decide⟩

/-- ErrorKindsAreCounted: two kinds in one step, the queue full and a unit below 32. -/
theorem witness_ErrorKindsAreCounted :
    errorKinds .svcrx (receiving full 31) = [.queueFull, .arithmeticUnderflow] ∧
    ∃ t, exec .svcrx (receiving full 31) = .next t := ⟨by decide, _, rfl⟩

/-- PhasesAlwaysComplete: each phase. -/
theorem witness_PhasesAlwaysComplete :
    ∀ p ∈ [Phase.tx, .rx, .ovr], UfcInv (serving p) ∧ (serving p).issuer = some .sequencer ∧ (serving p).phase = p := by decide

/-- HandoffOnce: each clause. -/
theorem witness_HandoffOnce :
    (State.reset.issuer = some .initialiser ∧ State.reset.phase = .idle ∧ State.reset.owner = .init ∧
      State.reset.qbuilt = false) ∧
    ({ State.reset with qbuilt := true }.issuer = some .initialiser ∧ { State.reset with qbuilt := true }.phase = .idle ∧
      { State.reset with qbuilt := true }.owner = .init ∧ { State.reset with qbuilt := true }.qbuilt = true) ∧
    ((pi .initialiser).issuer = some .initialiser ∧ (pi .initialiser).owner = .isr ∧ (opcode .rdu).toNat < 0x20) := by decide

/-- UnmaskAndWait: before and after the handoff. -/
theorem witness_UnmaskAndWait :
    (State.reset.issuer = some .initialiser ∧ State.reset.phase = .idle ∧ State.reset.owner = .init) ∧
    ((pi .initialiser).issuer = some .initialiser ∧ (pi .initialiser).phase = .idle ∧ (pi .initialiser).owner = .isr) := by
  decide

/-- InitialiserIsDoneAfterHandoff. -/
theorem witness_InitialiserIsDoneAfterHandoff :
    ((pi .initialiser).issuer = some .initialiser ∧ (pi .initialiser).owner = .isr ∧
      (∃ t, exec .wfi (pi .initialiser) = .next t) ∧ (pi .initialiser).unmasked = true) ∧
    (∃ t, step ((pi .initialiser).placeSteps [(some .initialiser, .wfi)]) = .next t ∧ t.issuer = some .initialiser) ∧
    (∃ t, step ((pi .initialiser).placeSteps [(some .initialiser, .unmask)]) = .next t ∧ t.issuer = some .initialiser) :=
  ⟨⟨rfl, rfl, ⟨_, rfl⟩, rfl⟩, ⟨_, rfl, rfl⟩, ⟨_, rfl, rfl⟩⟩

/-- Arrival, TransmitRegisterDrains, LineTouchesOnlyItsFlags: the line, with either value of each flag. -/
theorem witness_line :
    (pi .line).issuer = some .line ∧ (pi .line).rxne = false ∧ { pi .line with rxne := true }.rxne = true ∧
    (pi .line).txe = true ∧ { pi .line with txe := false }.txe = false ∧
    (∃ t, exec .txdrn { pi .line with txe := false } = .next t) := ⟨rfl, rfl, rfl, rfl, rfl, _, rfl⟩

/-- StoresOnlyAtTail: a storing step with another slot than the tail. -/
theorem witness_StoresOnlyAtTail :
    (∃ t, exec (.enq 9) (ring (.replicate 8 0) 7 7 0) = .next t) ∧ (0 : Index) ≠ (ring (.replicate 8 0) 7 7 0).tail :=
  ⟨⟨_, rfl⟩, by decide⟩

/-- EveryStepKeepsInvariant: a step of an invocation from a state of the invariant. -/
theorem witness_EveryStepKeepsInvariant :
    UfcInv (two.placeSteps [(some .sequencer, .svctx)]) ∧ InContext (two.placeSteps [(some .sequencer, .svctx)]) ∧
    ∃ t, step (two.placeSteps [(some .sequencer, .svctx)]) = .next t := ⟨by decide, by decide, _, rfl⟩

/-- The first five steps of program P5. -/
def p5 : List Command :=
  [⟨some .line, 0x300061⟩, ⟨some .controller, 0x200000⟩, ⟨some .sequencer, 0x210000⟩, ⟨some .sequencer, 0x220000⟩,
    ⟨some .line, 0x300062⟩]

/-- MirrorInEveryReachedState. -/
theorem witness_MirrorInEveryReachedState :
    (∀ c ∈ p5, c.issuer ≠ none) ∧
    ∃ t, Host.Core.run core 5 { postInit {} with inbox := p5 } = .next t ∧ t.txeie = true := ⟨by decide, _, rfl, rfl⟩

/-- OnlyFaultIsUninitializedService: program P4, step 5. -/
theorem witness_OnlyFaultIsUninitializedService :
    exec .irqent (requested .init) = .fault .uninitializedService := rfl

/-- NoFaultAfterHandoff. -/
theorem witness_NoFaultAfterHandoff : (pi .line).owner = .isr := rfl

/-- PipelineInOrder: each of its three cases has a step. -/
theorem witness_PipelineInOrder :
    (UfcInv two ∧ two.issuer ≠ none ∧ ∃ t, exec .svctx two = .next t) ∧
    (UfcInv (pi .line) ∧ (pi .line).issuer ≠ none ∧ ∃ t, exec (.rxarr 97) (pi .line) = .next t) ∧
    (UfcInv (receiving full 120) ∧ (receiving full 120).issuer ≠ none ∧
      ∃ t, exec .svcrx (receiving full 120) = .next t) :=
  ⟨⟨by decide, by decide, _, rfl⟩, ⟨by decide, by decide, _, rfl⟩, ⟨by decide, by decide, _, rfl⟩⟩

/-- An arrival and the emptying of the transmit register, chosen. -/
def lineSteps : State := { pi .line with txe := false }.placeSteps [(some .line, .rxarr 97), (some .line, .txdrn)]

/-- LineIsImageOfArrivals. -/
theorem witness_LineIsImageOfArrivals :
    UfcInv lineSteps ∧ InContext lineSteps ∧
    ∃ t, Host.Core.run core 2 lineSteps = .next t ∧ t.tick = lineSteps.tick := ⟨by decide, by decide, _, rfl, rfl⟩

/-- UnspecifiedIsNeverRead: two states that differ in a stale slot, in RDR and in TDR. -/
theorem witness_UnspecifiedIsNeverRead :
    ((pi .line).qbuilt = true → QueueInv (pi .line)) ∧
    AgreeOnSpecified (pi .line) { pi .line with slots := (pi .line).slots.set 5 1, rdr := 7, tdr := 9 } ∧
    pi .line ≠ { pi .line with slots := (pi .line).slots.set 5 1, rdr := 7, tdr := 9 } :=
  ⟨by decide, ⟨rfl, by decide, by decide, by decide⟩, by decide⟩

/-- QuiescentMeansAllSent. -/
theorem witness_QuiescentMeansAllSent :
    UfcInv (pi .line) ∧ (pi .line).owner = .isr ∧ (pi .line).rxneie = true ∧ Quiescent (pi .line) := by decide

end Sys2Proof.Tests
end

