-- ==== Sys2Proof/Proofs/OneStep.lean ====
section
/-! SUPPORT. One step from a non-empty and from an empty inbox (spec/00_scope.md R8, R9). -/

namespace Sys2Proof.Machine

/-- From a non-empty inbox a step takes its commands, with no evaluation kept. -/
theorem step_of_inbox_cons {s : State} {c : Command} {rest : List Command} (hs : s.inbox = c :: rest) :
    step s = takeCommands (c :: rest) { s with evaluated := [] } := by
  rw [step_eq, hs]

/-- With an empty inbox the step is the free choice. -/
theorem step_of_inbox_nil {s : State} (hs : s.inbox = []) : step s = takeFree { s with evaluated := [] } := by
  rw [step_eq, hs, takeCommands]

/-- The first evaluation of a step is the first one kept. -/
theorem keepEvaluation_of_evaluated_nil {t : State} (ht : t.evaluated = []) :
    t.keepEvaluation = { t with evaluated := t.response.toList } := by
  rw [State.keepEvaluation, ht, List.nil_append]

/-- An evaluation leaves the evaluations kept before it. -/
theorem exec_evaluation_evaluated {i : Instr} {s t : State} (he : isEvaluation s.issuer i = true)
    (h : exec i s = .next t) : t.evaluated = s.evaluated := by
  rw [exec_evaluation he h]

/-- Settles O8: a first command that is no evaluation is the step; one that is an evaluation is taken in, and its response
is the only one kept so far, since a step begins with none. -/
theorem stepRunsDecodedCommand : Obligations.StepRunsDecodedCommand := by
  intro s c rest i hs hd
  refine ⟨fun hnot => ?step, fun hthread hxform => ?evaluation⟩
  case step =>
    have he : isEvaluation c.issuer i = false := Bool.eq_false_iff.2 (mt isEvaluation_iff.1 hnot)
    rw [step_of_inbox_cons hs, takeCommands_step _ hd he]
  case evaluation =>
    have he : isEvaluation c.issuer i = true := isEvaluation_iff.2 ⟨hthread, hxform⟩
    rw [step_of_inbox_cons hs, takeCommands_evaluation _ hd he]
    cases hx : exec i { s with issuer := c.issuer, inbox := rest, evaluated := [] } with
    | next t => exact congrArg (takeCommands rest) (keepEvaluation_of_evaluated_nil (exec_evaluation_evaluated he hx))
    | fault f => rfl
    | refused r => rfl

/-- Settles O9: the free choice by the decoding of the free word. It empties an inbox that is empty already. -/
theorem stepWithoutInboxIsFree : Obligations.StepWithoutInboxIsFree := by
  intro s hs
  rw [step_of_inbox_nil hs, takeFree]
  cases decode (Config.freeWord s.tick) with
  | error e => rfl
  | ok i => simp only [hs]

end Sys2Proof.Machine
end

