-- ==== Sys2Proof/Proofs/Frames.lean ====
section
/-! SUPPORT. The frame of every operation, one lemma per state element: the table of spec/10_state.md R43 and the phase
transitions of R33, each by cases on the paths of `Ran`. -/

namespace Sys2Proof.Machine

/-! ### afterRead -/

section

variable (s : State)

@[simp] theorem afterRead_slots : (afterRead s).slots = s.slots := by rw [afterRead_eq]
@[simp] theorem afterRead_head : (afterRead s).head = s.head := by rw [afterRead_eq]
@[simp] theorem afterRead_tail : (afterRead s).tail = s.tail := by rw [afterRead_eq]
@[simp] theorem afterRead_len : (afterRead s).len = s.len := by rw [afterRead_eq]
@[simp] theorem afterRead_qbuilt : (afterRead s).qbuilt = s.qbuilt := by rw [afterRead_eq]
@[simp] theorem afterRead_txeie : (afterRead s).txeie = s.txeie := by rw [afterRead_eq]
@[simp] theorem afterRead_rxneie : (afterRead s).rxneie = s.rxneie := by rw [afterRead_eq]
@[simp] theorem afterRead_txe : (afterRead s).txe = s.txe := by rw [afterRead_eq]
@[simp] theorem afterRead_ore : (afterRead s).ore = s.ore := by rw [afterRead_eq]
@[simp] theorem afterRead_rdr : (afterRead s).rdr = s.rdr := by rw [afterRead_eq]
@[simp] theorem afterRead_tdr : (afterRead s).tdr = s.tdr := by rw [afterRead_eq]
@[simp] theorem afterRead_unmasked : (afterRead s).unmasked = s.unmasked := by rw [afterRead_eq]
@[simp] theorem afterRead_owner : (afterRead s).owner = s.owner := by rw [afterRead_eq]
@[simp] theorem afterRead_txLine : (afterRead s).txLine = s.txLine := by rw [afterRead_eq]
@[simp] theorem afterRead_issuer : (afterRead s).issuer = s.issuer := by rw [afterRead_eq]
@[simp] theorem afterRead_inbox : (afterRead s).inbox = s.inbox := by rw [afterRead_eq]
@[simp] theorem afterRead_evaluated : (afterRead s).evaluated = s.evaluated := by rw [afterRead_eq]
@[simp] theorem afterRead_tick : (afterRead s).tick = s.tick := by rw [afterRead_eq]

end

/-! ### R43, row by row

Each lemma names the writers of one element; on every path of another operation the element is an unchanged field. -/

section

variable {i : Instr} {s t : State}

theorem Ran.slots_frame (h : Ran i s t) : i = .svcrx ∨ (∃ u, i = .enq u) ∨ t.slots = s.slots := by
  cases h <;> simp

theorem Ran.head_frame (h : Ran i s t) : i = .qnew ∨ i = .deq ∨ i = .svctx ∨ t.head = s.head := by
  cases h <;> simp

theorem Ran.tail_frame (h : Ran i s t) : i = .qnew ∨ (∃ u, i = .enq u) ∨ i = .svcrx ∨ t.tail = s.tail := by
  cases h <;> simp

theorem Ran.len_frame (h : Ran i s t) :
    i = .qnew ∨ (∃ u, i = .enq u) ∨ i = .deq ∨ i = .svctx ∨ i = .svcrx ∨ t.len = s.len := by
  cases h <;> simp

theorem Ran.qbuilt_frame (h : Ran i s t) : i = .qnew ∨ t.qbuilt = s.qbuilt := by cases h <;> simp

theorem Ran.txeie_frame (h : Ran i s t) :
    i = .txien ∨ i = .txidis ∨ i = .svctx ∨ i = .svcrx ∨ t.txeie = s.txeie := by
  cases h <;> simp

theorem Ran.rxneie_frame (h : Ran i s t) : i = .rxien ∨ t.rxneie = s.rxneie := by cases h <;> simp

theorem Ran.rxne_frame (h : Ran i s t) : i = .rdu ∨ i = .svcrx ∨ (∃ u, i = .rxarr u) ∨ t.rxne = s.rxne := by
  cases h <;> simp

theorem Ran.txe_frame (h : Ran i s t) : (∃ u, i = .wru u) ∨ i = .svctx ∨ i = .txdrn ∨ t.txe = s.txe := by
  cases h <;> simp

theorem Ran.ore_frame (h : Ran i s t) : i = .clrovr ∨ i = .svcovr ∨ (∃ u, i = .rxarr u) ∨ t.ore = s.ore := by
  cases h <;> simp

theorem Ran.rdr_frame (h : Ran i s t) : (∃ u, i = .rxarr u) ∨ t.rdr = s.rdr := by cases h <;> simp

theorem Ran.tdr_frame (h : Ran i s t) : (∃ u, i = .wru u) ∨ i = .svctx ∨ t.tdr = s.tdr := by cases h <;> simp

theorem Ran.unmasked_frame (h : Ran i s t) : i = .unmask ∨ t.unmasked = s.unmasked := by cases h <;> simp

theorem Ran.owner_frame (h : Ran i s t) : i = .handoff ∨ t.owner = s.owner := by cases h <;> simp

theorem Ran.txLine_frame (h : Ran i s t) : i = .txdrn ∨ t.txLine = s.txLine := by cases h <;> simp

/-- R33: the four phase transitions, and no other. -/
theorem Ran.phase_order (h : Ran i s t) :
    (i = .irqent ∧ s.phase = .idle ∧ t.phase = .tx) ∨ (i = .svctx ∧ s.phase = .tx ∧ t.phase = .rx) ∨
    (i = .svcrx ∧ s.phase = .rx ∧ t.phase = .ovr) ∨ (i = .svcovr ∧ s.phase = .ovr ∧ t.phase = .idle) ∨
    (i ≠ .irqent ∧ i ≠ .svctx ∧ i ≠ .svcrx ∧ i ≠ .svcovr ∧ t.phase = s.phase) := by
  cases h
  case irqent hp _ => exact .inl ⟨rfl, hp, rfl⟩
  case svctxNotReady hp _ | svctxEmpty hp _ _ _ | svctxLast hp _ _ _ _ | svctxMore hp _ _ _ _ =>
    exact .inr (.inl ⟨rfl, hp, rfl⟩)
  case svcrxNone hp _ | svcrxFull hp _ _ _ _ | svcrxFirst hp _ _ _ _ _ | svcrxNext hp _ _ _ _ _ =>
    exact .inr (.inr (.inl ⟨rfl, hp, rfl⟩))
  case svcovr hp => exact .inr (.inr (.inr (.inl ⟨rfl, hp, rfl⟩)))
  all_goals exact .inr (.inr (.inr (.inr ⟨nofun, nofun, nofun, nofun, rfl⟩)))

theorem Ran.phase_frame (h : Ran i s t) :
    i = .irqent ∨ i = .svctx ∨ i = .svcrx ∨ i = .svcovr ∨ t.phase = s.phase := by
  rcases h.phase_order with ⟨hi, _⟩ | ⟨hi, _⟩ | ⟨hi, _⟩ | ⟨hi, _⟩ | ⟨_, _, _, _, hp⟩ <;> simp [*]

/-- What chooses and records the steps is no operation's to write. -/
theorem Ran.own_fields_frame (h : Ran i s t) :
    t.issuer = s.issuer ∧ t.inbox = s.inbox ∧ t.evaluated = s.evaluated ∧ t.tick = s.tick := by
  cases h <;> simp

end

/-- Settles O34 by the paths of `Ran`. -/
theorem phaseOrder : Obligations.PhaseOrder := fun _ _ _ h => (ran_of_exec h).phase_order

/-- Settles O48, one frame lemma for each row of R43. -/
theorem writtenOnlyByItsWriters : Obligations.WrittenOnlyByItsWriters := by
  intro i s t h
  have h := ran_of_exec h
  exact ⟨h.slots_frame, h.head_frame, h.tail_frame, h.len_frame, h.qbuilt_frame, h.txeie_frame, h.rxneie_frame,
    h.rxne_frame, h.txe_frame, h.ore_frame, h.rdr_frame, h.tdr_frame, h.unmasked_frame, h.phase_frame, h.owner_frame,
    h.txLine_frame, h.own_fields_frame⟩

end Sys2Proof.Machine
end

