-- ==== Sys2Proof/Proofs/Invariant.lean ====
section
/-! SUPPORT. What every step keeps: ownership (spec/10_state.md R32, R34, R35), the invariant of the agents' runs (R24, R33,
R39); its base at power-on (R41) and after the initialisation (R42). -/

namespace Sys2Proof.Machine

/-- A step is one path of one operation, from a state that differs from `s` in the model's own fields alone. -/
theorem ran_of_step {s t : State} (h : step s = .next t) :
    ∃ i u, Ran i u t ∧ Took s.inbox s i u ∧
      u = { s with
        issuer := u.issuer, inbox := u.inbox, response := u.response, evaluated := u.evaluated, tick := u.tick } := by
  obtain ⟨i, u, hx, _, ht, hu⟩ := step_next h
  exact ⟨i, u, ran_of_exec hx, ht, hu⟩

/-! ### Ownership (R32, R34, R35) -/

/-- The three bits that nothing undoes: each that is set in `s` is set in `t`. -/
abbrev OwnershipKept (s t : State) : Prop :=
  (s.owner = .isr → t.owner = .isr) ∧ (s.qbuilt = true → t.qbuilt = true) ∧ (s.unmasked = true → t.unmasked = true)

theorem Ran.ownershipKept {i : Instr} {s t : State} (h : Ran i s t) : OwnershipKept s t := by
  refine ⟨?owner, ?qbuilt, ?unmasked⟩
  case owner =>
    rcases h.owner_frame with rfl | ho
    · cases h; exact fun _ => rfl
    · exact fun hs => ho.trans hs
  case qbuilt =>
    rcases h.qbuilt_frame with rfl | hq
    · cases h; exact fun _ => rfl
    · exact fun hs => hq.trans hs
  case unmasked =>
    rcases h.unmasked_frame with rfl | hm
    · cases h; exact fun _ => rfl
    · exact fun hs => hm.trans hs

theorem step_ownershipKept {s t : State} (h : step s = .next t) : OwnershipKept s t := by
  obtain ⟨i, u, hr, _, hu⟩ := ran_of_step h
  have hk := hr.ownershipKept
  rw [hu] at hk
  exact hk

theorem OwnershipKept.trans {s t u : State} (h : OwnershipKept s t) (h' : OwnershipKept t u) : OwnershipKept s u := by
  obtain ⟨ho, hb, hm⟩ := h
  obtain ⟨ho', hb', hm'⟩ := h'
  exact ⟨ho' ∘ ho, hb' ∘ hb, hm' ∘ hm⟩

/-- Settles O43: what each step keeps of the three bits, a run keeps. -/
theorem ownershipNeverReturns : Obligations.OwnershipNeverReturns := by
  intro k s t h
  exact run_keeps (P := OwnershipKept s) (fun _ _ hk hstep => hk.trans (step_ownershipKept hstep)) k s t
    ⟨id, id, id⟩ h

/-! ### The invariant (R24, R33 to R35, R39) -/

/-- After the handoff the invariant is a built queue in order, mirrored by TXEIE, and service only while unmasked. -/
theorem ufcInv_of_isr {s : State} (ho : s.owner = .isr) (hb : s.qbuilt = true) (hq : QueueInv s) (hm : Mirror s)
    (hu : s.phase ≠ .idle → s.unmasked = true) : UfcInv s :=
  ⟨fun _ => hq, fun _ => ⟨hb, hm⟩, fun h => (nomatch ho.symm.trans h), hu⟩

theorem mirror_of_empty {s : State} (ht : s.txeie = false) (he : s.queueEmpty = true) : Mirror s := by
  simp [Mirror, ht, queueEmpty_iff.1 he]

theorem mirror_of_nonempty {s : State} (ht : s.txeie = true) (he : 0 < s.len.toNat) : Mirror s := by
  simp [Mirror, ht, he]

theorem pushTail_nonempty {s : State} (u : Datum) (hf : s.queueFull = false) : 0 < (pushTail u s).len.toNat := by
  rw [pushTail_len_toNat u hf]; omega

theorem queueInv_buildQueue (s : State) : QueueInv s.buildQueue := ⟨Nat.zero_le _, (indexAfter_zero _).symm⟩

/-- A phase keeps the invariant when it keeps the ring in order and TXEIE its mirror. -/
theorem ufcInv_after_phase {s t : State} (hs : UfcInv s) (ha : admission .phase s = none) (hp : s.phase ≠ .idle)
    (ho : t.owner = s.owner) (hb : t.qbuilt = s.qbuilt) (hu : t.unmasked = s.unmasked)
    (hq : QueueInv s → QueueInv t) (hm : Mirror s → Mirror t) : UfcInv t := by
  obtain ⟨hsq, hsisr, _, hsu⟩ := hs
  have hisr := (issuer_of_phase ha).2
  obtain ⟨hsb, hsm⟩ := hsisr hisr
  exact ufcInv_of_isr (ho.trans hisr) (hb.trans hsb) (hq (hsq hsb)) (hm hsm) fun _ => hu.trans (hsu hp)

/-- Every path of an operation that an agent issued keeps the invariant. -/
theorem Ran.keeps_ufcInv {i : Instr} {s t : State} (h : Ran i s t) (hi : s.issuer ≠ none) (hs : UfcInv s) :
    UfcInv t := by
  have ⟨hq, hisr, hinit, hm⟩ := hs
  cases h
  case rxrdy ha | txrdy ha | ovr ha | rdu ha _ | wru ha _ | clrovr ha | txien ha | txidis ha | enqFull ha _ _ |
      enqOk ha _ _ | deqNone ha _ _ | deqSome ha _ _ | qempty ha _ | qlen ha _ =>
    exact absurd (issuer_of_handle ha) hi
  case rxien | xform | wfi | rxarrLoad | rxarrOverrun | txdrn => exact ⟨hq, hisr, hinit, hm⟩
  case qnew ha _ =>
    rcases issuer_of_setup ha with hn | ⟨_, ho, hp⟩
    · exact absurd hn hi
    · obtain ⟨_, htx, _⟩ := hinit ho
      exact ⟨fun _ => queueInv_buildQueue s, fun h => (nomatch ho.symm.trans h), fun _ => ⟨hp, htx, fun _ => rfl⟩, hm⟩
  case irqent ha hum _ _ ho =>
    obtain ⟨hb, hmir⟩ := hisr ho
    exact ufcInv_of_isr ho hb (hq hb) hmir fun _ => hum
  case handoff ha ho hb =>
    obtain ⟨_, htx, hlen⟩ := hinit ho
    exact ufcInv_of_isr rfl hb (hq hb) (mirror_of_empty htx (queueEmpty_iff.2 (by simp [hlen hb]))) hm
  case unmask => exact ⟨hq, hisr, hinit, fun _ => rfl⟩
  case svcovr ha hp | svctxNotReady ha hp _ | svcrxNone ha hp _ =>
    exact ufcInv_after_phase hs ha (by simp [hp]) rfl rfl rfl id id
  case svctxEmpty ha hp _ _ he =>
    exact ufcInv_after_phase hs ha (by simp [hp]) rfl rfl rfl id fun _ => mirror_of_empty rfl he
  case svctxLast ha hp _ _ he hl =>
    exact ufcInv_after_phase hs ha (by simp [hp]) rfl rfl rfl (fun hq => (popHead_spec hq he).2)
      fun _ => mirror_of_empty rfl hl
  case svctxMore ha hp _ _ he hl =>
    exact ufcInv_after_phase hs ha (by simp [hp]) rfl rfl rfl (fun hq => (popHead_spec hq he).2)
      fun hm => mirror_of_nonempty (hm.2 (queueEmpty_false.1 he)) (queueEmpty_false.1 hl)
  case svcrxFull ha hp _ _ _ _ =>
    rw [afterRead_eq]
    exact ufcInv_after_phase hs ha (by simp [hp]) rfl rfl rfl id id
  case svcrxFirst d ha hp _ _ hf _ _ =>
    rw [afterRead_eq]
    exact ufcInv_after_phase hs ha (by simp [hp]) rfl rfl rfl (fun hq => (pushTail_spec d hq hf).2)
      fun _ => mirror_of_nonempty rfl (pushTail_nonempty d hf)
  case svcrxNext d ha hp _ _ hf he _ =>
    rw [afterRead_eq]
    exact ufcInv_after_phase hs ha (by simp [hp]) rfl rfl rfl (fun hq => (pushTail_spec d hq hf).2)
      fun hm => mirror_of_nonempty (hm.2 (queueEmpty_false.1 he)) (pushTail_nonempty d hf)

/-- A step from an inbox of agents' commands is an agent's, and leaves such an inbox. -/
theorem Took.inContext {s u : State} {i : Instr} (h : Took s.inbox s i u) (hs : InContext s) :
    u.issuer ≠ none ∧ InContext u := by
  cases h with
  | chosen pre c hcs _ hi _ _ =>
    have hmem : ∀ d ∈ c :: u.inbox, d.issuer ≠ none := fun d hd => hs d (hcs ▸ List.mem_append_right pre hd)
    exact ⟨hi ▸ hmem c List.mem_cons_self, fun d hd => hmem d (List.mem_cons_of_mem c hd)⟩
  | free _ hu hi _ _ => exact ⟨by simp [hi], by simp [InContext, hu]⟩

/-- Settles O50: the step is an agent's, so the path of its operation keeps the invariant, and no operation writes the
inbox. -/
theorem everyStepKeepsInvariant : Obligations.EveryStepKeepsInvariant := by
  intro s t hs hc h
  obtain ⟨i, u, hr, ht, hu⟩ := ran_of_step h
  obtain ⟨hi, hcu⟩ := ht.inContext hc
  have hus : UfcInv u := by rw [hu]; exact hs
  obtain ⟨_, hinbox, _, _⟩ := hr.own_fields_frame
  exact ⟨hr.keeps_ufcInv hi hus, by rw [InContext, hinbox]; exact hcu⟩

/-- Settles O51: before QNEW and HANDOFF the invariant asks for the idle phase and TXEIE 0 only. -/
theorem invariantAtPowerOn : Obligations.InvariantAtPowerOn := fun _ =>
  ⟨⟨nofun, nofun, fun _ => ⟨rfl, rfl, nofun⟩, fun h => absurd rfl h⟩, nofun⟩

theorem ufcInv_postInit (d : Draw) : UfcInv (postInit d) :=
  ufcInv_of_isr rfl rfl (queueInv_buildQueue (postInit d)) (mirror_of_empty rfl rfl) fun _ => rfl

/-- The invariant, with the initialisation over: what every state reached from R42's has. -/
abbrev InService (s : State) : Prop := UfcInv s ∧ InContext s ∧ s.owner = .isr

theorem step_keeps_inService (s t : State) (hs : InService s) (h : step s = .next t) : InService t := by
  obtain ⟨hu, hc, ho⟩ := hs
  obtain ⟨hut, hct⟩ := everyStepKeepsInvariant s t hu hc h
  exact ⟨hut, hct, (step_ownershipKept h).1 ho⟩

/-- Settles O52: the mirror of R39 is part of the invariant, and ownership is never given back. -/
theorem mirrorInEveryReachedState : Obligations.MirrorInEveryReachedState := by
  intro d cs k t hcs h
  have hpost : InService { postInit d with inbox := cs } := ⟨ufcInv_postInit d, hcs, rfl⟩
  obtain ⟨⟨hq, hisr, _⟩, _, ho⟩ := run_keeps step_keeps_inService k _ t hpost h
  obtain ⟨hb, hm⟩ := hisr ho
  exact ⟨ho, hm, hq hb⟩

/-! ### Power-on and the request -/

/-- Settles O26, from the Boolean equation that defines `irq`. -/
theorem requestEquation : Obligations.RequestEquation := fun s => by
  simp only [State.irq, Bool.or_eq_true, Bool.and_eq_true]

/-- Settles O41: both runs are five steps on chosen commands, so that they compute with the draw and the rest of the inbox
left free. -/
theorem initReachesPostInit : Obligations.InitReachesPostInit := fun _ _ => ⟨rfl, rfl⟩

/-- Settles O59: each value stands in `State.powerOn`, whose default draw is the one `State.reset` takes. -/
theorem resetValues : Obligations.ResetValues :=
  ⟨fun _ => ⟨rfl, rfl, rfl, rfl, rfl, rfl, rfl, rfl, rfl, rfl, rfl, rfl, rfl, rfl, rfl, rfl, rfl⟩, {}, rfl⟩

end Sys2Proof.Machine
end

