-- ==== Sys2Proof/Proofs/RingAsList.lean ====
section
/-! SUPPORT. The ring of slots and the abstract queue of spec/10_state.md R23 run in step, operation by operation (R122 to
R125) and so over any sequence of queue operations. -/

namespace Sys2Proof.Machine

/-- Outside any context with a built queue in order (R24, R90): where the queue operations run alone. -/
abbrev RingReady (s : State) : Prop := s.issuer = none ∧ s.qbuilt = true ∧ QueueInv s

theorem admission_handle_of_outside {s : State} (h : s.issuer = none) : admission .handle s = none := by
  simp [admission, h, admissionOutside]

/-- `RunsAs i s r q`: operation `i` completes in `s` with result `r`, leaving a ring ready that holds `q`. -/
abbrev RunsAs (i : Instr) (s : State) (r : Result) (q : List Datum) : Prop :=
  ∃ u : State, exec i s = .next (u.respond r) ∧ u.queue = q ∧ RingReady u

theorem queue_isEmpty (s : State) : s.queue.isEmpty = s.queueEmpty := by
  rw [Bool.eq_iff_iff, List.isEmpty_iff, ← List.length_eq_zero_iff, queue_length, queueEmpty_iff]

theorem enq_runsAs {s : State} {u : Datum} {r : Result} {q : List Datum} (hs : RingReady s)
    (h : listEnq u s.queue = (r, q)) : RunsAs (.enq u) s r q := by
  obtain ⟨hi, hb, hq⟩ := hs
  have hexec : exec (.enq u) s = .next (if s.queueFull then s.respond (.enq .full)
      else (pushTail u s).respond (.enq .ok)) :=
    execEnq_next.2 ⟨admission_handle_of_outside hi, hb, rfl⟩
  rw [listEnq, queue_length] at h
  cases hf : s.queueFull with
  | true =>
    rw [if_neg (Nat.not_lt.2 (queueFull_iff.1 hf))] at h
    cases h
    exact ⟨s, by rw [hexec, if_pos hf], rfl, hi, hb, hq⟩
  | false =>
    rw [if_pos (queueFull_false.1 hf)] at h
    cases h
    obtain ⟨hpush, hinv⟩ := pushTail_spec u hq hf
    exact ⟨pushTail u s, by rw [hexec, hf]; rfl, hpush, hi, hb, hinv⟩

theorem deq_runsAs {s : State} {r : Result} {q : List Datum} (hs : RingReady s) (h : listDeq s.queue = (r, q)) :
    RunsAs .deq s r q := by
  obtain ⟨hi, hb, hq⟩ := hs
  have hexec : exec .deq s = .next (if s.queueEmpty then s.respond (.option none)
      else (popHead s).respond (.option (some (memRead s s.head)))) :=
    execDeq_next.2 ⟨admission_handle_of_outside hi, hb, rfl⟩
  cases he : s.queueEmpty with
  | true =>
    have hnil := queue_of_empty he
    rw [hnil] at h
    cases h
    exact ⟨s, by rw [hexec, if_pos he], hnil, hi, hb, hq⟩
  | false =>
    obtain ⟨hpop, hinv⟩ := popHead_spec hq he
    rw [hpop] at h
    cases h
    exact ⟨popHead s, by rw [hexec, he]; rfl, rfl, hi, hb, hinv⟩

theorem qempty_runsAs {s : State} (hs : RingReady s) : RunsAs .qempty s (.bool s.queue.isEmpty) s.queue := by
  rw [queue_isEmpty]
  obtain ⟨hi, hb, hq⟩ := hs
  exact ⟨s, execQempty_next.2 ⟨admission_handle_of_outside hi, hb, rfl⟩, rfl, hi, hb, hq⟩

theorem qlen_runsAs {s : State} (hs : RingReady s) : RunsAs .qlen s (.length (listLen s.queue)) s.queue := by
  rw [listLen_queue]
  obtain ⟨hi, hb, hq⟩ := hs
  exact ⟨s, execQlen_next.2 ⟨admission_handle_of_outside hi, hb, rfl⟩, rfl, hi, hb, hq⟩

/-- Every operation that the abstract queue has runs on the ring as it does there. -/
theorem runsAs_of_listOp {i : Instr} {s : State} {r : Result} {q : List Datum} (hs : RingReady s)
    (h : listOp i s.queue = some (r, q)) : RunsAs i s r q := by
  cases i
  case enq u => exact enq_runsAs hs (Option.some.inj h)
  case deq => exact deq_runsAs hs (Option.some.inj h)
  case qempty => cases h; exact qempty_runsAs hs
  case qlen => cases h; exact qlen_runsAs hs
  all_goals cases h

theorem execSeq_cons {i : Instr} {is : List Instr} {s u : State} {r : Result} (h : exec i s = .next (u.respond r)) :
    execSeq (i :: is) s = (execSeq is (u.respond r)).map fun p => (encodeResult r :: p.1, p.2) := by
  simp only [execSeq, h, State.respond_response]

theorem listOps_cons {i : Instr} {is : List Instr} {q q' : List Datum} {rs : List Result}
    (h : listOps (i :: is) q = some (rs, q')) :
    ∃ r q₁ rs₁, listOp i q = some (r, q₁) ∧ listOps is q₁ = some (rs₁, q') ∧ rs = r :: rs₁ := by
  cases hop : listOp i q with
  | none => simp [listOps, hop] at h
  | some p =>
    simp only [listOps, hop, Option.map_eq_some_iff] at h
    obtain ⟨⟨rs₁, q₂⟩, hrest, hp⟩ := h
    cases hp
    exact ⟨p.1, p.2, rs₁, rfl, hrest, rfl⟩

/-- Settles O22, by induction on the operations: each runs on the ring as on Q and leaves a ring ready for the rest. -/
theorem ringRefinesList : Obligations.RingRefinesList := by
  intro is
  induction is with
  | nil =>
    intro s rs q _ _ hq h
    cases h
    exact ⟨s, rfl, rfl, hq⟩
  | cons i is ih =>
    intro s rs q hi hb hq h
    obtain ⟨r, q₁, rs₁, hop, hrest, rfl⟩ := listOps_cons h
    obtain ⟨u, hexec, rfl, hui, hub, huq⟩ := runsAs_of_listOp ⟨hi, hb, hq⟩ hop
    obtain ⟨t, hseq, ht⟩ := ih (u.respond r) rs₁ q hui hub huq (by rw [queue_respond]; exact hrest)
    exact ⟨t, by rw [execSeq_cons hexec, hseq]; rfl, ht⟩

end Sys2Proof.Machine
end

