-- ==== Sys2Proof/Proofs/Lockstep.lean ====
section
/-! SUPPORT. A relation between states that the bare updates keep and under which the operations read the same is kept by
every operation: two runs from related states are in lockstep. Two such relations: equality but for the ghosts
(spec/10_state.md R37, R38) and agreement on what the spec fixes (R21, R22, R30, R31, R41). -/

namespace Sys2Proof.Machine

/-! ### Computations in step -/

/-- Both computations complete with related values, or both stop for the same reason. -/
def InStep {α β : Type} (P : α → β → Prop) : Except Stop α → Except Stop β → Prop
  | .ok a,    .ok b    => P a b
  | .error e, .error f => e = f
  | _,        _        => False

/-- Both outcomes are next states that are related, or the same fault, or the same refusal. -/
def OutcomesInStep (R : State → State → Prop) : Outcome → Outcome → Prop
  | .next s,    .next t    => R s t
  | .fault f,   .fault g   => f = g
  | .refused r, .refused q => r = q
  | _,          _          => False

/-- The same result, and related states. -/
abbrev SameResult {α : Type} (R : State → State → Prop) (p q : α × State) : Prop := p.1 = q.1 ∧ R p.2 q.2

section

variable {α β γ δ : Type} {P : α → β → Prop} {Q : γ → δ → Prop} {x : Except Stop α} {y : Except Stop β}

theorem inStep_cases (h : InStep P x y) :
    (∃ a b, x = .ok a ∧ y = .ok b ∧ P a b) ∨ ∃ e, x = .error e ∧ y = .error e := by
  cases x <;> cases y <;> simp_all [InStep]

theorem InStep.map {f : α → γ} {g : β → δ} (h : InStep P x y) (hfg : ∀ a b, P a b → Q (f a) (g b)) :
    InStep Q (x.map f) (y.map g) := by
  rcases inStep_cases h with ⟨a, b, rfl, rfl, hab⟩ | ⟨e, rfl, rfl⟩
  · exact hfg a b hab
  · rfl

theorem InStep.bind {f : α → Except Stop γ} {g : β → Except Stop δ} (h : InStep P x y)
    (hfg : ∀ a b, P a b → InStep Q (f a) (g b)) : InStep Q (x.bind f) (y.bind g) := by
  rcases inStep_cases h with ⟨a, b, rfl, rfl, hab⟩ | ⟨e, rfl, rfl⟩
  · exact hfg a b hab
  · rfl

end

theorem inStep_self {α : Type} (x : Except Stop α) : InStep Eq x x := by
  cases x <;> rfl

theorem outcomesInStep_cases {R : State → State → Prop} {x y : Outcome} (h : OutcomesInStep R x y) :
    (∃ s t, x = .next s ∧ y = .next t ∧ R s t) ∨ (∃ f, x = .fault f ∧ y = .fault f) ∨
      ∃ r, x = .refused r ∧ y = .refused r := by
  cases x <;> cases y <;> simp_all [OutcomesInStep]

theorem whenEnabled_inStep {R : State → State → Prop} {c d : Bool} {x y : Except Stop (Result × State)} (hc : c = d)
    (h : c = true → InStep (SameResult R) x y) : InStep (SameResult R) (whenEnabled c x) (whenEnabled d y) := by
  subst hc
  cases c
  · rfl
  · exact h rfl

theorem whenBuilt_inStep {α : Type} {P : α → α → Prop} {s t : State} {a b : α} (hb : s.qbuilt = t.qbuilt)
    (h : s.qbuilt = true → P a b) : InStep P (whenBuilt s a) (whenBuilt t b) := by
  unfold whenBuilt
  rw [← hb]
  split
  · exact h ‹_›
  · rfl

/-! ### Lockstep relations -/

/-- What an operation can read of a state is the same in both: RDR only while RXNE is 1, the queue only once it is built, and
its oldest unit only while there is one. -/
structure SameReads (s t : State) : Prop where
  issuer : s.issuer = t.issuer
  phase : s.phase = t.phase
  owner : s.owner = t.owner
  unmasked : s.unmasked = t.unmasked
  irq : s.irq = t.irq
  rxne : s.rxne = t.rxne
  txe : s.txe = t.txe
  ore : s.ore = t.ore
  qbuilt : s.qbuilt = t.qbuilt
  rdr : s.rxne = true → s.rdr = t.rdr
  len : s.qbuilt = true → s.len = t.len
  oldest : s.qbuilt = true → s.queueEmpty = false → memRead s s.head = memRead t t.head

theorem SameReads.admission {s t : State} (h : SameReads s t) (k : OpClass) : admission k s = admission k t := by
  simp only [Machine.admission, admissionInitialiser, admissionSequencer, h.issuer, h.owner, h.phase]

theorem SameReads.queueEmpty {s t : State} (h : SameReads s t) (hb : s.qbuilt = true) :
    s.queueEmpty = t.queueEmpty := by
  rw [State.queueEmpty, State.queueEmpty, h.len hb]

theorem SameReads.queueFull {s t : State} (h : SameReads s t) (hb : s.qbuilt = true) :
    s.queueFull = t.queueFull := by
  rw [State.queueFull, State.queueFull, h.len hb]

/-- A relation under which operations read the same and which every bare update of an operation keeps, where the operation
makes it. -/
structure Lockstep (R : State → State → Prop) : Prop where
  reads {s t : State} : R s t → SameReads s t
  respond {s t : State} (r : Result) : R s t → R (s.respond r) (t.respond r)
  setPhase {s t : State} (p : Phase) : R s t → R (s.setPhase p) (t.setPhase p)
  giveToIsr {s t : State} : R s t → R s.giveToIsr t.giveToIsr
  setUnmasked {s t : State} : R s t → R s.setUnmasked t.setUnmasked
  clearRxne {s t : State} : R s t → R s.clearRxne t.clearRxne
  clearOre {s t : State} : R s t → R s.clearOre t.clearOre
  setOre {s t : State} : R s t → R s.setOre t.setOre
  setRxneie {s t : State} : R s t → R s.setRxneie t.setRxneie
  enableTx {s t : State} : R s t → R s.enableTx t.enableTx
  disableTx {s t : State} : R s t → R s.disableTx t.disableTx
  countDropFull {s t : State} : R s t → R s.countDropFull t.countDropFull
  countDropOvr {s t : State} : R s t → R s.countDropOvr t.countDropOvr
  countSpurious {s t : State} : R s t → R s.countSpurious t.countSpurious
  countUnderflow {s t : State} (u : Datum) : R s t → R (s.countUnderflow u) (t.countUnderflow u)
  send {s t : State} (u : Datum) : R s t → R (s.loadTdr u).clearTxe (t.loadTdr u).clearTxe
  receive {s t : State} (u : Datum) : R s t → R (s.loadRdr u).setRxne (t.loadRdr u).setRxne
  drain {s t : State} : R s t → s.txe = false → R s.emitTdr.setTxe t.emitTdr.setTxe
  buildQueue {s t : State} : R s t → s.qbuilt = false → R s.buildQueue t.buildQueue
  pushTail {s t : State} (u : Datum) : R s t → s.qbuilt = true → s.queueFull = false → R (pushTail u s) (pushTail u t)
  popHead {s t : State} : R s t → s.qbuilt = true → s.queueEmpty = false → R (popHead s) (popHead t)

section

variable {R : State → State → Prop} (hR : Lockstep R) {s t : State} (h : R s t)

include hR h

/-! ### The bare operations in lockstep -/

theorem opRdu_inStep : InStep (SameResult R) (opRdu s) (opRdu t) := by
  have hr := hR.reads h
  unfold opRdu
  rw [← hr.rxne]
  split
  · exact ⟨hr.rdr ‹_›, hR.clearRxne h⟩
  · rfl

theorem opWru_inStep (u : Datum) : InStep R (opWru u s) (opWru u t) := by
  unfold opWru
  rw [← (hR.reads h).txe]
  split
  · exact hR.send u h
  · rfl

theorem opQnew_inStep : InStep R (opQnew s) (opQnew t) := by
  unfold opQnew
  rw [← (hR.reads h).qbuilt]
  split
  · rfl
  · exact hR.buildQueue h (Bool.eq_false_iff.2 ‹_›)

theorem opEnq_inStep (u : Datum) : InStep (SameResult R) (opEnq u s) (opEnq u t) := by
  have hr := hR.reads h
  refine whenBuilt_inStep hr.qbuilt fun hb => ?_
  rw [← hr.queueFull hb]
  split
  · exact ⟨rfl, h⟩
  · exact ⟨rfl, hR.pushTail u h hb (Bool.eq_false_iff.2 ‹_›)⟩

theorem opDeq_inStep : InStep (SameResult R) (opDeq s) (opDeq t) := by
  have hr := hR.reads h
  refine whenBuilt_inStep hr.qbuilt fun hb => ?_
  rw [← hr.queueEmpty hb]
  split
  · exact ⟨rfl, h⟩
  · have he : s.queueEmpty = false := Bool.eq_false_iff.2 ‹_›
    exact ⟨congrArg some (hr.oldest hb he), hR.popHead h hb he⟩

theorem opQempty_inStep : InStep Eq (opQempty s) (opQempty t) :=
  whenBuilt_inStep (hR.reads h).qbuilt (hR.reads h).queueEmpty

theorem opQlen_inStep : InStep Eq (opQlen s) (opQlen t) :=
  whenBuilt_inStep (hR.reads h).qbuilt (hR.reads h).len

theorem opHandoff_inStep : InStep R (opHandoff s) (opHandoff t) := by
  unfold opHandoff
  rw [← (hR.reads h).owner, ← (hR.reads h).qbuilt]
  split
  · rfl
  · split
    · exact hR.giveToIsr h
    · rfl

theorem enterService_inStep : InStep R (enterService s) (enterService t) := by
  unfold enterService
  rw [← (hR.reads h).owner]
  split
  · exact hR.setPhase .tx h
  · rfl

theorem opRxarr_inStep (u : Datum) : R (opRxarr u s) (opRxarr u t) := by
  unfold opRxarr
  rw [← (hR.reads h).rxne]
  split
  · exact hR.countDropOvr (hR.setOre h)
  · exact hR.receive u h

/-! ### The phases in lockstep -/

theorem serviceTx_inStep : InStep R (serviceTx s) (serviceTx t) := by
  unfold serviceTx
  rw [show opTxrdy t = opTxrdy s from (hR.reads h).txe.symm]
  split
  · refine (opDeq_inStep hR h).bind fun ⟨o, s₁⟩ ⟨o', t₁⟩ ⟨ho, h₁⟩ => ?_
    obtain rfl : o = o' := ho
    cases o with
    | none => exact hR.countSpurious (hR.disableTx h₁)
    | some u =>
      refine (opWru_inStep hR h₁ u).bind fun s₂ t₂ h₂ => (opQempty_inStep hR h₂).map fun e _ he => ?_
      subst he
      cases e
      · exact h₂
      · exact hR.disableTx h₂
  · exact h

theorem serviceRx_inStep : InStep R (serviceRx s) (serviceRx t) := by
  unfold serviceRx
  rw [show opRxrdy t = opRxrdy s from (hR.reads h).rxne.symm]
  split
  · refine (opRdu_inStep hR h).bind fun ⟨u, s₁⟩ ⟨u', t₁⟩ ⟨hu, h₁⟩ => ?_
    obtain rfl : u = u' := hu
    have h₂ := hR.countUnderflow u h₁
    refine (inStep_self (opXform u)).bind fun d _ hd => (opQempty_inStep hR h₂).bind fun e _ he => ?_
    subst hd he
    refine (opEnq_inStep hR h₂ d).map fun ⟨r, s₃⟩ ⟨r', t₃⟩ ⟨hr, h₃⟩ => ?_
    obtain rfl : r = r' := hr
    cases r with
    | full => exact hR.countDropFull h₃
    | ok =>
      cases e
      · exact h₃
      · exact hR.enableTx h₃
  · exact h

theorem serviceOvr_inStep : R (serviceOvr s) (serviceOvr t) := by
  rw [serviceOvr_eq, serviceOvr_eq]
  exact hR.clearOre h

/-! ### Every operation in lockstep -/

omit h in
theorem settle_inStep {x y : Except Stop (Result × State)} (hxy : InStep (SameResult R) x y) :
    OutcomesInStep R (settle x) (settle y) := by
  rcases inStep_cases hxy with ⟨⟨r, u⟩, ⟨r', v⟩, rfl, rfl, hr, hst⟩ | ⟨e, rfl, rfl⟩
  · obtain rfl : r = r' := hr
    exact hR.respond r hst
  · cases e <;> rfl

theorem perform_inStep {k : OpClass} {x y : Except Stop (Result × State)} (hxy : InStep (SameResult R) x y) :
    OutcomesInStep R (perform k s x) (perform k t y) := by
  unfold perform
  rw [← (hR.reads h).admission k]
  cases admission k s with
  | some r => rfl
  | none => exact settle_inStep hR hxy

omit hR in
/-- An operation whose result is `f` of what it computed, with the state as it was. -/
theorem query_inStep {α : Type} {x y : Except Stop α} (f : α → Result) (hxy : InStep Eq x y) :
    InStep (SameResult R) (x.map fun a => (f a, s)) (y.map fun a => (f a, t)) :=
  hxy.map fun _ _ ha => ⟨congrArg f ha, h⟩

omit hR h in
/-- An operation with no result. -/
theorem update_inStep {x y : Except Stop State} (hxy : InStep R x y) :
    InStep (SameResult R) (x.map fun u => (Result.nothing, u)) (y.map fun u => (Result.nothing, u)) :=
  hxy.map fun _ _ hst => ⟨rfl, hst⟩

/-- From related states every operation has outcomes in step. -/
theorem exec_inStep (i : Instr) : OutcomesInStep R (exec i s) (exec i t) := by
  have hr := hR.reads h
  cases i
  case rxrdy => exact perform_inStep hR h ⟨congrArg Result.bool hr.rxne, h⟩
  case txrdy => exact perform_inStep hR h ⟨congrArg Result.bool hr.txe, h⟩
  case ovr => exact perform_inStep hR h ⟨congrArg Result.bool hr.ore, h⟩
  case rdu => exact perform_inStep hR h ((opRdu_inStep hR h).map fun _ _ ⟨hu, hst⟩ => ⟨congrArg Result.datum hu, hst⟩)
  case wru u => exact perform_inStep hR h (update_inStep (opWru_inStep hR h u))
  case clrovr => exact perform_inStep hR h ⟨rfl, hR.clearOre h⟩
  case txien => exact perform_inStep hR h ⟨rfl, hR.enableTx h⟩
  case txidis => exact perform_inStep hR h ⟨rfl, hR.disableTx h⟩
  case rxien => exact perform_inStep hR h ⟨rfl, hR.setRxneie h⟩
  case enq u => exact perform_inStep hR h ((opEnq_inStep hR h u).map fun _ _ ⟨he, hst⟩ => ⟨congrArg Result.enq he, hst⟩)
  case deq => exact perform_inStep hR h ((opDeq_inStep hR h).map fun _ _ ⟨ho, hst⟩ => ⟨congrArg Result.option ho, hst⟩)
  case qempty => exact perform_inStep hR h (query_inStep h .bool (opQempty_inStep hR h))
  case qlen => exact perform_inStep hR h (query_inStep h .length (opQlen_inStep hR h))
  case qnew => exact perform_inStep hR h (update_inStep (opQnew_inStep hR h))
  case irqent =>
    have hc : (s.unmasked && s.irq && decide (s.phase = .idle)) =
        (t.unmasked && t.irq && decide (t.phase = .idle)) := by
      rw [hr.unmasked, hr.irq, hr.phase]
    exact perform_inStep hR h (whenEnabled_inStep hc fun _ => update_inStep (enterService_inStep hR h))
  case svctx =>
    exact perform_inStep hR h (whenEnabled_inStep (by rw [hr.phase]) fun _ =>
      (serviceTx_inStep hR h).map fun _ _ hst => ⟨rfl, hR.setPhase .rx hst⟩)
  case svcrx =>
    exact perform_inStep hR h (whenEnabled_inStep (by rw [hr.phase]) fun _ =>
      (serviceRx_inStep hR h).map fun _ _ hst => ⟨rfl, hR.setPhase .ovr hst⟩)
  case svcovr =>
    exact perform_inStep hR h (whenEnabled_inStep (by rw [hr.phase]) fun _ =>
      ⟨rfl, hR.setPhase .idle (serviceOvr_inStep hR h)⟩)
  case xform u => exact perform_inStep hR h (query_inStep h .datum (inStep_self (opXform u)))
  case handoff => exact perform_inStep hR h (update_inStep (opHandoff_inStep hR h))
  case unmask => exact perform_inStep hR h ⟨rfl, hR.setUnmasked h⟩
  case wfi => exact perform_inStep hR h ⟨rfl, h⟩
  case rxarr u => exact perform_inStep hR h ⟨rfl, opRxarr_inStep hR h u⟩
  case txdrn =>
    exact perform_inStep hR h (whenEnabled_inStep (by rw [hr.txe]) fun htxe =>
      ⟨rfl, hR.drain h (by simpa using htxe)⟩)

end

/-! ### Equal but for the ghosts -/

/-- The two states differ at most in their ghosts (R37, R38). -/
abbrev SameButGhosts (s t : State) : Prop := s.eraseGhosts = t.eraseGhosts

/-- An update that never carries a ghost into another element keeps the states the same but for the ghosts. -/
theorem SameButGhosts.keeps {s t : State} (f : State → State)
    (hf : ∀ s : State, (f s.eraseGhosts).eraseGhosts = (f s).eraseGhosts) (h : SameButGhosts s t) :
    SameButGhosts (f s) (f t) := by
  rw [SameButGhosts, ← hf s, ← hf t, h]

theorem SameButGhosts.sameReads {s t : State} (h : SameButGhosts s t) : SameReads s t where
  issuer := (congrArg State.issuer h :)
  phase := (congrArg State.phase h :)
  owner := (congrArg State.owner h :)
  unmasked := (congrArg State.unmasked h :)
  irq := (congrArg State.irq h :)
  rxne := (congrArg State.rxne h :)
  txe := (congrArg State.txe h :)
  ore := (congrArg State.ore h :)
  qbuilt := (congrArg State.qbuilt h :)
  rdr := fun _ => (congrArg State.rdr h :)
  len := fun _ => (congrArg State.len h :)
  oldest := fun _ _ => (congrArg (fun u => memRead u u.head) h :)

theorem lockstep_sameButGhosts : Lockstep SameButGhosts where
  reads := SameButGhosts.sameReads
  respond r := .keeps (State.respond · r) fun _ => rfl
  setPhase p := .keeps (State.setPhase · p) fun _ => rfl
  giveToIsr := .keeps State.giveToIsr fun _ => rfl
  setUnmasked := .keeps State.setUnmasked fun _ => rfl
  clearRxne := .keeps State.clearRxne fun _ => rfl
  clearOre := .keeps State.clearOre fun _ => rfl
  setOre := .keeps State.setOre fun _ => rfl
  setRxneie := .keeps State.setRxneie fun _ => rfl
  enableTx := .keeps State.enableTx fun _ => rfl
  disableTx := .keeps State.disableTx fun _ => rfl
  countDropFull := .keeps State.countDropFull fun _ => rfl
  countDropOvr := .keeps State.countDropOvr fun _ => rfl
  countSpurious := .keeps State.countSpurious fun _ => rfl
  countUnderflow u := .keeps (State.countUnderflow · u) fun _ => by unfold State.countUnderflow; split <;> rfl
  send u := .keeps (fun s => (s.loadTdr u).clearTxe) fun _ => rfl
  receive u := .keeps (fun s => (s.loadRdr u).setRxne) fun _ => rfl
  drain h _ := h.keeps (fun s => s.emitTdr.setTxe) fun _ => rfl
  buildQueue h _ := h.keeps State.buildQueue fun _ => rfl
  pushTail u h _ _ := h.keeps (pushTail u) fun _ => rfl
  popHead h _ _ := h.keeps popHead fun _ => rfl

theorem eraseGhostsOf_eq {x y : Outcome} (h : OutcomesInStep SameButGhosts x y) :
    eraseGhostsOf x = eraseGhostsOf y := by
  rcases outcomesInStep_cases h with ⟨s, t, rfl, rfl, hst⟩ | ⟨f, rfl, rfl⟩ | ⟨r, rfl, rfl⟩
  · exact congrArg Host.Outcome.next hst
  · rfl
  · rfl

/-- Settles O57: a state and the same without its ghosts are in lockstep. -/
theorem ghostsAreNeverRead : Obligations.GhostsAreNeverRead := fun i s =>
  eraseGhostsOf_eq (exec_inStep (s := s.eraseGhosts) (t := s) lockstep_sameButGhosts rfl i)

/-! ### Agreement on what the spec fixes -/

/-- Agreement on what the spec fixes, with a built queue in order (R24): what makes the live window the same in both. -/
abbrev AgreeInOrder (s t : State) : Prop := (s.qbuilt = true → QueueInv s) ∧ AgreeOnSpecified s t

/-- The registers of a built queue, and so its order, are the same in both. -/
theorem AgreeOnSpecified.queueInv {s t : State} (h : AgreeOnSpecified s t) (hb : s.qbuilt = true) (hq : QueueInv s) :
    QueueInv t := by
  obtain ⟨_, hlive, _⟩ := h
  obtain ⟨hhead, htail, hlen, _⟩ := hlive hb
  rw [QueueInv, ← hhead, ← htail, ← hlen]
  exact hq

theorem AgreeInOrder.len_eq {s t : State} (h : AgreeInOrder s t) (hb : s.qbuilt = true) : s.len = t.len := by
  obtain ⟨_, _, hlive, _⟩ := h
  obtain ⟨_, _, hlen, _⟩ := hlive hb
  exact hlen

/-- A non-empty queue has the same oldest unit in both, and the same units behind it. -/
theorem AgreeInOrder.popHead_eq {s t : State} (h : AgreeInOrder s t) (hb : s.qbuilt = true)
    (he : s.queueEmpty = false) : memRead s s.head = memRead t t.head ∧ (popHead s).queue = (popHead t).queue := by
  obtain ⟨hq, hagree⟩ := h
  have ⟨_, hlive, _⟩ := hagree
  obtain ⟨_, _, hlen, hqueue⟩ := hlive hb
  have het : t.queueEmpty = false := by rw [State.queueEmpty, ← hlen]; exact he
  rw [(popHead_spec (hq hb) he).1, (popHead_spec (hagree.queueInv hb (hq hb)) het).1] at hqueue
  exact List.cons.inj hqueue

/-- An enqueued unit joins the same units in both. -/
theorem AgreeInOrder.pushTail_eq {s t : State} (u : Datum) (h : AgreeInOrder s t) (hb : s.qbuilt = true)
    (hf : s.queueFull = false) : (pushTail u s).queue = (pushTail u t).queue := by
  obtain ⟨hq, hagree⟩ := h
  have ⟨_, hlive, _⟩ := hagree
  obtain ⟨_, _, hlen, hqueue⟩ := hlive hb
  have hft : t.queueFull = false := by rw [State.queueFull, ← hlen]; exact hf
  rw [(pushTail_spec u (hq hb) hf).1, (pushTail_spec u (hagree.queueInv hb (hq hb)) hft).1, hqueue]

theorem AgreeInOrder.sameReads {s t : State} (h : AgreeInOrder s t) : SameReads s t := by
  have ⟨_, hs, _, hrdr, _⟩ := h
  exact {
    issuer := (congrArg State.issuer hs :)
    phase := (congrArg State.phase hs :)
    owner := (congrArg State.owner hs :)
    unmasked := (congrArg State.unmasked hs :)
    irq := (congrArg State.irq hs :)
    rxne := (congrArg State.rxne hs :)
    txe := (congrArg State.txe hs :)
    ore := (congrArg State.ore hs :)
    qbuilt := (congrArg State.qbuilt hs :)
    rdr := hrdr
    len := h.len_eq
    oldest := fun hb he => (h.popHead_eq hb he).1 }

theorem lockstep_agreeInOrder : Lockstep AgreeInOrder where
  reads := AgreeInOrder.sameReads
  respond r := fun ⟨hi, hs, h⟩ => ⟨hi, congrArg (State.respond · r) hs, h⟩
  setPhase p := fun ⟨hi, hs, h⟩ => ⟨hi, congrArg (State.setPhase · p) hs, h⟩
  giveToIsr := fun ⟨hi, hs, h⟩ => ⟨hi, congrArg State.giveToIsr hs, h⟩
  setUnmasked := fun ⟨hi, hs, h⟩ => ⟨hi, congrArg State.setUnmasked hs, h⟩
  clearRxne := fun ⟨hi, hs, hq, _, htdr⟩ => ⟨hi, congrArg State.clearRxne hs, hq, nofun, htdr⟩
  clearOre := fun ⟨hi, hs, h⟩ => ⟨hi, congrArg State.clearOre hs, h⟩
  setOre := fun ⟨hi, hs, h⟩ => ⟨hi, congrArg State.setOre hs, h⟩
  setRxneie := fun ⟨hi, hs, h⟩ => ⟨hi, congrArg State.setRxneie hs, h⟩
  enableTx := fun ⟨hi, hs, h⟩ => ⟨hi, congrArg State.enableTx hs, h⟩
  disableTx := fun ⟨hi, hs, h⟩ => ⟨hi, congrArg State.disableTx hs, h⟩
  countDropFull := fun ⟨hi, hs, h⟩ => ⟨hi, congrArg State.countDropFull hs, h⟩
  countDropOvr := fun ⟨hi, hs, h⟩ => ⟨hi, congrArg State.countDropOvr hs, h⟩
  countSpurious := fun ⟨hi, hs, h⟩ => ⟨hi, congrArg State.countSpurious hs, h⟩
  countUnderflow {s t} u h := by
    obtain ⟨hi, hs, h⟩ := h
    by_cases hu : u.toNat < Config.xformOffset
    · rw [State.countUnderflow, State.countUnderflow, if_pos hu, if_pos hu]
      exact ⟨hi, congrArg (fun v => { v with underflowCnt := v.underflowCnt + 1 }) hs, h⟩
    · rw [State.countUnderflow, State.countUnderflow, if_neg hu, if_neg hu]
      exact ⟨hi, hs, h⟩
  send u := fun ⟨hi, hs, hq, hrdr, _⟩ => ⟨hi, congrArg (fun v => (v.loadTdr u).clearTxe) hs, hq, hrdr, fun _ => rfl⟩
  receive u := fun ⟨hi, hs, hq, _, htdr⟩ => ⟨hi, congrArg (fun v => (v.loadRdr u).setRxne) hs, hq, fun _ => rfl, htdr⟩
  drain {s t} := fun ⟨hi, hs, hq, hrdr, htdr⟩ htxe => by
    have hemit : t.emitTdr = { t with txLine := t.txLine ++ [s.tdr] } := by rw [htdr htxe]; rfl
    refine ⟨hi, ?_, hq, hrdr, nofun⟩
    rw [hemit]
    exact congrArg (fun v => v.emitTdr.setTxe) hs
  buildQueue := fun ⟨_, hs, _, hrdr, htdr⟩ _ =>
    ⟨fun _ => queueInv_buildQueue _, congrArg State.buildQueue hs, fun _ => ⟨rfl, rfl, rfl, rfl⟩, hrdr, htdr⟩
  pushTail u h hb hf := by
    have hqueue := h.pushTail_eq u hb hf
    obtain ⟨hi, hs, hq, hrdr, htdr⟩ := h
    obtain ⟨hhead, htail, hlen, _⟩ := hq hb
    exact ⟨fun _ => (pushTail_spec u (hi hb) hf).2, congrArg (pushTail u) hs,
      fun _ => ⟨hhead, congrArg nextIndex htail, congrArg (· + 1) hlen, hqueue⟩, hrdr, htdr⟩
  popHead h hb he := by
    have hqueue := (h.popHead_eq hb he).2
    obtain ⟨hi, hs, hq, hrdr, htdr⟩ := h
    obtain ⟨hhead, htail, hlen, _⟩ := hq hb
    exact ⟨fun _ => (popHead_spec (hi hb) he).2, congrArg popHead hs,
      fun _ => ⟨congrArg nextIndex hhead, htail, congrArg (· - 1) hlen, hqueue⟩, hrdr, htdr⟩

theorem outcomesAgree_of_inStep {x y : Outcome} (h : OutcomesInStep AgreeInOrder x y) : OutcomesAgree x y := by
  rcases outcomesInStep_cases h with ⟨s, t, rfl, rfl, _, hst⟩ | ⟨f, rfl, rfl⟩ | ⟨r, rfl, rfl⟩
  · exact hst
  · rfl
  · rfl

/-- Settles O58: states that agree on what the spec fixes are in lockstep while a built queue is in order. -/
theorem unspecifiedIsNeverRead : Obligations.UnspecifiedIsNeverRead := fun i _ _ hi h =>
  outcomesAgree_of_inStep (exec_inStep lockstep_agreeInOrder ⟨hi, h⟩ i)

end Sys2Proof.Machine
end

