-- ==== Sys2Proof/Proofs/SlotStores.lean ====
section
/-! SUPPORT. Where a unit is stored (spec/20_memory.md R60, R61): the one slot a step can write is the one at `tail`. -/

namespace Sys2Proof.Machine

/-- Every path of an operation leaves the slots, or leaves them as one store at the tail did (R122, R144). -/
theorem Ran.slots_eq_or_store {i : Instr} {s t : State} (h : Ran i s t) :
    t.slots = s.slots ∨ ∃ d, t.slots = (memWrite s s.tail d).slots := by
  cases h
  case enqOk u _ _ _ => exact .inr ⟨u, rfl⟩
  case svcrxFirst d _ _ _ _ _ _ _ | svcrxNext d _ _ _ _ _ _ _ => exact .inr ⟨d, by rw [afterRead_eq]; rfl⟩
  all_goals exact .inl (by simp)

theorem Ran.memRead_of_ne_tail {i : Instr} {s t : State} (h : Ran i s t) {j : Index} (hj : j ≠ s.tail) :
    memRead t j = memRead s j := by
  rcases h.slots_eq_or_store with hs | ⟨d, hs⟩
  · exact memRead_congr hs j
  · rw [memRead_congr hs j, memRead_memWrite_other s d hj.symm]

/-- Settles O49: another slot than the tail's by the store's address, every slot of another operation by the row of R43
for the slots. -/
theorem storesOnlyAtTail : Obligations.StoresOnlyAtTail := by
  intro i s t h j hj
  have hr := ran_of_exec h
  rcases hj with hj | ⟨hsvcrx, henq⟩
  · exact hr.memRead_of_ne_tail hj
  · rcases hr.slots_frame with hi | ⟨u, hi⟩ | hs
    · exact absurd hi hsvcrx
    · exact absurd hi (henq u)
    · exact memRead_congr hs j

end Sys2Proof.Machine
end

