-- ==== Sys2Proof/Proofs/WordRows.lean ====
section
/-! SUPPORT. What the decoder reads from a 24-bit word, said once: the row of spec/30_encoding.md R84 that the word spells,
or the check of R85 that it fails. The round trips, R86 and the refusal of reserved words follow. -/

namespace Sys2Proof

/-! ### The fields of a word (R81) -/

theorem fieldGrp_toNat (w : Cmd) : (fieldGrp w).toNat = w.toNat / 2 ^ 20 := by
  have hw : w.toNat < 16777216 := w.isLt
  rw [fieldGrp, BitVec.extractLsb'_toNat, Nat.shiftRight_eq_div_pow, Nat.mod_eq_of_lt (by omega)]

theorem fieldFn_toNat (w : Cmd) : (fieldFn w).toNat = w.toNat / 2 ^ 16 % 16 := by
  rw [fieldFn, BitVec.extractLsb'_toNat, Nat.shiftRight_eq_div_pow]

theorem fieldU_toNat (w : Cmd) : (fieldU w).toNat = w.toNat % 2 ^ 16 := by
  rw [fieldU, BitVec.extractLsb'_toNat, Nat.shiftRight_zero]

/-- A word's operation code, bits 23:16, is its group and its function. -/
theorem code_eq_fields (w : Cmd) : w.toNat / 2 ^ 16 = (fieldGrp w).toNat * 16 + (fieldFn w).toNat := by
  rw [fieldGrp_toNat, fieldFn_toNat]
  omega

theorem encode_toNat (i : Instr) : (encode i).toNat = (opcode i).toNat * 65536 + ((operand? i).getD 0).toNat :=
  append_toNat _ _

/-- The operations with an operand are those with one of R86's four codes. -/
theorem operandCodes_contains_opcode (i : Instr) :
    WellFormed.operandCodes.contains (opcode i).toNat = (operand? i).isSome := by
  cases i <;> rfl

/-! ### Decoding an encoded operation -/

theorem fieldGrp_code (c : BitVec 8) (u : Datum) : fieldGrp (c ++ u) = c.extractLsb' 4 4 :=
  BitVec.extractLsb'_append_eq_of_le (by decide)

theorem fieldFn_code (c : BitVec 8) (u : Datum) : fieldFn (c ++ u) = c.extractLsb' 0 4 :=
  BitVec.extractLsb'_append_eq_of_le (by decide)

/-- Settles O1: the fields of the encoded word are the operation's own code and operand, from which the decoder computes the
operation, row by row. -/
theorem decodeOfEncode : Obligations.DecodeOfEncode := by
  intro i
  rw [encode, decode, fieldGrp_code, fieldFn_code, fieldU_append]
  cases i <;> dsimp only [opcode, operand?] <;> rfl

/-- Settles O5: the words are the encodings of the operations. -/
theorem sampleWordsDecode : Obligations.SampleWordsDecode :=
  ⟨decodeOfEncode .rdu, decodeOfEncode (.wru 0xABCD), decodeOfEncode (.enq 65535), decodeOfEncode .svcrx,
    decodeOfEncode (.xform 32), decodeOfEncode (.rxarr 97), decodeOfEncode .txdrn⟩

/-! ### What the decoder reads from any word -/

/-- `Reads w x`: the reading `x` is right for the word `w`, an operation that `w` spells or a check of R85 that `w` fails. -/
inductive Reads (w : Cmd) : Except Reserved Instr → Prop where
  | row {i : Instr} (h : encode i = w) : Reads w (.ok i)
  | group (h : WellFormed.groupAssigned w = false) : Reads w (.error .group)
  | function (h : WellFormed.functionAssigned w = false) : Reads w (.error .function)
  | operand (h : WellFormed.operandAllowed w = false) : Reads w (.error .operand)

section

variable {w : Cmd} {i : Instr}

/-- An operation with the word's code and the word's operand field as its operand is spelled by the word. -/
theorem reads_row (hc : (opcode i).toNat = (fieldGrp w).toNat * 16 + (fieldFn w).toNat)
    (hu : (operand? i).getD 0 = fieldU w) : Reads w (.ok i) := by
  refine .row (BitVec.eq_of_toNat_eq ?_)
  rw [encode_toNat, hu, hc, ← code_eq_fields, fieldU_toNat]
  omega

/-- An operation without operand is spelled by the word of its code whose operand field is 0, and by no other (R85 (c)). -/
theorem reads_withoutOperand (ho : operand? i = none)
    (hc : (opcode i).toNat = (fieldGrp w).toNat * 16 + (fieldFn w).toNat) : Reads w (withoutOperand i (fieldU w)) := by
  by_cases hu : fieldU w = 0
  · rw [withoutOperand, if_pos hu]
    exact reads_row hc (by rw [ho, hu]; rfl)
  · rw [withoutOperand, if_neg hu]
    have hne : w.toNat % 2 ^ 16 ≠ 0 := fun h => hu (BitVec.eq_of_toNat_eq ((fieldU_toNat w).trans h))
    refine .operand ?_
    rw [WellFormed.operandAllowed, code_eq_fields, ← hc, operandCodes_contains_opcode, ho]
    simpa using hne

/-- R85 (b): the functions that no operation of the group has. -/
theorem functionAssigned_eq_false
    (h : ((fieldGrp w).toNat = 0 ∧ 9 ≤ (fieldFn w).toNat) ∨ ((fieldGrp w).toNat = 1 ∧ 5 ≤ (fieldFn w).toNat) ∨
      ((fieldGrp w).toNat = 2 ∧ 8 ≤ (fieldFn w).toNat) ∨ ((fieldGrp w).toNat = 3 ∧ 2 ≤ (fieldFn w).toNat)) :
    WellFormed.functionAssigned w = false := by
  rw [fieldGrp_toNat, fieldFn_toNat] at h
  rcases h with ⟨hg, hf⟩ | ⟨hg, hf⟩ | ⟨hg, hf⟩ | ⟨hg, hf⟩ <;>
    simpa only [WellFormed.functionAssigned, hg, decide_eq_false_iff_not, Nat.not_lt] using hf

theorem reads_decodePeripheral (hg : (fieldGrp w).toNat = 0) : Reads w (decodePeripheral (fieldFn w) (fieldU w)) := by
  unfold decodePeripheral
  split
  case h_5 hf => exact reads_row (by rw [hg, hf]; rfl) rfl
  case h_10 =>
    simp only [imp_false] at *
    exact .function (functionAssigned_eq_false (by omega))
  all_goals exact reads_withoutOperand rfl (by rw [hg, ‹(fieldFn w).toNat = _›]; rfl)

theorem reads_decodeQueue (hg : (fieldGrp w).toNat = 1) : Reads w (decodeQueue (fieldFn w) (fieldU w)) := by
  unfold decodeQueue
  split
  case h_1 hf => exact reads_row (by rw [hg, hf]; rfl) rfl
  case h_6 =>
    simp only [imp_false] at *
    exact .function (functionAssigned_eq_false (by omega))
  all_goals exact reads_withoutOperand rfl (by rw [hg, ‹(fieldFn w).toNat = _›]; rfl)

theorem reads_decodeSequencer (hg : (fieldGrp w).toNat = 2) : Reads w (decodeSequencer (fieldFn w) (fieldU w)) := by
  unfold decodeSequencer
  split
  case h_5 hf => exact reads_row (by rw [hg, hf]; rfl) rfl
  case h_9 =>
    simp only [imp_false] at *
    exact .function (functionAssigned_eq_false (by omega))
  all_goals exact reads_withoutOperand rfl (by rw [hg, ‹(fieldFn w).toNat = _›]; rfl)

theorem reads_decodeLine (hg : (fieldGrp w).toNat = 3) : Reads w (decodeLine (fieldFn w) (fieldU w)) := by
  unfold decodeLine
  split
  case h_1 hf => exact reads_row (by rw [hg, hf]; rfl) rfl
  case h_3 =>
    simp only [imp_false] at *
    exact .function (functionAssigned_eq_false (by omega))
  case h_2 hf => exact reads_withoutOperand rfl (by rw [hg, hf]; rfl)

end

/-- The decoder reads every word right: its answer is an operation the word spells, or names a check the word fails. -/
theorem reads_decode (w : Cmd) : Reads w (decode w) := by
  unfold decode
  split
  · exact reads_decodePeripheral ‹_›
  · exact reads_decodeQueue ‹_›
  · exact reads_decodeSequencer ‹_›
  · exact reads_decodeLine ‹_›
  · simp only [imp_false] at *
    refine .group ?_
    rw [WellFormed.groupAssigned, ← fieldGrp_toNat, decide_eq_false_iff_not]
    omega

/-- Settles O2: the decoder answers an operation only for a word that spells it. -/
theorem encodeOfDecode : Obligations.EncodeOfDecode := by
  intro w i h
  have hr := reads_decode w
  rw [h] at hr
  cases hr with
  | row he => exact he

/-! ### Reserved words (R85, R86) -/

theorem word_encode (i : Instr) : WellFormed.word (encode i) = true := by
  cases i with
  | wru u => exact (Laws.Encoding.wru u).1
  | enq u => exact (Laws.Encoding.enq u).1
  | xform u => exact (Laws.Encoding.xform u).1
  | rxarr u => exact (Laws.Encoding.rxarr u).1
  | _ => decide

theorem word_of_decode_ok {w : Cmd} {i : Instr} (h : decode w = .ok i) : WellFormed.word w = true :=
  encodeOfDecode w i h ▸ word_encode i

theorem not_word_of_decode_error {w : Cmd} {r : Reserved} (h : decode w = .error r) : WellFormed.word w = false := by
  have hr := reads_decode w
  rw [h] at hr
  cases hr with
  | group hf | function hf | operand hf => simp [WellFormed.word, hf]

theorem decode_error_of_not_word {w : Cmd} (h : WellFormed.word w = false) : ∃ r, decode w = .error r := by
  cases hd : decode w with
  | error r => exact ⟨r, rfl⟩
  | ok i => exact absurd (word_of_decode_ok hd) (by simp [h])

/-! ### Masks and matches (R86) -/

/-- The mask of an operation's row: the code, and the operand field too where the operation has no operand. -/
def rowMask (i : Instr) : Cmd := if (operand? i).isSome then 0xFF0000 else 0xFFFFFF

/-- The match of an operation's row: `op << 16`. -/
def rowMatch (i : Instr) : Cmd := (opcode i).setWidth 24 <<< 16

theorem rowMatch_eq_append (i : Instr) : rowMatch i = opcode i ++ (0 : Datum) := by
  have hc : (opcode i).toNat < 256 := (opcode i).isLt
  refine BitVec.eq_of_toNat_eq ?_
  rw [append_toNat, rowMatch, BitVec.toNat_shiftLeft, BitVec.toNat_setWidth, Nat.shiftLeft_eq]
  show _ % 2 ^ 24 * _ % 2 ^ 24 = _ + 0
  omega

theorem rowMask_eq_append (i : Instr) :
    rowMask i = BitVec.allOnes 8 ++ (if (operand? i).isSome then 0 else BitVec.allOnes 16 : Datum) := by
  rw [rowMask]
  split <;> rfl

theorem code_append_inj {c c' : BitVec 8} {u u' : Datum} : c ++ u = c' ++ u' ↔ c = c' ∧ u = u' := by
  constructor
  · intro h
    have hu : u = u' := by simpa only [fieldU_append] using congrArg fieldU h
    subst hu
    exact ⟨(BitVec.append_left_inj u).1 h, rfl⟩
  · rintro ⟨rfl, rfl⟩
    rfl

/-- A word matches a row when it has the row's code, and an operand field that the row allows. -/
theorem matches_row_iff (j : Instr) (c : BitVec 8) (u : Datum) :
    (c ++ u) &&& rowMask j = rowMatch j ↔ c = opcode j ∧ ((operand? j).isSome = true ∨ u = 0) := by
  rw [rowMask_eq_append, rowMatch_eq_append, BitVec.and_append, code_append_inj, BitVec.and_allOnes]
  cases (operand? j).isSome <;> simp [-BitVec.reduceAllOnes]

/-- The code alone says whether a row has an operand. -/
theorem operand_isSome_of_opcode_eq {i j : Instr} (h : opcode i = opcode j) :
    (operand? i).isSome = (operand? j).isSome := by
  rw [← operandCodes_contains_opcode, h, operandCodes_contains_opcode]

/-- The word of an operation matches the row of its code, and no other. -/
theorem encode_matches_row_iff (i j : Instr) : encode i &&& rowMask j = rowMatch j ↔ opcode j = opcode i := by
  rw [encode, matches_row_iff]
  constructor
  · rintro ⟨h, _⟩
    exact h.symm
  · intro h
    refine ⟨h.symm, ?_⟩
    rw [operand_isSome_of_opcode_eq h]
    cases operand? i with
    | some u => exact .inl rfl
    | none => exact .inr rfl

/-- A row with an operand has it whatever its value (R82). -/
theorem exists_same_row_with_operand {j : Instr} (h : (operand? j).isSome = true) (u : Datum) :
    ∃ i, opcode i = opcode j ∧ operand? i = some u := by
  cases j with
  | wru _ => exact ⟨.wru u, rfl, rfl⟩
  | enq _ => exact ⟨.enq u, rfl, rfl⟩
  | xform _ => exact ⟨.xform u, rfl, rfl⟩
  | rxarr _ => exact ⟨.rxarr u, rfl, rfl⟩
  | _ => exact nomatch h

/-- A word that matches a row is the word of an operation of that row. -/
theorem exists_encode_of_matches_row {w : Cmd} {j : Instr} (h : w &&& rowMask j = rowMatch j) : ∃ i, encode i = w := by
  rw [word_eq_append w] at h ⊢
  obtain ⟨hc, hu⟩ := (matches_row_iff ..).1 h
  rw [hc]
  cases ho : operand? j with
  | some _ =>
    obtain ⟨i, hi, hiu⟩ := exists_same_row_with_operand (by rw [ho]; rfl) (fieldU w)
    exact ⟨i, by rw [encode, hi, hiu]; rfl⟩
  | none =>
    have hz : fieldU w = 0 := hu.resolve_left (by rw [ho]; exact nofun)
    exact ⟨j, by rw [encode, ho, hz]; rfl⟩

/-- Settles O3, by what the decoder answers: the word of an operation matches that row alone, and a word that matched a row
would not be refused. -/
theorem everyWordIsOneRowOrReserved : Obligations.EveryWordIsOneRowOrReserved := by
  intro w
  cases hd : decode w with
  | ok i =>
    refine .inl ⟨word_of_decode_ok hd, i, rfl, fun j => ?_⟩
    rw [← encodeOfDecode w i hd]
    exact encode_matches_row_iff i j
  | error r =>
    refine .inr ⟨not_word_of_decode_error hd, ⟨r, rfl⟩, fun j hj => ?_⟩
    obtain ⟨i, rfl⟩ := exists_encode_of_matches_row hj
    rw [decodeOfEncode] at hd
    cases hd

/-! ### The refusal of reserved words (R85) -/

/-- A first command that spells no operation is refused, in every state. -/
theorem step_of_reserved {s : Machine.State} {c : Machine.Command} {rest : List Machine.Command} {r : Reserved}
    (hs : s.inbox = c :: rest) (hd : decode c.word = .error r) : Machine.step s = .refused .reservedEncoding := by
  rw [Machine.step_of_inbox_cons hs, Machine.takeCommands, hd]

/-- Settles O4: the word fails the check of its clause, so the decoder refuses it. -/
theorem reservedWordIsRefused : Obligations.ReservedWordIsRefused := by
  intro s c rest hs grp fn op h
  have hw : WellFormed.word c.word = false := by
    have hgrp : (fieldGrp c.word).toNat = grp := fieldGrp_toNat _
    have hfn : (fieldFn c.word).toNat = fn := fieldFn_toNat _
    rw [WellFormed.word, Bool.and_eq_false_iff, Bool.and_eq_false_iff]
    rcases h with hg | hf | hf | hf | hf | ⟨h04, h10, h24, h30, hu⟩
    case inl => exact .inl (.inl (decide_eq_false (Nat.not_lt.2 hg)))
    case inr.inr.inr.inr.inr =>
      exact .inr (by simpa [WellFormed.operandAllowed, WellFormed.operandCodes] using ⟨⟨h04, h10, h24, h30⟩, hu⟩)
    all_goals exact .inl (.inr (functionAssigned_eq_false (by simp [hgrp, hfn, hf])))
  obtain ⟨r, hd⟩ := decode_error_of_not_word hw
  exact step_of_reserved hs hd

/-! ### Response words (R83) -/

theorem valid_append_toNat (u : Datum) : (1#1 ++ u).toNat = 0x10000 + u.toNat := by
  rw [BitVec.toNat_append, ← Nat.shiftLeft_add_eq_or_of_lt u.isLt]
  rfl

/-- Settles O6: the types with a value by the valid bit above it, the others by computation. -/
theorem responseWords : Obligations.ResponseWords := by
  refine ⟨rfl, fun b => ?_, valid_append_toNat, rfl, rfl, valid_append_toNat, rfl, fun n => ?_⟩
  · cases b <;> rfl
  · rw [encodeResult, valid_append_toNat, BitVec.toNat_setWidth, Nat.mod_eq_of_lt (n.isLt.trans (by decide))]

end Sys2Proof
end

