-- ==== Sys2Proof/Proofs/AdmissionTable.lean ====
section
/-! SUPPORT. What an operation answers: a response word of its own result type (spec/30_encoding.md R83, R84); and when it is
refused for its issuer: as the table of R90 says, and by no rule of an operation that was admitted. -/

namespace Sys2Proof.Machine

/-! ### Responses (R83, R84) -/

theorem Ran.answers {i : Instr} {s t : State} (h : Ran i s t) :
    ∃ r : Result, r.type = i.resultType ∧ t.response = some (encodeResult r) := by
  cases h <;> exact ⟨_, by rfl, rfl⟩

/-- Settles O7 by the paths of `Ran`, each of which ends with its response. -/
theorem completedOperationAnswers : Obligations.CompletedOperationAnswers := fun _ _ _ h => (ran_of_exec h).answers

/-! ### Refusals by an operation's own rule -/

/-- The rule `x` refuses for no reason that is admission's to give. -/
def RefusesOwn {α : Type} (x : Except Stop α) : Prop := ∀ r, x = .error (.refuse r) → ¬ IsAdmissionReason r

section

variable {α β : Type}

theorem refusesOwn_ok (a : α) : RefusesOwn (.ok a : Except Stop α) := fun _ h => nomatch h

theorem refusesOwn_fault (f : Fault) : RefusesOwn (.error (.fault f) : Except Stop α) := fun _ h => nomatch h

theorem refusesOwn_refuse {r : Refusal} (h : ¬ IsAdmissionReason r) :
    RefusesOwn (.error (.refuse r) : Except Stop α) := by
  rintro _ ⟨⟩
  exact h

theorem RefusesOwn.map {x : Except Stop α} (h : RefusesOwn x) (f : α → β) : RefusesOwn (x.map f) := by
  cases x with
  | ok a => exact refusesOwn_ok _
  | error e => rintro r ⟨⟩; exact h r rfl

theorem RefusesOwn.bind {x : Except Stop α} {f : α → Except Stop β} (h : RefusesOwn x) (hf : ∀ a, RefusesOwn (f a)) :
    RefusesOwn (x.bind f) := by
  cases x with
  | ok a => exact hf a
  | error e => rintro r ⟨⟩; exact h r rfl

theorem RefusesOwn.ite {c : Prop} [Decidable c] {x y : Except Stop α} (hx : RefusesOwn x) (hy : RefusesOwn y) :
    RefusesOwn (if c then x else y) := by
  split
  · exact hx
  · exact hy

theorem refusesOwn_whenBuilt (s : State) (a : α) : RefusesOwn (whenBuilt s a) :=
  (refusesOwn_ok a).ite (refusesOwn_refuse (by decide))

theorem RefusesOwn.whenEnabled {c : Bool} {x : Except Stop (Result × State)} (h : RefusesOwn x) :
    RefusesOwn (whenEnabled c x) :=
  h.ite (refusesOwn_refuse (by decide))

end

section

variable (s : State) (u : Datum)

theorem opRdu_refusesOwn : RefusesOwn (opRdu s) := (refusesOwn_ok _).ite (refusesOwn_refuse (by decide))

theorem opWru_refusesOwn : RefusesOwn (opWru u s) := (refusesOwn_ok _).ite (refusesOwn_refuse (by decide))

theorem opQnew_refusesOwn : RefusesOwn (opQnew s) := (refusesOwn_refuse (by decide)).ite (refusesOwn_ok _)

/-- HANDOFF's own rule would give an admission reason only after the handoff (R161). -/
theorem opHandoff_refusesOwn (h : s.owner = .init) : RefusesOwn (opHandoff s) := by
  rw [opHandoff, if_neg (by rw [h]; decide)]
  exact (refusesOwn_ok _).ite (refusesOwn_refuse (by decide))

theorem opXform_refusesOwn : RefusesOwn (opXform u) := by
  unfold opXform
  split
  · exact refusesOwn_ok _
  · exact refusesOwn_fault _

theorem enterService_refusesOwn : RefusesOwn (enterService s) := (refusesOwn_ok _).ite (refusesOwn_fault _)

theorem serviceTx_refusesOwn : RefusesOwn (serviceTx s) := by
  refine (RefusesOwn.bind (refusesOwn_whenBuilt _ _) fun d => ?_).ite (refusesOwn_ok _)
  cases d.1 with
  | some u => exact (opWru_refusesOwn _ _).bind fun t => (refusesOwn_whenBuilt _ _).map _
  | none => exact refusesOwn_ok _

theorem serviceRx_refusesOwn : RefusesOwn (serviceRx s) :=
  ((opRdu_refusesOwn s).bind fun _ => (opXform_refusesOwn _).bind fun _ =>
    (refusesOwn_whenBuilt _ _).bind fun _ => (refusesOwn_whenBuilt _ _).map _).ite (refusesOwn_ok _)

end

/-! ### Admission, operation by operation (R90) -/

/-- The row of R90's table that an operation stands in. -/
def opClass : Instr → OpClass
  | .qnew | .rxien => .setup
  | .handoff => .handoff
  | .unmask | .wfi => .main
  | .rxrdy | .txrdy | .ovr | .rdu | .wru _ | .clrovr | .txien | .txidis => .handle
  | .enq _ | .deq | .qempty | .qlen => .handle
  | .xform _ => .pure
  | .irqent => .entry
  | .svctx | .svcrx | .svcovr => .phase
  | .rxarr _ | .txdrn => .line

/-- An operation that is not admitted is refused with admission's reason. -/
theorem exec_of_not_admitted {i : Instr} {s : State} {r : Refusal} (h : admission (opClass i) s = some r) :
    exec i s = .refused r := by
  cases i <;> exact perform_of_refused h _

theorem perform_refusesOwn {k : OpClass} {s : State} {x : Except Stop (Result × State)} {r : Refusal}
    (ha : admission k s = none) (hx : RefusesOwn x) (h : perform k s x = .refused r) : ¬ IsAdmissionReason r := by
  rw [perform_of_admitted ha] at h
  rcases x with (f | q) | p
  · cases h
  · cases h
    exact hx r rfl
  · cases h

/-- An operation that is admitted is refused by its own rule only. -/
theorem exec_of_admitted {i : Instr} {s : State} {r : Refusal} (ha : admission (opClass i) s = none)
    (h : exec i s = .refused r) : ¬ IsAdmissionReason r := by
  cases i
  case rxrdy | txrdy | ovr | clrovr | txien | txidis | rxien | unmask | wfi | rxarr _ =>
    exact perform_refusesOwn ha (refusesOwn_ok _) h
  case enq _ | deq | qempty | qlen => exact perform_refusesOwn ha ((refusesOwn_whenBuilt _ _).map _) h
  case rdu => exact perform_refusesOwn ha ((opRdu_refusesOwn s).map _) h
  case wru u => exact perform_refusesOwn ha ((opWru_refusesOwn s u).map _) h
  case qnew => exact perform_refusesOwn ha ((opQnew_refusesOwn s).map _) h
  case xform u => exact perform_refusesOwn ha ((opXform_refusesOwn u).map _) h
  case handoff =>
    obtain ⟨_, ho, _⟩ := issuer_of_handoff ha
    exact perform_refusesOwn ha ((opHandoff_refusesOwn s ho).map _) h
  case irqent => exact perform_refusesOwn ha ((enterService_refusesOwn s).map _).whenEnabled h
  case svctx => exact perform_refusesOwn ha ((serviceTx_refusesOwn s).map _).whenEnabled h
  case svcrx => exact perform_refusesOwn ha ((serviceRx_refusesOwn s).map _).whenEnabled h
  case svcovr | txdrn => exact perform_refusesOwn ha (refusesOwn_ok _).whenEnabled h

/-- The reason a cell of R90's table refuses a step of its own for, under the model's names (assumption log 7, 10). -/
def Verdict.reason : Verdict → Option Refusal
  | .yes      => none
  | .refuse r => some r
  | .no       => some .noSuchStep
  | .inPhases => some .notInSequence

/-- The machine's admission of a running context is R90's table. -/
theorem admission_eq_table {i : Instr} {s : State} {a : Agent} (hi : s.issuer = some a) (hr : ContextRuns a s) :
    admission (opClass i) s = (admissionTable i a s.owner).reason := by
  obtain ⟨hinit, hseq⟩ := hr
  rw [admission, hi]
  cases a with
  | initialiser =>
    simp only [admissionInitialiser, hinit rfl, if_true]
    cases s.owner <;> cases i <;> rfl
  | controller => cases i <;> rfl
  | sequencer =>
    obtain ⟨hp, ho⟩ := hseq rfl
    simp only [admissionSequencer, if_neg hp, ho]
    cases i <;> rfl
  | line => cases i <;> rfl

/-- Outside any context the group-0 and group-1 operations and XFORM are admitted (R90, last paragraph). -/
theorem admission_outside {i : Instr} {s : State} (hi : s.issuer = none)
    (h : (opcode i).toNat < 0x20 ∨ opcode i = 0x24) : admission (opClass i) s = none := by
  rw [admission, hi]
  cases i
  case irqent | svctx | svcrx | svcovr | handoff | unmask | wfi | txdrn => exact absurd h (by decide)
  case rxarr _ => exact absurd h (by rw [opcode]; decide)
  all_goals rfl

/-- Settles O10: admission is the table, a step it stops is refused with its reason, and a step it lets through is refused by
the operation's own rule only. -/
theorem admissionByTable : Obligations.AdmissionByTable := by
  refine ⟨fun i s a hi hr => ?_, fun i s hi h r => exec_of_admitted (admission_outside hi h)⟩
  have ha := admission_eq_table (i := i) hi hr
  cases hv : admissionTable i a s.owner with
  | yes => exact fun r => exec_of_admitted (ha.trans (congrArg _ hv))
  | refuse r => exact exec_of_not_admitted (ha.trans (congrArg _ hv))
  | no => exact exec_of_not_admitted (ha.trans (congrArg _ hv))
  | inPhases => exact exec_of_not_admitted (ha.trans (congrArg _ hv))

end Sys2Proof.Machine
end

