-- ==== Sys2Proof/Proofs/PeripheralHandle.lean ====
section
/-! SUPPORT. The handle operations of spec/40_peripheral_interface.md, result, completion and frame (R101 to R109), and the
receive enable that no operation clears (R110). -/

namespace Sys2Proof.Machine

/-! ### The receive enable (R110) -/

/-- RXIEN is the one writer of RXNEIE (R43), and it writes 1. -/
theorem Ran.keeps_rxneie {i : Instr} {s t : State} (h : Ran i s t) (hs : s.rxneie = true) : t.rxneie = true := by
  rcases h.rxneie_frame with rfl | hkept
  · cases h; rfl
  · exact hkept.trans hs

theorem step_keeps_rxneie (s t : State) (hs : s.rxneie = true) (h : step s = .next t) : t.rxneie = true := by
  obtain ⟨_, u, hr, _, hu⟩ := ran_of_step h
  have hsu : u.rxneie = true := by rw [hu]; exact hs
  exact hr.keeps_rxneie hsu

/-- Settles O16: no path of an operation clears RXNEIE, so no step does, and a run keeps what every step keeps. -/
theorem receiveEnableIsForEver : Obligations.ReceiveEnableIsForEver :=
  ⟨fun _ _ _ h => (ran_of_exec h).keeps_rxneie, fun k s t h hs => run_keeps step_keeps_rxneie k s t hs h⟩

/-! ### Response words and admission -/

theorem encodeResult_bool (b : Bool) : encodeResult (.bool b) = if b then 0x10000 else 0 := by
  cases b <;> rfl

/-- The converse of `issuer_of_setup`: these two forms are admitted (R90). -/
theorem admission_setup_of_issuer {s : State}
    (h : s.issuer = none ∨ (s.issuer = some .initialiser ∧ s.owner = .init ∧ s.phase = .idle)) :
    admission .setup s = none := by
  rcases h with hi | ⟨hi, ho, hp⟩
  · simp [admission, hi, admissionOutside]
  · simp [admission, hi, admissionInitialiser, ho, hp]

/-! ### The two refusals (E1, E2) -/

theorem execRdu_of_not_ready {s : State} (ha : admission .handle s = none) (h : s.rxne = false) :
    execRdu s = .refused .readNotReady := by
  have hop : opRdu s = .error (.refuse .readNotReady) := by simp [opRdu, h]
  rw [execRdu, hop, perform_of_admitted ha]
  rfl

theorem execWru_of_not_ready {s : State} (u : Datum) (ha : admission .handle s = none) (h : s.txe = false) :
    execWru u s = .refused .writeNotReady := by
  have hop : opWru u s = .error (.refuse .writeNotReady) := by simp [opWru, h]
  rw [execWru, hop, perform_of_admitted ha]
  rfl

/-! ### The operations -/

/-- Settles O11: each read completes with its flag as the result and no update of the state. -/
theorem flagReadsAnswerTheFlag : Obligations.FlagReadsAnswerTheFlag := by
  intro s hi
  have ha := admission_handle_of_outside hi
  simp only [← encodeResult_bool]
  exact ⟨execRxrdy_next.2 ⟨ha, rfl⟩, execTxrdy_next.2 ⟨ha, rfl⟩, execOvr_next.2 ⟨ha, rfl⟩⟩

/-- Settles O12 by the two paths of RDU. -/
theorem readUnit : Obligations.ReadUnit := by
  intro s hi
  have ha := admission_handle_of_outside hi
  exact ⟨fun hrx => execRdu_next.2 ⟨ha, hrx, rfl⟩, execRdu_of_not_ready ha⟩

/-- Settles O13 by the two paths of WRU. -/
theorem writeUnit : Obligations.WriteUnit := by
  intro s u hi
  have ha := admission_handle_of_outside hi
  exact ⟨fun htx => execWru_next.2 ⟨ha, htx, rfl⟩, execWru_of_not_ready u ha⟩

/-- Settles O14: each completes with its one update of the flags. -/
theorem clearAndEnable : Obligations.ClearAndEnable := by
  intro s hi
  have ha := admission_handle_of_outside hi
  exact ⟨execClrovr_next.2 ⟨ha, rfl⟩, execTxien_next.2 ⟨ha, rfl⟩, execTxidis_next.2 ⟨ha, rfl⟩⟩

/-- Settles O15: both forms are admitted, and an admitted RXIEN sets its flag. -/
theorem enableReceive : Obligations.EnableReceive := fun _ h =>
  execRxien_next.2 ⟨admission_setup_of_issuer h, rfl⟩

end Sys2Proof.Machine
end

