-- ==== Sys2Proof/Proofs/BoundedQueue.lean ====
section
/-! SUPPORT. The queue operations of spec/41_bounded_queue.md run alone: result, completion and frame (R121 to R125), the
refusals before QNEW (R120, R161), the capacity (R127) and the full queue that evicts nothing (R128). -/

namespace Sys2Proof.Machine

/-- The successor of an index is the 3-bit sum, which wraps at the capacity (R63). -/
theorem nextIndex_eq_add_one (i : Index) : nextIndex i = i + 1 := by
  refine BitVec.eq_of_toNat_eq ?_
  rw [nextIndex_toNat, BitVec.toNat_add]
  rfl

/-! ### Refusals (E3, E4) -/

/-- An admitted operation that asks for a built queue is refused before QNEW. -/
theorem perform_whenBuilt_of_not_built {α : Type} {k : OpClass} {s : State} {x : α} {f : α → Result × State}
    (ha : admission k s = none) (hb : s.qbuilt = false) :
    perform k s ((whenBuilt s x).map f) = .refused .queueNotBuilt := by
  have hop : whenBuilt s x = .error (.refuse .queueNotBuilt) := by simp [whenBuilt, hb]
  rw [perform_of_admitted ha, hop]
  rfl

theorem execQnew_of_built {s : State} (ha : admission .setup s = none) (hb : s.qbuilt = true) :
    execQnew s = .refused .alreadyBuilt := by
  have hop : opQnew s = .error (.refuse .alreadyBuilt) := by simp [opQnew, hb]
  rw [execQnew, hop, perform_of_admitted ha]
  rfl

/-- The converse of `issuer_of_handoff`. -/
theorem admission_handoff_of_issuer {s : State} (hi : s.issuer = some .initialiser) (ho : s.owner = .init)
    (hp : s.phase = .idle) : admission .handoff s = none := by
  simp [admission, hi, admissionInitialiser, ho, hp]

theorem execHandoff_of_not_built {s : State} (ha : admission .handoff s = none) (hb : s.qbuilt = false) :
    execHandoff s = .refused .queueNotBuilt := by
  obtain ⟨_, ho, _⟩ := issuer_of_handoff ha
  have hop : opHandoff s = .error (.refuse .queueNotBuilt) := by simp [opHandoff, ho, hb]
  rw [execHandoff, hop, perform_of_admitted ha]
  rfl

/-! ### The operations -/

section

variable {s : State}

theorem exec_enq_of_not_full (u : Datum) (hi : s.issuer = none) (hb : s.qbuilt = true) (hf : s.queueFull = false) :
    exec (.enq u) s = .next ((pushTail u s).respond (.enq .ok)) :=
  execEnq_next.2 ⟨admission_handle_of_outside hi, hb, by rw [hf]; rfl⟩

theorem exec_enq_of_full (u : Datum) (hi : s.issuer = none) (hb : s.qbuilt = true) (hf : s.queueFull = true) :
    exec (.enq u) s = .next (s.respond (.enq .full)) :=
  execEnq_next.2 ⟨admission_handle_of_outside hi, hb, (if_pos hf).symm⟩

theorem exec_deq_of_not_empty (hi : s.issuer = none) (hb : s.qbuilt = true) (he : s.queueEmpty = false) :
    exec .deq s = .next ((popHead s).respond (.option (some (memRead s s.head)))) :=
  execDeq_next.2 ⟨admission_handle_of_outside hi, hb, by rw [he]; rfl⟩

theorem exec_deq_of_empty (hi : s.issuer = none) (hb : s.qbuilt = true) (he : s.queueEmpty = true) :
    exec .deq s = .next (s.respond (.option none)) :=
  execDeq_next.2 ⟨admission_handle_of_outside hi, hb, (if_pos he).symm⟩

end

/-- Settles O17 by the two paths of QNEW, which both forms are admitted to. -/
theorem buildQueueOnce : Obligations.BuildQueueOnce := by
  intro s h
  have ha := admission_setup_of_issuer h
  exact ⟨fun hb => execQnew_next.2 ⟨ha, hb, rfl⟩, execQnew_of_built ha⟩

/-- Settles O18 by the two paths of ENQ. -/
theorem enqueue : Obligations.Enqueue := by
  intro s u hi hb
  refine ⟨fun hlt => ?ok, fun hle => exec_enq_of_full u hi hb (queueFull_iff.2 hle)⟩
  rw [← nextIndex_eq_add_one]
  exact exec_enq_of_not_full u hi hb (queueFull_false.2 hlt)

/-- Settles O19 by the two paths of DEQ. -/
theorem dequeue : Obligations.Dequeue := by
  intro s hi hb
  refine ⟨fun hpos => ?some, fun hz => exec_deq_of_empty hi hb (queueEmpty_iff.2 hz)⟩
  rw [← nextIndex_eq_add_one]
  exact exec_deq_of_not_empty hi hb (queueEmpty_false.2 hpos)

/-- Settles O20: each query completes with its result and no update of the state. -/
theorem queueQueries : Obligations.QueueQueries := by
  intro s hi hb
  have ha := admission_handle_of_outside hi
  refine ⟨?qempty, execQlen_next.2 ⟨ha, hb, rfl⟩⟩
  simp only [← queueEmpty_iff, ← encodeResult_bool]
  exact execQempty_next.2 ⟨ha, hb, rfl⟩

/-- Settles O21: the four operations by the one check they share, HANDOFF by its own. -/
theorem queueRefusedBeforeBuilt : Obligations.QueueRefusedBeforeBuilt := by
  intro s u hb
  refine ⟨fun hi => ?queue, fun hi ho hp => execHandoff_of_not_built (admission_handoff_of_issuer hi ho hp) hb⟩
  have ha := admission_handle_of_outside hi
  exact ⟨perform_whenBuilt_of_not_built ha hb, perform_whenBuilt_of_not_built ha hb,
    perform_whenBuilt_of_not_built ha hb, perform_whenBuilt_of_not_built ha hb⟩

/-! ### Capacity (R24, R127) -/

/-- A queue that is built is in order (R24): what every step keeps, also one outside any context. -/
abbrev BuiltInOrder (s : State) : Prop := s.qbuilt = true → QueueInv s

/-- Every path leaves the ring, builds it, appends below capacity or takes from a non-empty one. -/
theorem Ran.keeps_builtInOrder {i : Instr} {s t : State} (h : Ran i s t) (hs : BuiltInOrder s) : BuiltInOrder t := by
  cases h
  case qnew => exact fun _ => queueInv_buildQueue s
  case enqOk u _ hb hf => exact fun _ => (pushTail_spec u (hs hb) hf).2
  case deqSome _ hb he | svctxLast _ _ _ hb he _ | svctxMore _ _ _ hb he _ => exact fun _ => (popHead_spec (hs hb) he).2
  case svcrxFirst d _ _ _ hb hf _ _ | svcrxNext d _ _ _ hb hf _ _ =>
    rw [afterRead_eq]
    exact fun _ => (pushTail_spec d (hs hb) hf).2
  case svcrxFull => rw [afterRead_eq]; exact hs
  all_goals exact hs

theorem step_keeps_builtInOrder (s t : State) (hs : BuiltInOrder s) (h : step s = .next t) : BuiltInOrder t := by
  obtain ⟨_, u, hr, _, hu⟩ := ran_of_step h
  have hsu : BuiltInOrder u := by rw [hu]; exact hs
  exact hr.keeps_builtInOrder hsu

theorem queueFull_of_queue_length {s : State} (h : s.queue.length = 8) : s.queueFull = true :=
  queueFull_iff.2 (queue_length s ▸ h.ge)

/-- Settles O24: the order of a built queue bounds its length and is kept by every step; at 8 units ENQ takes its Full
path. -/
theorem capacityHolds : Obligations.CapacityHolds := by
  refine ⟨fun k s t h hs ht => ?bound, fun s u hi hb h8 => ?ninth⟩
  case bound => exact (run_keeps step_keeps_builtInOrder k s t hs h ht).1
  case ninth => exact ⟨_, exec_enq_of_full u hi hb (queueFull_of_queue_length h8), rfl, queue_respond s _⟩

/-! ### Drop newest (R128) -/

/-- SVCRX at a full queue leaves the queue and its storage: it receives nothing, or drops what it received. -/
theorem Ran.svcrx_of_full {s t : State} (h : Ran .svcrx s t) (hf : s.queueFull = true) :
    t.queue = s.queue ∧ t.slots = s.slots := by
  cases h
  case svcrxNone => exact ⟨rfl, rfl⟩
  case svcrxFull => simp [queue_afterRead]
  case svcrxFirst hf' _ _ | svcrxNext hf' _ _ => exact absurd (hf'.symm.trans hf) Bool.false_ne_true

/-- Settles O25: neither ENQ nor SVCRX has a path that stores at a full queue. -/
theorem dropNewest : Obligations.DropNewest := by
  refine ⟨fun s u hi hb h8 => ?enq, fun s t h h8 => ?svcrx⟩
  case enq => exact ⟨_, exec_enq_of_full u hi hb (queueFull_of_queue_length h8), queue_respond s _, rfl⟩
  case svcrx => exact (ran_of_exec h).svcrx_of_full (queueFull_of_queue_length h8)

end Sys2Proof.Machine
end

