-- ==== Sys2Proof/Proofs/FifoOrder.lean ====
section
/-! SUPPORT. First in, first out (spec/41_bounded_queue.md R126), proved of the abstract queue and carried to the ring by the
refinement of Proofs/RingAsList.lean. -/

namespace Sys2Proof.Machine

/-! ### What a response says was accepted or returned (R83, R126) -/

section

variable (is : List Instr) (ws : List Rsp) (u : Datum)

@[simp] theorem acceptedUnits_enq_ok :
    acceptedUnits (.enq u :: is) (encodeResult (.enq .ok) :: ws) = u :: acceptedUnits is ws := if_pos rfl

@[simp] theorem acceptedUnits_enq_full :
    acceptedUnits (.enq u :: is) (encodeResult (.enq .full) :: ws) = acceptedUnits is ws := if_neg (by decide)

/-- The `v` and the `d` of a response word. -/
theorem extract_valid_append : (1#1 ++ u).extractLsb' 16 1 = 1#1 ∧ (1#1 ++ u).extractLsb' 0 16 = u :=
  ⟨BitVec.extractLsb'_append_eq_left, BitVec.extractLsb'_append_eq_right⟩

@[simp] theorem returnedUnits_deq_some :
    returnedUnits (.deq :: is) (encodeResult (.option (some u)) :: ws) = u :: returnedUnits is ws := by
  obtain ⟨hv, hd⟩ := extract_valid_append u
  exact (if_pos hv).trans (congrArg (· :: _) hd)

@[simp] theorem returnedUnits_deq_none :
    returnedUnits (.deq :: is) (encodeResult (.option none) :: ws) = returnedUnits is ws := if_neg (by decide)

end

/-! ### The abstract queue -/

/-- The four operations that the abstract queue has are those of the codes 0x10 to 0x13 (R84). -/
theorem listOp_isSome {i : Instr} (h : 0x10 ≤ (opcode i).toNat ∧ (opcode i).toNat < 0x14) (q : List Datum) :
    ∃ r q', listOp i q = some (r, q') := by
  cases i
  case enq u => exact ⟨_, _, rfl⟩
  case deq | qempty | qlen => exact ⟨_, _, rfl⟩
  all_goals exact absurd h (by simp [opcode])

theorem listOps_of_listOp {i : Instr} {is : List Instr} {q q₁ q₂ : List Datum} {r : Result} {rs : List Result}
    (hop : listOp i q = some (r, q₁)) (hrest : listOps is q₁ = some (rs, q₂)) :
    listOps (i :: is) q = some (r :: rs, q₂) := by
  simp only [listOps, hop, hrest, Option.map_some]

/-- Any sequence of queue operations runs on the abstract queue. -/
theorem listOps_isSome {is : List Instr} (h : ∀ i ∈ is, 0x10 ≤ (opcode i).toNat ∧ (opcode i).toNat < 0x14)
    (q : List Datum) : ∃ rs q', listOps is q = some (rs, q') := by
  induction is generalizing q with
  | nil => exact ⟨[], q, rfl⟩
  | cons i is ih =>
    obtain ⟨hi, his⟩ := List.forall_mem_cons.1 h
    obtain ⟨r, q₁, hop⟩ := listOp_isSome hi q
    obtain ⟨rs, q₂, hrest⟩ := ih his q₁
    exact ⟨r :: rs, q₂, listOps_of_listOp hop hrest⟩

/-- One operation: what was held and then accepted is what is returned and then held. -/
theorem listOp_fifo {i : Instr} {is : List Instr} {ws : List Rsp} {q q₁ q₂ : List Datum} {r : Result}
    (hop : listOp i q = some (r, q₁)) (hrest : q₁ ++ acceptedUnits is ws = returnedUnits is ws ++ q₂) :
    q ++ acceptedUnits (i :: is) (encodeResult r :: ws) = returnedUnits (i :: is) (encodeResult r :: ws) ++ q₂ := by
  cases i
  case enq u =>
    have hop : listEnq u q = (r, q₁) := Option.some.inj hop
    unfold listEnq at hop
    split at hop <;> cases hop
    · rw [acceptedUnits_enq_ok, List.append_cons]; exact hrest
    · rw [acceptedUnits_enq_full]; exact hrest
  case deq =>
    cases q with
    | nil => cases hop; rw [returnedUnits_deq_none]; exact hrest
    | cons u q => cases hop; rw [returnedUnits_deq_some]; exact congrArg (u :: ·) hrest
  case qempty | qlen => cases hop; exact hrest
  all_goals cases hop

theorem listOps_fifo {is : List Instr} {q q' : List Datum} {rs : List Result} (h : listOps is q = some (rs, q')) :
    q ++ acceptedUnits is (rs.map encodeResult) = returnedUnits is (rs.map encodeResult) ++ q' := by
  induction is generalizing q rs with
  | nil => cases h; exact List.append_nil _
  | cons i is ih =>
    obtain ⟨r, q₁, rs₁, hop, hrest, rfl⟩ := listOps_cons h
    exact listOp_fifo hop (ih hrest)

/-- `Returns is q vs`: the operations complete on `q`, return `vs` and leave the queue empty. -/
def Returns (is : List Instr) (q vs : List Datum) : Prop :=
  ∃ rs, listOps is q = some (rs, []) ∧ returnedUnits is (rs.map encodeResult) = vs

/-- At least as many dequeues as units return them all. -/
theorem returns_deqs {n : Nat} {q : List Datum} (h : q.length ≤ n) : Returns (List.replicate n .deq) q q := by
  induction n generalizing q with
  | zero =>
    obtain rfl := List.eq_nil_of_length_eq_zero (Nat.le_zero.1 h)
    exact ⟨[], rfl, rfl⟩
  | succ n ih =>
    cases q with
    | nil =>
      obtain ⟨rs, hrest, hret⟩ := @ih [] (Nat.zero_le n)
      exact ⟨_, listOps_of_listOp rfl hrest, (returnedUnits_deq_none _ _).trans hret⟩
    | cons u q =>
      obtain ⟨rs, hrest, hret⟩ := ih (Nat.le_of_succ_le_succ h)
      exact ⟨_, listOps_of_listOp rfl hrest, (returnedUnits_deq_some _ _ _).trans (congrArg _ hret)⟩

theorem listEnq_length_le {q : List Datum} (u : Datum) (h : q.length ≤ 8) : (listEnq u q).2.length ≤ 8 := by
  unfold listEnq
  split
  case isTrue hlt => simpa using hlt
  case isFalse => exact h

/-- ENQ, as far as the capacity reaches, appends its unit to the queue: at capacity both sides are the queue held. -/
theorem take_listEnq_append {q : List Datum} (u : Datum) (us : List Datum) (h : q.length ≤ 8) :
    ((listEnq u q).2 ++ us).take 8 = (q ++ u :: us).take 8 := by
  unfold listEnq
  split
  case isTrue => rw [← List.append_cons]
  case isFalse hge =>
    have h8 : q.length = 8 := Nat.le_antisymm h (Nat.not_lt.1 hge)
    rw [List.take_left' h8, List.take_left' h8]

/-- Enqueues before other operations: these run on the queue with the units appended, cut at the capacity. -/
theorem returns_enqs_append {us : List Datum} {is : List Instr} {q vs : List Datum} (hq : q.length ≤ 8)
    (h : Returns is ((q ++ us).take 8) vs) : Returns (us.map .enq ++ is) q vs := by
  induction us generalizing q with
  | nil =>
    rw [List.append_nil, List.take_of_length_le hq] at h
    exact h
  | cons u us ih =>
    rw [← take_listEnq_append u us hq] at h
    obtain ⟨rs, hrest, hret⟩ := ih (listEnq_length_le u hq) h
    exact ⟨_, listOps_of_listOp rfl hrest, hret⟩

/-- Settles O23: both laws hold of the abstract queue, and the ring runs as it does (O22). -/
theorem fifoOrder : Obligations.FifoOrder := by
  refine ⟨fun is s t ws his hi hb hq h => ?interleaving, fun us s hi hb hq he => ?enqsThenDeqs⟩
  case interleaving =>
    obtain ⟨rs, q, hlist⟩ := listOps_isSome his s.queue
    obtain ⟨t', hseq, rfl, _⟩ := ringRefinesList is s rs q hi hb hq hlist
    cases h.symm.trans hseq
    exact listOps_fifo hlist
  case enqsThenDeqs =>
    have hdeqs : Returns (.replicate us.length .deq) (us.take 8) (us.take 8) := returns_deqs (List.length_take_le' _ _)
    obtain ⟨rs, hlist, hret⟩ := returns_enqs_append (q := []) (Nat.zero_le 8) hdeqs
    obtain ⟨t, hseq, ht, _⟩ := ringRefinesList _ s rs [] hi hb hq (by rw [he]; exact hlist)
    exact ⟨_, t, hseq, hret, ht⟩

end Sys2Proof.Machine
end

