-- ==== Sys2Proof/Proofs/Pipeline.lean ====
section
/-! SUPPORT. The units sent or on their way (spec/41_bounded_queue.md R126, R128, spec/42_service_sequencer.md R149,
spec/44_line_events.md R183), path by path of an agent's step. -/

namespace Sys2Proof.Machine

/-! ### The parts of the pipeline, from the line back to RDR -/

/-- The unit in TDR, while it waits for the line. -/
def State.waiting (s : State) : List Datum := if s.txe then [] else [s.tdr]

/-- The units in the queue, once it is built. -/
def State.held (s : State) : List Datum := if s.qbuilt then s.queue else []

/-- The unread unit in RDR, transformed. -/
def State.unread (s : State) : List Datum := if s.rxne then transformed s.rdr else []

section

variable {s : State}

theorem pipeline_eq (s : State) : s.pipeline = s.txLine ++ s.waiting ++ s.held ++ s.unread := rfl

theorem waiting_of_ready (h : s.txe = true) : s.waiting = [] := if_pos h

theorem waiting_of_busy (h : s.txe = false) : s.waiting = [s.tdr] := if_neg (Bool.eq_false_iff.1 h)

theorem held_of_built (h : s.qbuilt = true) : s.held = s.queue := if_pos h

theorem held_of_not_built (h : s.qbuilt = false) : s.held = [] := if_neg (Bool.eq_false_iff.1 h)

theorem unread_of_received (h : s.rxne = true) : s.unread = transformed s.rdr := if_pos h

theorem unread_of_none (h : s.rxne = false) : s.unread = [] := if_neg (Bool.eq_false_iff.1 h)

theorem transformed_of_ok {u d : Datum} (h : opXform u = .ok d) : transformed u = [d] := by
  rw [transformed, h]

/-! ### Updates that leave the pipeline -/

@[simp] theorem pipeline_respond (r : Result) : (s.respond r).pipeline = s.pipeline := rfl
@[simp] theorem pipeline_setPhase (p : Phase) : (s.setPhase p).pipeline = s.pipeline := rfl
@[simp] theorem pipeline_enableTx : s.enableTx.pipeline = s.pipeline := rfl
@[simp] theorem pipeline_disableTx : s.disableTx.pipeline = s.pipeline := rfl
@[simp] theorem pipeline_countDropFull : s.countDropFull.pipeline = s.pipeline := rfl

/-- QNEW finds no queue and leaves an empty one. -/
theorem pipeline_buildQueue (hb : s.qbuilt = false) : s.buildQueue.pipeline = s.pipeline :=
  calc s.buildQueue.pipeline
    _ = s.txLine ++ s.waiting ++ [] ++ s.unread := rfl
    _ = s.pipeline := by rw [pipeline_eq, held_of_not_built hb]

/-! ### Updates that move a unit -/

/-- The unit in TDR goes to the line's end (R182). -/
theorem pipeline_emitTdr_setTxe (h : s.txe = false) : s.emitTdr.setTxe.pipeline = s.pipeline :=
  calc s.emitTdr.setTxe.pipeline
    _ = s.txLine ++ [s.tdr] ++ [] ++ s.held ++ s.unread := rfl
    _ = s.pipeline := by rw [pipeline_eq, waiting_of_busy h, List.append_nil]

/-- The oldest unit goes from the queue to an empty TDR (R143). -/
theorem pipeline_popHead_loadTdr (hq : QueueInv s) (hb : s.qbuilt = true) (htx : s.txe = true)
    (he : s.queueEmpty = false) : ((popHead s).loadTdr (memRead s s.head)).clearTxe.pipeline = s.pipeline := by
  have hheld : s.held = memRead s s.head :: (popHead s).held := by
    rw [held_of_built hb, held_of_built (s := popHead s) hb, (popHead_spec hq he).1]
  calc ((popHead s).loadTdr (memRead s s.head)).clearTxe.pipeline
    _ = s.txLine ++ [memRead s s.head] ++ (popHead s).held ++ s.unread := rfl
    _ = s.pipeline := by rw [pipeline_eq, waiting_of_ready htx, hheld, List.append_nil, ← List.append_cons]

/-- The unread unit, transformed, goes to the queue's young end (R144). -/
theorem pipeline_pushTail_afterRead {d : Datum} (hq : QueueInv s) (hb : s.qbuilt = true) (hrx : s.rxne = true)
    (hf : s.queueFull = false) (hx : opXform s.rdr = .ok d) : (pushTail d (afterRead s)).pipeline = s.pipeline := by
  have hheld : (pushTail d s).held = s.held ++ [d] := by
    rw [held_of_built hb, held_of_built (s := pushTail d s) hb, (pushTail_spec d hq hf).1]
  calc (pushTail d (afterRead s)).pipeline
    _ = s.txLine ++ s.waiting ++ (pushTail d s).held ++ [] := by rw [afterRead_eq]; rfl
    _ = s.pipeline := by
      rw [pipeline_eq, unread_of_received hrx, transformed_of_ok hx, hheld, List.append_nil, List.append_assoc,
        List.append_assoc, List.append_assoc]

/-- A unit received at a full queue is lost: the youngest on its way (R128). -/
theorem pipeline_afterRead (hrx : s.rxne = true) : (afterRead s).pipeline ++ transformed s.rdr = s.pipeline := by
  have hread : (afterRead s).pipeline = s.txLine ++ s.waiting ++ s.held ++ [] := by rw [afterRead_eq]; rfl
  rw [hread, List.append_nil, pipeline_eq, unread_of_received hrx]

/-- A unit that arrives into an empty RDR is the youngest on its way (R181). -/
theorem pipeline_loadRdr_setRxne (u : Datum) (h : s.rxne = false) :
    (s.loadRdr u).setRxne.pipeline = s.pipeline ++ transformed u :=
  calc (s.loadRdr u).setRxne.pipeline
    _ = s.txLine ++ s.waiting ++ s.held ++ transformed u := rfl
    _ = s.pipeline ++ transformed u := by rw [pipeline_eq, unread_of_none h, List.append_nil]

end

/-- A queue in order that is full holds 8 units. -/
theorem queue_length_of_full {s : State} (hq : QueueInv s) (hf : s.queueFull = true) : s.queue.length = 8 := by
  rw [queue_length]
  exact Nat.le_antisymm hq.1 (queueFull_iff.1 hf)

/-- One lemma for each path that moves a unit; an agent's other paths touch nothing that is on its way. -/
theorem Ran.pipeline_cases {i : Instr} {s t : State} (h : Ran i s t) (hs : UfcInv s) (hi : s.issuer ≠ none) :
    t.pipeline = s.pipeline ∨
    (∃ u, i = .rxarr u ∧ s.rxne = false ∧ t.pipeline = s.pipeline ++ transformed u) ∨
    (i = .svcrx ∧ s.rxne = true ∧ s.queue.length = 8 ∧ t.pipeline ++ transformed s.rdr = s.pipeline) := by
  obtain ⟨hq, _⟩ := hs
  cases h
  case rxrdy ha | txrdy ha | ovr ha | rdu ha _ | wru ha _ | clrovr ha | txien ha | txidis ha | enqFull ha _ _ |
      enqOk ha _ _ | deqNone ha _ _ | deqSome ha _ _ | qempty ha _ | qlen ha _ =>
    exact absurd (issuer_of_handle ha) hi
  case qnew _ hb => exact .inl (pipeline_buildQueue hb)
  case txdrn _ htx => exact .inl (pipeline_emitTdr_setTxe htx)
  case svctxLast _ _ htx hb he _ | svctxMore _ _ htx hb he _ =>
    refine .inl ?_
    simp only [pipeline_respond, pipeline_setPhase, pipeline_disableTx]
    exact pipeline_popHead_loadTdr (hq hb) hb htx he
  case svcrxFirst _ _ hrx hb hf _ hx | svcrxNext _ _ hrx hb hf _ hx =>
    refine .inl ?_
    simp only [pipeline_respond, pipeline_setPhase, pipeline_enableTx]
    exact pipeline_pushTail_afterRead (hq hb) hb hrx hf hx
  case svcrxFull _ _ hrx hb hf _ =>
    rw [pipeline_respond, pipeline_setPhase, pipeline_countDropFull]
    exact .inr (.inr ⟨rfl, hrx, queue_length_of_full (hq hb) hf, pipeline_afterRead hrx⟩)
  case rxarrLoad u _ hrx => exact .inr (.inl ⟨u, rfl, hrx, pipeline_loadRdr_setRxne u hrx⟩)
  all_goals exact .inl rfl

/-- Settles O55 by the paths of `Ran`. -/
theorem pipelineInOrder : Obligations.PipelineInOrder := fun _ _ _ hs hi h => (ran_of_exec h).pipeline_cases hs hi

end Sys2Proof.Machine
end

