-- ==== Sys2Proof/Proofs/ServicePhases.lean ====
section
/-! SUPPORT. The operations of spec/42_service_sequencer.md one by one, result, completion and frame: the transform
(R141), the entry (R142) and the three phases (R143 to R145), none of which waits for a flag (R151). -/

namespace Sys2Proof.Machine

/-! ### Admission of the running contexts (R90) -/

section

variable {s : State}

/-- The converse of `issuer_of_phase`. -/
theorem admission_phase_of_issuer (hi : s.issuer = some .sequencer) (ho : s.owner = .isr) :
    admission .phase s = none := by
  simp [admission, hi, admissionSequencer, ho]

/-- The converse of `issuer_of_entry`. -/
theorem admission_entry_of_issuer (hi : s.issuer = some .controller) : admission .entry s = none := by
  simp [admission, hi]

/-- The converse of `issuer_of_line`. -/
theorem admission_line_of_issuer (hi : s.issuer = some .line) : admission .line s = none := by
  simp [admission, hi]

/-- The converse of `issuer_of_pure`. -/
theorem admission_pure_of_issuer
    (h : s.issuer = none ∨ (s.issuer = some .initialiser ∧ s.phase = .idle) ∨
      (s.issuer = some .sequencer ∧ s.phase ≠ .idle)) : admission .pure s = none := by
  rcases h with hi | ⟨hi, hp⟩ | ⟨hi, hp⟩
  · simp [admission, hi, admissionOutside]
  · simp [admission, hi, admissionInitialiser, hp]
  · simp [admission, hi, admissionSequencer, hp]

end

/-- An admitted operation whose "enabled iff" condition fails has no step. -/
theorem perform_of_not_enabled {k : OpClass} {s : State} {c : Bool} {x : Except Stop (Result × State)}
    (ha : admission k s = none) (hc : c = false) : perform k s (whenEnabled c x) = .refused .notEnabled := by
  rw [perform_of_admitted ha, hc]
  rfl

/-! ### The transform (R141) -/

section

variable {s : State} {u : Datum}

theorem exec_xform_of_ok {d : Datum} (ha : admission .pure s = none) (hx : opXform u = .ok d) :
    exec (.xform u) s = .next { s with response := some (1#1 ++ d) } :=
  execXform_next.2 ⟨ha, d, hx, rfl⟩

theorem sub_offset_toNat_above (h : 32 ≤ u.toNat) : (u - 32#16).toNat = u.toNat - 32 :=
  BitVec.toNat_sub_of_le h

/-- Below the offset the difference wraps: it is the sum with `2 ^ 16 - 32`. -/
theorem sub_offset_toNat_below (h : u.toNat < 32) : (u - 32#16).toNat = u.toNat + 65504 := by
  have h32 : (32#16 : Datum).toNat = 32 := rfl
  rw [BitVec.toNat_sub, h32]
  show (2 ^ 16 - 32 + u.toNat) % 2 ^ 16 = _
  omega

end

/-- Settles O27: the three contexts are admitted, and the result is the difference on 16 bits, read as a number on either
side of 32. -/
theorem transformSubtracts : Obligations.TransformSubtracts := by
  intro s u
  refine ⟨fun hctx => ⟨fun hu => ?above, fun hu hx => ?below⟩, fun hi hp => ?idle⟩
  case above =>
    exact ⟨_, sub_offset_toNat_above hu, exec_xform_of_ok (admission_pure_of_issuer hctx) (opXform_above hu)⟩
  case below =>
    exact ⟨_, sub_offset_toNat_below hu, exec_xform_of_ok (admission_pure_of_issuer hctx) (opXform_wrap hx u)⟩
  case idle =>
    exact exec_of_not_admitted (i := .xform u) (by simp [opClass, admission, hi, admissionSequencer, hp])

/-! ### Entry and return (R142, R145) -/

/-- IRQENT while the initialiser still owns the peripheral meets the fault F1 of R142. -/
theorem execIrqent_of_init {s : State} (ha : admission .entry s = none) (hu : s.unmasked = true) (hq : s.irq = true)
    (hp : s.phase = .idle) (ho : s.owner = .init) : execIrqent s = .fault .uninitializedService :=
  perform_fault.2 ⟨ha, by simp [whenEnabled, hu, hq, hp, enterService, ho, Except.map]⟩

/-- Settles O28 by the two outcomes of an enabled IRQENT and its condition. -/
theorem entryOfService : Obligations.EntryOfService := by
  intro s hi
  have ha := admission_entry_of_issuer hi
  refine ⟨fun hu hq hp ho => execIrqent_next.2 ⟨ha, ⟨hu, hq, hp⟩, ho, rfl⟩, execIrqent_of_init ha, fun h => ?notEnabled⟩
  exact perform_of_not_enabled ha (by rcases h with h | h | h <;> simp [h])

/-- Settles O31: in its phase SVCOVR completes, and its phase is its condition. -/
theorem overrunPhaseAndReturn : Obligations.OverrunPhaseAndReturn := by
  intro s hi ho
  have ha := admission_phase_of_issuer hi ho
  exact ⟨fun hp => execSvcovr_next.2 ⟨ha, hp, rfl⟩, fun hp => perform_of_not_enabled ha (decide_eq_false hp)⟩

/-! ### SVCTX (R143) -/

section

variable {s : State}

theorem exec_svctx_of_serviceTx {t : State} (ha : admission .phase s = none) (hp : s.phase = .tx)
    (h : serviceTx s = .ok t) : exec .svctx s = .next ((t.setPhase .rx).respond .nothing) :=
  execSvctx_next.2 ⟨ha, hp, t, h, rfl⟩

theorem serviceTx_of_not_ready (htx : s.txe = false) : serviceTx s = .ok s := serviceTx_ok.2 (.inl ⟨htx, rfl⟩)

theorem serviceTx_of_empty (htx : s.txe = true) (hb : s.qbuilt = true) (he : s.queueEmpty = true) :
    serviceTx s = .ok s.disableTx.countSpurious :=
  serviceTx_ok.2 (.inr (.inl ⟨htx, hb, he, rfl⟩))

theorem serviceTx_of_last (htx : s.txe = true) (hb : s.qbuilt = true) (he : s.queueEmpty = false)
    (hl : (popHead s).queueEmpty = true) :
    serviceTx s = .ok ((popHead s).loadTdr (memRead s s.head)).clearTxe.disableTx :=
  serviceTx_ok.2 (.inr (.inr ⟨htx, hb, he, (if_pos hl).symm⟩))

theorem serviceTx_of_more (htx : s.txe = true) (hb : s.qbuilt = true) (he : s.queueEmpty = false)
    (hl : (popHead s).queueEmpty = false) :
    serviceTx s = .ok ((popHead s).loadTdr (memRead s s.head)).clearTxe :=
  serviceTx_ok.2 (.inr (.inr ⟨htx, hb, he, (if_neg (Bool.eq_false_iff.1 hl)).symm⟩))

/-- SVCTX's body completes whatever the flags and the queue are, once the queue is built. -/
theorem serviceTx_completes (hb : s.qbuilt = true) : ∃ t, serviceTx s = .ok t := by
  cases htx : s.txe with
  | false => exact ⟨_, serviceTx_of_not_ready htx⟩
  | true =>
    cases he : s.queueEmpty with
    | true => exact ⟨_, serviceTx_of_empty htx hb he⟩
    | false => exact ⟨_, serviceTx_ok.2 (.inr (.inr ⟨htx, hb, he, rfl⟩))⟩

end

/-- Settles O29 by the four paths of SVCTX's body. With one unit the length after is the 0 that the rule tests. -/
theorem transmitPhase : Obligations.TransmitPhase := by
  intro s hi ho
  have ha := admission_phase_of_issuer hi ho
  refine ⟨fun hp => perform_of_not_enabled ha (decide_eq_false hp),
    fun hp htx => exec_svctx_of_serviceTx ha hp (serviceTx_of_not_ready htx),
    fun hp htx hb h0 => exec_svctx_of_serviceTx ha hp (serviceTx_of_empty htx hb (queueEmpty_iff.2 h0)),
    fun hp htx hb h1 => ?last, fun hp htx hb h2 => ?more⟩ <;> rw [← nextIndex_eq_add_one]
  case last =>
    have he : s.queueEmpty = false := queueEmpty_false.2 (by omega)
    have hl : (popHead s).len.toNat = 0 := by rw [popHead_len_toNat he, h1]
    have hlen : (popHead s).len = 0 := BitVec.eq_of_toNat_eq hl
    rw [← hlen]
    exact exec_svctx_of_serviceTx ha hp (serviceTx_of_last htx hb he (queueEmpty_iff.2 hl))
  case more =>
    have he : s.queueEmpty = false := queueEmpty_false.2 (by omega)
    have hl : 0 < (popHead s).len.toNat := by rw [popHead_len_toNat he]; omega
    exact exec_svctx_of_serviceTx ha hp (serviceTx_of_more htx hb he (queueEmpty_false.2 hl))

/-! ### SVCRX (R144) -/

section

variable {s : State} {d : Datum}

theorem exec_svcrx_of_serviceRx {t : State} (ha : admission .phase s = none) (hp : s.phase = .rx)
    (h : serviceRx s = .ok t) : exec .svcrx s = .next ((t.setPhase .ovr).respond .nothing) :=
  execSvcrx_next.2 ⟨ha, hp, t, h, rfl⟩

theorem serviceRx_of_none (hrx : s.rxne = false) : serviceRx s = .ok s := serviceRx_ok.2 (.inl ⟨hrx, rfl⟩)

theorem serviceRx_of_full (hrx : s.rxne = true) (hb : s.qbuilt = true) (hf : s.queueFull = true)
    (hx : opXform s.rdr = .ok d) : serviceRx s = .ok (afterRead s).countDropFull :=
  serviceRx_ok.2 (.inr (.inl ⟨hrx, hb, hf, ⟨d, hx⟩, rfl⟩))

theorem serviceRx_of_first (hrx : s.rxne = true) (hb : s.qbuilt = true) (hf : s.queueFull = false)
    (he : s.queueEmpty = true) (hx : opXform s.rdr = .ok d) :
    serviceRx s = .ok (pushTail d (afterRead s)).enableTx :=
  serviceRx_ok.2 (.inr (.inr ⟨hrx, hb, hf, d, hx, (if_pos he).symm⟩))

theorem serviceRx_of_next (hrx : s.rxne = true) (hb : s.qbuilt = true) (hf : s.queueFull = false)
    (he : s.queueEmpty = false) (hx : opXform s.rdr = .ok d) :
    serviceRx s = .ok (pushTail d (afterRead s)) :=
  serviceRx_ok.2 (.inr (.inr ⟨hrx, hb, hf, d, hx, (if_neg (Bool.eq_false_iff.1 he)).symm⟩))

/-- SVCRX's body completes whatever the flags and the queue are, once the queue is built and a unit received has a
transform. -/
theorem serviceRx_completes (hb : s.qbuilt = true) (hx : s.rxne = true → opXform s.rdr = .ok d) :
    ∃ t, serviceRx s = .ok t := by
  cases hrx : s.rxne with
  | false => exact ⟨_, serviceRx_of_none hrx⟩
  | true =>
    cases hf : s.queueFull with
    | true => exact ⟨_, serviceRx_of_full hrx hb hf (hx hrx)⟩
    | false => exact ⟨_, serviceRx_ok.2 (.inr (.inr ⟨hrx, hb, hf, d, hx hrx, rfl⟩))⟩

end

/-- Settles O30 by the four paths of SVCRX's body; a unit on either side of 32 has the difference as its transform. -/
theorem receivePhase : Obligations.ReceivePhase := by
  intro s hi ho
  have ha := admission_phase_of_issuer hi ho
  refine ⟨fun hp => perform_of_not_enabled ha (decide_eq_false hp),
    fun hp hrx => exec_svcrx_of_serviceRx ha hp (serviceRx_of_none hrx), fun hp hrx hb hu => ?received⟩
  have hx : opXform s.rdr = .ok (s.rdr - 32#16) := hu.elim opXform_above fun hw => opXform_wrap hw s.rdr
  rw [← nextIndex_eq_add_one]
  refine ⟨fun h0 => ?first, fun h1 h7 => ?next, fun h8 => ?full⟩
  case first =>
    have hlen : s.len + 1 = 1 := by rw [BitVec.eq_of_toNat_eq (y := 0) h0]; rfl
    have h := exec_svcrx_of_serviceRx ha hp
      (serviceRx_of_first hrx hb (queueFull_false.2 (by omega)) (queueEmpty_iff.2 h0) hx)
    rw [afterRead_eq] at h
    rw [← hlen]
    exact h
  case next =>
    have h := exec_svcrx_of_serviceRx ha hp
      (serviceRx_of_next hrx hb (queueFull_false.2 h7) (queueEmpty_false.2 h1) hx)
    rw [afterRead_eq] at h
    exact h
  case full =>
    have h := exec_svcrx_of_serviceRx ha hp (serviceRx_of_full hrx hb (queueFull_iff.2 h8) hx)
    rw [afterRead_eq] at h
    exact h

/-! ### No phase waits (R151) -/

/-- Settles O38: the sequencer serves after the handoff only, when the queue is built, and then each body completes. -/
theorem phasesAlwaysComplete : Obligations.PhasesAlwaysComplete := by
  intro hw s hs hi
  have inService : s.phase ≠ .idle → admission .phase s = none ∧ s.qbuilt = true := fun hp => by
    obtain ⟨_, hisr, hinit, _⟩ := hs
    cases ho : s.owner with
    | init => exact absurd (hinit ho).1 hp
    | isr => exact ⟨admission_phase_of_issuer hi ho, (hisr ho).1⟩
  refine ⟨fun hp => ?tx, fun hp => ?rx, fun hp => ?ovr⟩ <;> obtain ⟨ha, hb⟩ := inService (by simp [hp])
  case tx =>
    obtain ⟨t, ht⟩ := serviceTx_completes hb
    exact ⟨_, exec_svctx_of_serviceTx ha hp ht⟩
  case rx =>
    obtain ⟨t, ht⟩ := serviceRx_completes hb fun _ => opXform_wrap hw s.rdr
    exact ⟨_, exec_svcrx_of_serviceRx ha hp ht⟩
  case ovr => exact ⟨_, execSvcovr_next.2 ⟨ha, hp, rfl⟩⟩

end Sys2Proof.Machine
end

