-- ==== Sys2Proof/Proofs/ServiceRuns.lean ====
section
/-! SUPPORT. What the runs of the service sequencer keep: no step stands between its phases (spec/42_service_sequencer.md
R146, spec/60_exceptions.md R204), only a phase withdraws a request (R142, R202), and after the handoff nothing faults
(R151, R206). -/

namespace Sys2Proof.Machine

/-! ### Who steps inside an invocation (R204, R209) -/

theorem admission_of_exec {i : Instr} {s t : State} (h : exec i s = .next t) : admission (opClass i) s = none := by
  cases ha : admission (opClass i) s with
  | none => rfl
  | some r => rw [exec_of_not_admitted ha] at h; cases h

/-- The sequencer's own operations are the three phases and the evaluation of XFORM. -/
theorem operation_of_sequencer {i : Instr} {s : State} (hi : s.issuer = some .sequencer)
    (ha : admission (opClass i) s = none) : i = .svctx ∨ i = .svcrx ∨ i = .svcovr ∨ ∃ u, i = .xform u := by
  rw [admission, hi] at ha
  cases i
  case svctx | svcrx | svcovr | xform _ => simp
  all_goals cases ha

/-- A step of the sequencer is the phase whose turn it is (R33). -/
theorem phase_of_sequencer {i : Instr} {s t : State} (h : exec i s = .next t) (hi : s.issuer = some .sequencer)
    (he : isEvaluation s.issuer i = false) :
    (i = .svctx ∧ s.phase = .tx ∧ t.phase = .rx) ∨ (i = .svcrx ∧ s.phase = .rx ∧ t.phase = .ovr) ∨
    (i = .svcovr ∧ s.phase = .ovr ∧ t.phase = .idle) := by
  have hphase := (ran_of_exec h).phase_order
  rcases operation_of_sequencer hi (admission_of_exec h) with rfl | rfl | rfl | ⟨u, rfl⟩
  case inr.inr.inr => rw [hi] at he; cases he
  all_goals simpa using hphase

/-- Inside an invocation the initialiser is not running. -/
theorem admission_initialiser_in_service {k : OpClass} {s : State} (hi : s.issuer = some .initialiser)
    (hp : s.phase ≠ .idle) : admission k s ≠ none := by
  rw [admission, hi]
  cases ho : s.owner <;> cases k <;> simp [admissionInitialiser, hp, ho]

/-- Inside an invocation a step is the sequencer's or the line's, and the line's leaves the phase. -/
theorem agent_in_service {i : Instr} {s t : State} {a : Agent} (h : exec i s = .next t) (hi : s.issuer = some a)
    (hp : s.phase ≠ .idle) : a = .sequencer ∨ (a = .line ∧ t.phase = s.phase) := by
  have ha := admission_of_exec h
  cases a with
  | initialiser => exact absurd ha (admission_initialiser_in_service hi hp)
  | sequencer => exact .inl rfl
  | controller =>
    rw [admission, hi] at ha
    cases i
    case irqent =>
      obtain ⟨_, ⟨_, _, hidle⟩, _⟩ := execIrqent_next.1 h
      exact absurd hidle hp
    all_goals cases ha
  | line =>
    rw [admission, hi] at ha
    refine .inr ⟨rfl, ?_⟩
    cases i
    case rxarr u => simpa using (ran_of_exec h).phase_frame
    case txdrn => simpa using (ran_of_exec h).phase_frame
    all_goals cases ha

/-- Settles O35: the step's operation ran in the state before it but for the model's own fields, which no operation
writes. -/
theorem runsToCompletion : Obligations.RunsToCompletion := by
  intro s t h
  obtain ⟨i, u, hx, he, _, hu⟩ := step_next h
  obtain ⟨hissuer, hinbox, hevaluated, htick⟩ := (ran_of_exec hx).own_fields_frame
  have hphase : u.phase = s.phase := by rw [hu]
  refine ⟨fun hi => ?sequencer, fun a hi hp => ?inService⟩
  case sequencer =>
    rw [hissuer] at hi
    have hstate : { s with
        issuer := some .sequencer, inbox := t.inbox, response := u.response, evaluated := t.evaluated,
        tick := t.tick } = u := by
      rw [hinbox, hevaluated, htick, ← hi]
      exact hu.symm
    have hturn := phase_of_sequencer hx hi he
    rw [hphase] at hturn
    refine ⟨u.response, ?_⟩
    simp only [hstate]
    rcases hturn with ⟨rfl, hp, hp'⟩ | ⟨rfl, hp, hp'⟩ | ⟨rfl, hp, hp'⟩
    · exact .inl ⟨hp, hx, hp'⟩
    · exact .inr (.inl ⟨hp, hx, hp'⟩)
    · exact .inr (.inr ⟨hp, hx, hp'⟩)
  case inService =>
    rw [← hphase] at hp ⊢
    exact agent_in_service hx (hissuer ▸ hi) hp

/-! ### The request (R36, R142, R202) -/

/-- A request stands while the enables do and no flag that raises it is cleared. -/
theorem irq_mono {s t : State} (h : s.irq = true) (hrxneie : t.rxneie = s.rxneie) (htxeie : t.txeie = s.txeie)
    (hrxne : s.rxne = true → t.rxne = true) (hore : s.ore = true → t.ore = true) 
    (htxe : s.txe = true → t.txe = true) : t.irq = true := by
  rw [requestEquation] at h ⊢
  rw [hrxneie, htxeie]
  exact h.imp (.imp id (.imp hrxne hore)) (.imp id htxe)

/-- An agent's path that is no phase's clears no flag and, after the handoff, no enable. -/
theorem Ran.keeps_irq {i : Instr} {s t : State} (h : Ran i s t) (hi : s.issuer ≠ none) (ho : s.owner = .isr)
    (hirq : s.irq = true) (htx : i ≠ .svctx) (hrx : i ≠ .svcrx) (hovr : i ≠ .svcovr) : t.irq = true := by
  cases h
  case rxrdy ha | txrdy ha | ovr ha | rdu ha _ | wru ha _ | clrovr ha | txien ha | txidis ha | enqFull ha _ _ |
      enqOk ha _ _ | deqNone ha _ _ | deqSome ha _ _ | qempty ha _ | qlen ha _ =>
    exact absurd (issuer_of_handle ha) hi
  case rxien ha | qnew ha _ =>
    rcases issuer_of_setup ha with hn | ⟨_, hinit, _⟩
    · exact absurd hn hi
    · cases ho.symm.trans hinit
  case handoff hinit _ => cases ho.symm.trans hinit
  case svctxNotReady | svctxEmpty | svctxLast | svctxMore => exact absurd rfl htx
  case svcrxNone | svcrxFull | svcrxFirst | svcrxNext => exact absurd rfl hrx
  case svcovr => exact absurd rfl hovr
  case irqent | xform | unmask | wfi => exact hirq
  case rxarrLoad => exact irq_mono hirq rfl rfl (fun _ => rfl) id id
  case rxarrOverrun => exact irq_mono hirq rfl rfl id (fun _ => rfl) id
  case txdrn => exact irq_mono hirq rfl rfl id id (fun _ => rfl)

/-- Settles O36 by the paths of `Ran`. -/
theorem requestPersists : Obligations.RequestPersists := fun _ _ _ hi ho h => (ran_of_exec h).keeps_irq hi ho

/-! ### Faults (R151, R196, R206) -/

/-- The rule `x` ends in no fault. -/
def NeverFaults {α : Type} (x : Except Stop α) : Prop := ∀ f, x ≠ .error (.fault f)

section

variable {α β : Type}

theorem neverFaults_ok (a : α) : NeverFaults (.ok a : Except Stop α) := nofun

theorem neverFaults_refuse (r : Refusal) : NeverFaults (.error (.refuse r) : Except Stop α) := nofun

theorem NeverFaults.map {x : Except Stop α} (h : NeverFaults x) (f : α → β) : NeverFaults (x.map f) := by
  cases x with
  | ok a => exact neverFaults_ok _
  | error e => rintro r ⟨⟩; exact h r rfl

theorem NeverFaults.bind {x : Except Stop α} {f : α → Except Stop β} (h : NeverFaults x) (hf : ∀ a, NeverFaults (f a)) :
    NeverFaults (x.bind f) := by
  cases x with
  | ok a => exact hf a
  | error e => rintro r ⟨⟩; exact h r rfl

theorem NeverFaults.ite {c : Prop} [Decidable c] {x y : Except Stop α} (hx : NeverFaults x) (hy : NeverFaults y) :
    NeverFaults (if c then x else y) := by
  split
  · exact hx
  · exact hy

theorem neverFaults_whenBuilt (s : State) (a : α) : NeverFaults (whenBuilt s a) :=
  (neverFaults_ok a).ite (neverFaults_refuse _)

theorem NeverFaults.whenEnabled {c : Bool} {x : Except Stop (Result × State)} (h : NeverFaults x) :
    NeverFaults (whenEnabled c x) :=
  h.ite (neverFaults_refuse _)

theorem NeverFaults.perform_ne_fault {k : OpClass} {s : State} {x : Except Stop (Result × State)} (h : NeverFaults x)
    (f : Fault) : perform k s x ≠ .fault f := fun hf => h f (perform_fault.1 hf).2

end

section

variable (s : State) (u : Datum)

theorem opRdu_neverFaults : NeverFaults (opRdu s) := (neverFaults_ok _).ite (neverFaults_refuse _)

theorem opWru_neverFaults : NeverFaults (opWru u s) := (neverFaults_ok _).ite (neverFaults_refuse _)

theorem opQnew_neverFaults : NeverFaults (opQnew s) := (neverFaults_refuse _).ite (neverFaults_ok _)

theorem opHandoff_neverFaults : NeverFaults (opHandoff s) :=
  (neverFaults_refuse _).ite ((neverFaults_ok _).ite (neverFaults_refuse _))

theorem opXform_neverFaults (hw : Config.xformLow = .wrap) : NeverFaults (opXform u) := by
  rw [opXform_wrap hw]
  exact neverFaults_ok _

theorem serviceTx_neverFaults : NeverFaults (serviceTx s) := by
  refine (NeverFaults.bind (neverFaults_whenBuilt _ _) fun d => ?_).ite (neverFaults_ok _)
  cases d.1 with
  | some u => exact (opWru_neverFaults _ _).bind fun t => (neverFaults_whenBuilt _ _).map _
  | none => exact neverFaults_ok _

theorem serviceRx_neverFaults (hw : Config.xformLow = .wrap) : NeverFaults (serviceRx s) :=
  ((opRdu_neverFaults s).bind fun _ => (opXform_neverFaults _ hw).bind fun _ =>
    (neverFaults_whenBuilt _ _).bind fun _ => (neverFaults_whenBuilt _ _).map _).ite (neverFaults_ok _)

end

/-- Under the policy wrap an operation that faults is an IRQENT that meets F1 (R142). -/
theorem irqent_of_exec_fault (hw : Config.xformLow = .wrap) {i : Instr} {s : State} {f : Fault}
    (h : exec i s = .fault f) : i = .irqent ∧ enterService s = .error (.fault f) := by
  cases i
  case irqent =>
    refine ⟨rfl, ?_⟩
    obtain ⟨_, hx⟩ := perform_fault.1 h
    unfold whenEnabled at hx
    split at hx
    · cases hs : enterService s with
      | ok t => rw [hs] at hx; cases hx
      | error e => rw [hs] at hx; cases hx; rfl
    · cases hx
  case rxrdy | txrdy | ovr | clrovr | txien | txidis | rxien | unmask | wfi | rxarr _ =>
    exact absurd h ((neverFaults_ok _).perform_ne_fault f)
  case enq _ | deq | qempty | qlen => exact absurd h (((neverFaults_whenBuilt _ _).map _).perform_ne_fault f)
  case rdu => exact absurd h (((opRdu_neverFaults s).map _).perform_ne_fault f)
  case wru u => exact absurd h (((opWru_neverFaults s u).map _).perform_ne_fault f)
  case qnew => exact absurd h (((opQnew_neverFaults s).map _).perform_ne_fault f)
  case xform u => exact absurd h (((opXform_neverFaults u hw).map _).perform_ne_fault f)
  case handoff => exact absurd h (((opHandoff_neverFaults s).map _).perform_ne_fault f)
  case svctx => exact absurd h (((serviceTx_neverFaults s).map _).whenEnabled.perform_ne_fault f)
  case svcrx => exact absurd h (((serviceRx_neverFaults s hw).map _).whenEnabled.perform_ne_fault f)
  case svcovr | txdrn => exact absurd h ((neverFaults_ok _).whenEnabled.perform_ne_fault f)

/-- After the handoff IRQENT has nothing to meet, so no step faults. -/
theorem step_ne_fault_of_isr (hw : Config.xformLow = .wrap) {s : State} (ho : s.owner = .isr) (f : Fault) :
    step s ≠ .fault f := by
  intro h
  obtain ⟨i, u, hx, hu⟩ := step_fault h
  have huo : u.owner = .isr := by rw [hu]; exact ho
  obtain ⟨_, hf⟩ := irqent_of_exec_fault hw hx
  rw [enterService_ok.2 ⟨huo, rfl⟩] at hf
  cases hf

/-- Settles O54 by induction on the length of the run: ownership is never given back, so no step of it faults. -/
theorem noFaultAfterHandoff : Obligations.NoFaultAfterHandoff := by
  intro hw k
  induction k with
  | zero => intro _ _ _ h; cases h
  | succ k ih =>
    intro s f ho h
    rw [run_succ] at h
    cases hstep : step s with
    | next t =>
      rw [hstep] at h
      exact ih t f ((step_ownershipKept hstep).1 ho) h
    | fault g => exact step_ne_fault_of_isr hw ho g hstep
    | refused r => rw [hstep] at h; cases h

end Sys2Proof.Machine
end

