-- ==== Sys2Proof/Proofs/ServiceInvocation.lean ====
section
/-! SUPPORT. One whole service invocation with no line event inside it (spec/42_service_sequencer.md R146), seen through
the abstract queue of spec/10_state.md R23, and the schedule of invocations that drains the queue (R147, R184). -/

namespace Sys2Proof.Machine

/-! ### Chosen steps after the handoff (R9) -/

/-- The commands of a sequence of operations, each with its agent. -/
def commandsOf (steps : List (Option Agent × Instr)) : List Command := steps.map fun p => ⟨p.1, encode p.2⟩

theorem placeSteps_inbox (s : State) (steps : List (Option Agent × Instr)) :
    (s.placeSteps steps).inbox = commandsOf steps ++ s.inbox := rfl

theorem commandsOf_append (xs ys : List (Option Agent × Instr)) :
    commandsOf (xs ++ ys) = commandsOf xs ++ commandsOf ys := List.map_append

/-- The state in which agent `a` takes its step, before the commands `rest`. -/
def State.issuing (s : State) (a : Agent) (rest : List Command) : State :=
  { s with issuer := some a, inbox := rest, evaluated := [] }

/-- In the invariant after the handoff, unmasked, the sequencer at `p`. -/
abbrev ServiceAt (p : Phase) (s : State) : Prop := UfcInv s ∧ s.owner = .isr ∧ s.unmasked = true ∧ s.phase = p

section

variable {s t : State} {p : Phase}

theorem ServiceAt.queue_built (h : ServiceAt p s) : s.qbuilt = true ∧ QueueInv s := by
  obtain ⟨⟨hq, hisr, _⟩, ho, _⟩ := h
  obtain ⟨hb, _⟩ := hisr ho
  exact ⟨hb, hq hb⟩

/-- R39, read off the abstract queue. -/
theorem ServiceAt.txeie_eq (h : ServiceAt p s) : s.txeie = !s.queue.isEmpty := by
  obtain ⟨⟨_, hisr, _⟩, ho, _⟩ := h
  obtain ⟨_, hm⟩ := hisr ho
  rw [queue_isEmpty, Bool.eq_iff_iff, Bool.not_eq_true', queueEmpty_false]
  exact hm

/-- The chosen operation is the step, and leaves the rest of the inbox. -/
theorem step_chosen {a : Agent} {i : Instr} {rest : List Command} (hs : s.inbox = ⟨some a, encode i⟩ :: rest)
    (he : isEvaluation (some a) i = false) (h : exec i (s.issuing a rest) = .next t) (hp : ServiceAt p s) :
    step s = .next t ∧ t.inbox = rest ∧ ServiceAt t.phase t := by
  obtain ⟨hi, ho, hu, _⟩ := hp
  have hr := ran_of_exec h
  obtain ⟨_, hinbox, _⟩ := hr.own_fields_frame
  obtain ⟨hto, _, htu⟩ := hr.ownershipKept
  have hti : UfcInv t := hr.keeps_ufcInv (Option.some_ne_none a) (show UfcInv (s.issuing a rest) from hi)
  refine ⟨?step, hinbox, hti, hto ho, htu hu, rfl⟩
  rw [step_of_inbox_cons hs, takeCommands_step (c := ⟨some a, encode i⟩) _ (decodeOfEncode i) he]
  exact h

theorem run_step {k : Nat} (h : step s = .next t) : Host.Core.run core (k + 1) s = Host.Core.run core k t := by
  rw [run_succ, h]

end

/-! ### What each phase does to the units (R142 to R145) -/

/-- No unit moves. -/
structure UnitsKept (s t : State) : Prop where
  queue : t.queue = s.queue
  tdr : t.tdr = s.tdr
  txe : t.txe = s.txe
  rdr : t.rdr = s.rdr
  rxne : t.rxne = s.rxne
  txLine : t.txLine = s.txLine

/-- A ready transmitter takes the oldest unit of the queue, if there is one (R143). -/
structure OneSent (s t : State) : Prop where
  queue : t.queue = if s.txe then s.queue.tail else s.queue
  tdr : t.tdr = if s.txe then s.queue.headD s.tdr else s.tdr
  txe : t.txe = (s.txe && s.queue.isEmpty)
  rdr : t.rdr = s.rdr
  rxne : t.rxne = s.rxne
  txLine : t.txLine = s.txLine

/-- A unit received is transformed and enqueued, as far as the capacity reaches (R144). -/
structure OneReceived (s t : State) : Prop where
  queue : t.queue = if s.rxne then (listEnq (s.rdr - 32) s.queue).2 else s.queue
  tdr : t.tdr = s.tdr
  txe : t.txe = s.txe
  rxne : t.rxne = false
  txLine : t.txLine = s.txLine

section

variable {s t : State}

theorem listEnq_of_room {q : List Datum} (u : Datum) (h : q.length < 8) : (listEnq u q).2 = q ++ [u] := by
  rw [listEnq, if_pos h]

theorem listEnq_of_full {q : List Datum} (u : Datum) (h : 8 ≤ q.length) : (listEnq u q).2 = q := by
  rw [listEnq, if_neg (Nat.not_lt.2 h)]

@[simp] theorem afterRead_rxne (s : State) : (afterRead s).rxne = false := by rw [afterRead_eq]

/-- What SVCRX enqueues goes to the young end of the queue, as if it were enqueued alone. -/
theorem queue_pushTail_afterRead (d : Datum) (hq : QueueInv s) (hf : s.queueFull = false) :
    (pushTail d (afterRead s)).queue = s.queue ++ [d] := by
  rw [← (pushTail_spec d hq hf).1]
  exact queue_congr (by simp) (by simp) (by simp)

theorem oneSent_of_serviceTx (hq : QueueInv s) (h : serviceTx s = .ok t) : OneSent s t := by
  rcases serviceTx_ok.1 h with ⟨htx, rfl⟩ | ⟨htx, _, he, rfl⟩ | ⟨htx, _, he, rfl⟩
  · constructor <;> simp [htx]
  · have hnil := queue_of_empty he
    constructor <;> simp [htx, hnil]
  · obtain ⟨hpop, _⟩ := popHead_spec hq he
    cases (popHead s).queueEmpty <;> constructor <;> simp [htx, hpop]

theorem oneReceived_of_serviceRx (hq : QueueInv s) (hx : s.rxne = true → opXform s.rdr = .ok (s.rdr - 32#16))
    (h : serviceRx s = .ok t) : OneReceived s t := by
  rcases serviceRx_ok.1 h with ⟨hrx, rfl⟩ | ⟨hrx, _, hf, _, rfl⟩ | ⟨hrx, _, hf, d, hd, rfl⟩
  · constructor <;> simp [hrx]
  · have h8 : 8 ≤ s.queue.length := by rw [queue_length]; exact queueFull_iff.1 hf
    constructor <;> simp [hrx, queue_afterRead, listEnq_of_full _ h8]
  · have h7 : s.queue.length < 8 := by rw [queue_length]; exact queueFull_false.1 hf
    obtain rfl := Except.ok.inj ((hx hrx).symm.trans hd)
    have hpush := queue_pushTail_afterRead (s.rdr - 32#16) hq hf
    cases s.queueEmpty <;> constructor <;> simp [hrx, hpush, listEnq_of_room _ h7]

end

/-! ### The steps of an invocation, and of the line between two -/

section

variable {s : State} {rest : List Command}

theorem step_irqent (hs : s.inbox = commandsOf [(some .controller, .irqent)] ++ rest) (hp : ServiceAt .idle s)
    (hirq : s.irq = true) :
    ∃ t, step s = .next t ∧ t.inbox = rest ∧ ServiceAt .tx t ∧ UnitsKept s t := by
  have ⟨_, ho, hu, hidle⟩ := hp
  have hx : exec .irqent (s.issuing .controller rest) = _ :=
    execIrqent_next.2 ⟨admission_entry_of_issuer rfl, ⟨hu, hirq, hidle⟩, ho, rfl⟩
  obtain ⟨hstep, hin, ht⟩ := step_chosen hs rfl hx hp
  exact ⟨_, hstep, hin, ht, rfl, rfl, rfl, rfl, rfl, rfl⟩

theorem step_svctx (hs : s.inbox = commandsOf [(some .sequencer, .svctx)] ++ rest) (hp : ServiceAt .tx s) :
    ∃ t, step s = .next t ∧ t.inbox = rest ∧ ServiceAt .rx t ∧ OneSent s t := by
  obtain ⟨hb, hq⟩ := hp.queue_built
  have ⟨_, ho, _, htx⟩ := hp
  obtain ⟨u, hu⟩ := serviceTx_completes (s := s.issuing .sequencer rest) hb
  obtain ⟨hstep, hin, ht⟩ :=
    step_chosen hs rfl (exec_svctx_of_serviceTx (admission_phase_of_issuer rfl ho) htx hu) hp
  have hsent : OneSent (s.issuing .sequencer rest) u := oneSent_of_serviceTx hq hu
  exact ⟨_, hstep, hin, ht, { hsent with }⟩

theorem step_svcrx (hs : s.inbox = commandsOf [(some .sequencer, .svcrx)] ++ rest) (hp : ServiceAt .rx s)
    (hx : s.rxne = true → opXform s.rdr = .ok (s.rdr - 32#16)) :
    ∃ t, step s = .next t ∧ t.inbox = rest ∧ ServiceAt .ovr t ∧ OneReceived s t := by
  obtain ⟨hb, hq⟩ := hp.queue_built
  have ⟨_, ho, _, hrx⟩ := hp
  obtain ⟨u, hu⟩ := serviceRx_completes (s := s.issuing .sequencer rest) hb hx
  obtain ⟨hstep, hin, ht⟩ :=
    step_chosen hs rfl (exec_svcrx_of_serviceRx (admission_phase_of_issuer rfl ho) hrx hu) hp
  have hreceived : OneReceived (s.issuing .sequencer rest) u := oneReceived_of_serviceRx hq hx hu
  exact ⟨_, hstep, hin, ht, { hreceived with }⟩

theorem step_svcovr (hs : s.inbox = commandsOf [(some .sequencer, .svcovr)] ++ rest) (hp : ServiceAt .ovr s) :
    ∃ t, step s = .next t ∧ t.inbox = rest ∧ ServiceAt .idle t ∧ UnitsKept s t ∧ t.ore = false := by
  have ⟨_, ho, _, hovr⟩ := hp
  have hx : exec .svcovr (s.issuing .sequencer rest) = _ :=
    execSvcovr_next.2 ⟨admission_phase_of_issuer rfl ho, hovr, rfl⟩
  obtain ⟨hstep, hin, ht⟩ := step_chosen hs rfl hx hp
  exact ⟨_, hstep, hin, ht, ⟨rfl, rfl, rfl, rfl, rfl, rfl⟩, rfl⟩

theorem step_txdrn {p : Phase} (hs : s.inbox = commandsOf [(some .line, .txdrn)] ++ rest) (hp : ServiceAt p s)
    (htx : s.txe = false) :
    ∃ t, step s = .next t ∧ t.inbox = rest ∧ ServiceAt p t ∧ t.queue = s.queue ∧ t.txLine = s.txLine ++ [s.tdr] ∧
      t.txe = true ∧ t.rxne = s.rxne ∧ t.ore = s.ore := by
  have hx : exec .txdrn (s.issuing .line rest) = _ :=
    execTxdrn_next.2 ⟨admission_line_of_issuer rfl, htx, rfl⟩
  obtain ⟨hstep, hin, hi, ho, hu, _⟩ := step_chosen hs rfl hx hp
  obtain ⟨_, _, _, hphase⟩ := hp
  exact ⟨_, hstep, hin, ⟨hi, ho, hu, hphase⟩, rfl, rfl, rfl, rfl, rfl⟩

end

/-! ### One invocation (R146) -/

/-- What one whole invocation does to the units: it sends at most one, then receives at most one. -/
structure OneServed (s t : State) : Prop where
  queue : t.queue =
    let q := if s.txe then s.queue.tail else s.queue
    if s.rxne then (listEnq (s.rdr - 32) q).2 else q
  tdr : t.tdr = if s.txe then s.queue.headD s.tdr else s.tdr
  txe : t.txe = (s.txe && s.queue.isEmpty)
  rxne : t.rxne = false
  ore : t.ore = false
  txLine : t.txLine = s.txLine

theorem exists_cons_cons_of_two_le {q : List Datum} (h : 2 ≤ q.length) : ∃ u v q', q = u :: v :: q' := by
  match q, h with
  | u :: v :: q', _ => exact ⟨u, v, q', rfl⟩

theorem oneServed_of_phases {s s₁ s₂ s₃ t : State} (h₁ : UnitsKept s s₁) (h₂ : OneSent s₁ s₂) (h₃ : OneReceived s₂ s₃)
    (h₄ : UnitsKept s₃ t) (hore : t.ore = false) : OneServed s t where
  queue := by rw [h₄.queue, h₃.queue, h₂.queue, h₂.rdr, h₂.rxne, h₁.queue, h₁.txe, h₁.rdr, h₁.rxne]
  tdr := by rw [h₄.tdr, h₃.tdr, h₂.tdr, h₁.queue, h₁.txe, h₁.tdr]
  txe := by rw [h₄.txe, h₃.txe, h₂.txe, h₁.queue, h₁.txe]
  rxne := by rw [h₄.rxne, h₃.rxne]
  ore := hore
  txLine := by rw [h₄.txLine, h₃.txLine, h₂.txLine, h₁.txLine]

/-- The four steps of an invocation complete one after another, and end idle. -/
theorem run_invocation {s : State} {rest : List Command} (hs : s.inbox = commandsOf svcSteps ++ rest)
    (hp : ServiceAt .idle s) (hirq : s.irq = true) (hx : s.rxne = true → opXform s.rdr = .ok (s.rdr - 32#16)) :
    ∃ t, Host.Core.run core 4 s = .next t ∧ t.inbox = rest ∧ ServiceAt .idle t ∧ OneServed s t := by
  obtain ⟨s₁, hstep₁, hin₁, hp₁, hkept₁⟩ := step_irqent hs hp hirq
  obtain ⟨s₂, hstep₂, hin₂, hp₂, hsent⟩ := step_svctx hin₁ hp₁
  have hx₂ : s₂.rxne = true → opXform s₂.rdr = .ok (s₂.rdr - 32#16) := by
    rw [hsent.rxne, hsent.rdr, hkept₁.rxne, hkept₁.rdr]
    exact hx
  obtain ⟨s₃, hstep₃, hin₃, hp₃, hreceived⟩ := step_svcrx hin₂ hp₂ hx₂
  obtain ⟨t, hstep₄, hin₄, hp₄, hkept₄, hore⟩ := step_svcovr hin₃ hp₃
  refine ⟨t, ?_, hin₄, hp₄, oneServed_of_phases hkept₁ hsent hreceived hkept₄ hore⟩
  rw [run_step hstep₁, run_step hstep₂, run_step hstep₃, run_step hstep₄]
  rfl

/-- Settles O32: each row is the effect of an invocation on the units for its flags and its length, and TXEIE mirrors the
queue before and after. -/
theorem serviceInvocationTable : Obligations.ServiceInvocationTable := by
  intro hw s hi ho hu hirq hidle
  have hp : ServiceAt .idle s := ⟨hi, ho, hu, hidle⟩
  obtain ⟨t, hrun, hin, hpt, hserved⟩ := run_invocation (placeSteps_inbox s svcSteps) hp hirq
    fun _ => opXform_wrap hw s.rdr
  have hserved : OneServed s t := { hserved with }
  have ⟨_, _, _, hidle'⟩ := hpt
  obtain ⟨_, hcap, _⟩ := hp.queue_built
  have h8 : s.queue.length ≤ 8 := (queue_length s).trans_le hcap
  refine ⟨t, hrun, hidle', hserved.ore, hserved.rxne, hserved.txLine, hin, ?_⟩
  simp only [hserved.queue, hserved.tdr, hserved.txe, hpt.txeie_eq, hp.txeie_eq, ← queue_length]
  generalize s.queue = q at h8 ⊢
  refine ⟨fun htx hrx => ?unchanged, fun htx hrx h0 => ?spurious, fun htx hrx h1 => ?sendLast,
    fun htx hrx h2 => ?sendMore, fun htx hrx h0 => ?receiveFirst, fun htx hrx h1 h7 => ?receiveNext,
    fun htx hrx hfull => ?drop, fun htx hrx h0 => ?spuriousReceive, fun htx hrx h1 => ?sendLastReceive,
    fun htx hrx h2 => ?sendMoreReceive⟩
  case unchanged => simp [htx, hrx]
  case spurious =>
    obtain rfl := List.eq_nil_of_length_eq_zero h0
    simp [htx, hrx]
  case sendLast =>
    obtain ⟨u, rfl⟩ := List.length_eq_one_iff.1 h1
    simp [htx, hrx]
  case sendMore =>
    obtain ⟨u, v, q, rfl⟩ := exists_cons_cons_of_two_le h2
    simp [htx, hrx]
  case receiveFirst =>
    obtain rfl := List.eq_nil_of_length_eq_zero h0
    simp [htx, hrx, listEnq_of_room]
  case receiveNext => simp [htx, hrx, listEnq_of_room (q := q) _ (Nat.lt_succ_of_le h7)]
  case drop =>
    have hne : q ≠ [] := List.ne_nil_of_length_pos (by omega)
    simp [htx, hrx, listEnq_of_full (q := q) _ hfull.ge, hne]
  case spuriousReceive =>
    obtain rfl := List.eq_nil_of_length_eq_zero h0
    simp [htx, hrx, listEnq_of_room]
  case sendLastReceive =>
    obtain ⟨u, rfl⟩ := List.length_eq_one_iff.1 h1
    simp [htx, hrx, listEnq_of_room]
  case sendMoreReceive =>
    obtain ⟨u, v, q, rfl⟩ := exists_cons_cons_of_two_le h2
    simp [htx, hrx, listEnq_of_room (q := v :: q) _ (Nat.lt_of_succ_le h8)]

/-! ### Draining (R147, R184) -/

/-- Between two rounds: idle after the handoff, with a unit in flight and nothing received. -/
abbrev Draining (s : State) : Prop := ServiceAt .idle s ∧ s.txe = false ∧ s.rxne = false ∧ s.ore = false

/-- The line takes the unit in flight, and one invocation puts the next in its place. -/
def drainRound : List (Option Agent × Instr) := (some .line, .txdrn) :: svcSteps

/-- `n` rounds, one after another. -/
def drainRounds (n : Nat) : List (Option Agent × Instr) := (List.replicate n drainRound).flatten

theorem drainRounds_succ (n : Nat) : drainRounds (n + 1) = drainRound ++ drainRounds n := rfl

section

variable {s : State} {rest : List Command}

theorem irq_of_txeie (h : s.txeie = true) (htx : s.txe = true) : s.irq = true := (requestEquation s).2 (.inr ⟨h, htx⟩)

theorem run_drainRound {u : Datum} {q : List Datum} (hs : s.inbox = commandsOf drainRound ++ rest) (hd : Draining s)
    (hq : s.queue = u :: q) :
    ∃ t, Host.Core.run core 5 s = .next t ∧ t.inbox = rest ∧ Draining t ∧ t.queue = q ∧ t.tdr = u ∧
      t.txLine = s.txLine ++ [s.tdr] := by
  obtain ⟨hp, htx, hrx, hore⟩ := hd
  obtain ⟨s₁, hstep, hin, hp₁, hq₁, hline, htx₁, hrx₁, _⟩ := step_txdrn (rest := commandsOf svcSteps ++ rest) hs hp htx
  rw [hq] at hq₁
  have hirq : s₁.irq = true := irq_of_txeie (by rw [hp₁.txeie_eq, hq₁]; rfl) htx₁
  have hnone : s₁.rxne = false := hrx₁.trans hrx
  obtain ⟨t, hrun, hin', hp', hserved⟩ := run_invocation hin hp₁ hirq fun h => (nomatch hnone.symm.trans h)
  refine ⟨t, (run_step hstep).trans hrun, hin', ⟨hp', ?_, hserved.rxne, hserved.ore⟩, ?_, ?_,
    hserved.txLine.trans hline⟩
  · simp [hserved.txe, hq₁]
  · simp [hserved.queue, htx₁, hnone, hq₁]
  · simp [hserved.tdr, htx₁, hq₁]

/-- As many rounds as units are queued put them all on the line or, the youngest, in flight. -/
theorem run_drainRounds {q : List Datum} (hs : s.inbox = commandsOf (drainRounds q.length) ++ rest) (hd : Draining s)
    (hq : s.queue = q) :
    ∃ t, Host.Core.run core (5 * q.length) s = .next t ∧ t.inbox = rest ∧ Draining t ∧ t.queue = [] ∧
      t.txLine ++ [t.tdr] = s.txLine ++ s.tdr :: q := by
  induction q generalizing s with
  | nil => exact ⟨s, rfl, hs, hd, hq, rfl⟩
  | cons u q ih =>
    rw [List.length_cons, drainRounds_succ, commandsOf_append, List.append_assoc] at hs
    obtain ⟨s₁, hrun₁, hin₁, hd₁, hq₁, htdr, hline⟩ := run_drainRound hs hd hq
    obtain ⟨t, hrun, hin, hdt, hqt, hlt⟩ := ih hin₁ hd₁ hq₁
    refine ⟨t, ?_, hin, hdt, hqt, ?_⟩
    · rw [List.length_cons, Nat.mul_succ, Nat.add_comm, run_add _ _ _ _ hrun₁, hrun]
    · rw [hlt, hline, htdr, List.append_assoc]
      rfl

end

/-- Settles O33: the rounds drain the queue, and a last TXDRN puts the unit still in flight on the line. -/
theorem drainsInOrder : Obligations.DrainsInOrder := by
  intro s hi ho hu hidle htx hrx hore rounds
  have hd : Draining s := ⟨⟨hi, ho, hu, hidle⟩, htx, hrx, hore⟩
  have hs : (s.placeSteps (rounds ++ [(some .line, .txdrn)])).inbox =
      commandsOf (drainRounds s.queue.length) ++ (commandsOf [(some .line, .txdrn)] ++ s.inbox) := by
    rw [placeSteps_inbox, commandsOf_append, List.append_assoc, queue_length]
    rfl
  obtain ⟨s₁, hrun, hin, ⟨hp₁, htx₁, hrx₁, hore₁⟩, hq₁, hline₁⟩ := run_drainRounds hs hd rfl
  obtain ⟨t, hstep, hint, hpt, hqt, hline, htxt, hrxt, horet⟩ := step_txdrn hin hp₁ htx₁
  rw [hq₁] at hqt
  have htxeie : t.txeie = false := by rw [hpt.txeie_eq, hqt]; rfl
  have hirq : t.irq = false := by simp [State.irq, htxeie, hrxt.trans hrx₁, horet.trans hore₁]
  obtain ⟨_, _, _, hidle'⟩ := hpt
  refine ⟨t, ?_, hqt, hline.trans hline₁, htxeie, ⟨hidle', hirq, htxt⟩, hint⟩
  rw [← queue_length, run_add _ _ _ _ hrun, run_step hstep]
  rfl

end Sys2Proof.Machine
end

