-- ==== Sys2Proof/Proofs/Initialisation.lean ====
section
/-! SUPPORT. The initialisation of spec/43_initialization.md: HANDOFF and what it ends (R161, R166), UNMASK and WFI
(R162, R163), and the request that comes before the handoff (R165). -/

namespace Sys2Proof.Machine

/-! ### Admission of the initialiser (R90) -/

section

variable {s : State}

/-- The converse of `issuer_of_main`. -/
theorem admission_main_of_issuer (hi : s.issuer = some .initialiser) (hp : s.phase = .idle) :
    admission .main s = none := by
  simp [admission, hi, admissionInitialiser, hp]

/-- The handle is given away: every use of it is refused (E5), in an invocation or not. -/
theorem admission_initialiser_after_handoff {k : OpClass} (hi : s.issuer = some .initialiser) (ho : s.owner = .isr)
    (hk : k = .setup ∨ k = .handle ∨ k = .handoff) : admission k s = some .ownershipViolation := by
  rcases hk with rfl | rfl | rfl <;> simp [admission, hi, admissionInitialiser, ho]

end

/-- Groups 0 and 1 stand in two rows of R90's table: QNEW and RXIEN, and the rest. -/
theorem opClass_of_opcode_lt {i : Instr} (h : (opcode i).toNat < 0x20) : opClass i = .setup ∨ opClass i = .handle := by
  cases i
  case irqent | svctx | svcrx | svcovr | handoff | unmask | wfi | txdrn => exact absurd h (by decide)
  case xform _ | rxarr _ => exact absurd h (by rw [opcode]; decide)
  case qnew | rxien => exact .inl rfl
  all_goals exact .inr rfl

/-! ### HANDOFF, UNMASK and WFI (R161 to R163) -/

/-- Settles O39: the two paths of HANDOFF before the handoff, and after it the refusal that admission answers. -/
theorem handoffOnce : Obligations.HandoffOnce := by
  intro s hi
  refine ⟨fun hp ho hb => ?built, fun hp ho hb => ?notBuilt, fun ho => ⟨?again, fun i h => ?handle⟩⟩
  case built => exact execHandoff_next.2 ⟨admission_handoff_of_issuer hi ho hp, ho, hb, rfl⟩
  case notBuilt => exact execHandoff_of_not_built (admission_handoff_of_issuer hi ho hp) hb
  case again =>
    exact exec_of_not_admitted (i := .handoff) (admission_initialiser_after_handoff hi ho (.inr (.inr rfl)))
  case handle =>
    have hk := opClass_of_opcode_lt h
    exact exec_of_not_admitted (admission_initialiser_after_handoff hi ho (hk.imp id .inl))

/-- Settles O40: both are admitted in either state of OWNER, and each completes along its one path. -/
theorem unmaskAndWait : Obligations.UnmaskAndWait := by
  intro s hi hp
  have ha := admission_main_of_issuer hi hp
  exact ⟨execUnmask_next.2 ⟨ha, rfl⟩, execWfi_next.2 ⟨ha, rfl⟩⟩

/-! ### After the handoff (R166) -/

/-- A step of agent `a` ran its operation in the state before it but for the model's own fields. -/
theorem exec_of_step {s t : State} {a : Agent} (h : step s = .next t) (hi : t.issuer = some a) :
    ∃ (i : Instr) (r : Option Rsp), isEvaluation (some a) i = false ∧ exec i { s with
      issuer := some a, inbox := t.inbox, response := r, evaluated := t.evaluated, tick := t.tick } = .next t := by
  obtain ⟨i, u, hx, he, _, hu⟩ := step_next h
  obtain ⟨hissuer, hinbox, hevaluated, htick⟩ := (ran_of_exec hx).own_fields_frame
  have hui : u.issuer = some a := hissuer.symm.trans hi
  rw [hui] at he hu
  rw [hinbox, hevaluated, htick]
  exact ⟨i, u.response, he, hu ▸ hx⟩

/-- What is left to the initialiser: WFI, UNMASK and the evaluation of XFORM. -/
theorem operation_of_initialiser_after_handoff {i : Instr} {s t : State} (h : exec i s = .next t)
    (hi : s.issuer = some .initialiser) (ho : s.owner = .isr) : i = .wfi ∨ i = .unmask ∨ ∃ u, i = .xform u := by
  have ha := admission_of_exec h
  have hrefused := fun hk => admission_initialiser_after_handoff (k := opClass i) hi ho hk
  rw [ha] at hrefused
  cases i
  case wfi | unmask | xform _ => simp
  case irqent | svctx | svcrx | svcovr | rxarr _ | txdrn => rw [admission, hi] at ha; cases ha
  all_goals exact absurd (hrefused (by simp [opClass])) nofun

/-- None of the three writes anything but UNMASKED and the response. -/
theorem frame_of_initialiser_operation {i : Instr} {s t : State} (h : exec i s = .next t)
    (hop : i = .wfi ∨ i = .unmask ∨ ∃ u, i = .xform u) :
    t = { s with unmasked := t.unmasked, response := t.response } := by
  rcases hop with rfl | rfl | ⟨u, rfl⟩
  · obtain ⟨_, rfl⟩ := execWfi_next.1 h
    rfl
  · obtain ⟨_, rfl⟩ := execUnmask_next.1 h
    rfl
  · obtain ⟨_, _, _, rfl⟩ := execXform_next.1 h
    rfl

/-- Settles O44: admission leaves the initialiser three operations with their frame, and a step is not the third of
them, which is an evaluation. -/
theorem initialiserIsDoneAfterHandoff : Obligations.InitialiserIsDoneAfterHandoff := by
  refine ⟨fun s t h hi ho => ?step, fun i s t hi ho hx => ?operation⟩
  case step =>
    obtain ⟨i, r, he, hx⟩ := exec_of_step h hi
    have hop := operation_of_initialiser_after_handoff hx rfl ho
    refine ⟨r, ?_, frame_of_initialiser_operation hx hop⟩
    rcases hop with rfl | rfl | ⟨u, rfl⟩
    · exact .inl ⟨hx, (ran_of_exec hx).unmasked_frame.resolve_left nofun⟩
    · obtain ⟨_, ht⟩ := execUnmask_next.1 hx
      exact .inr ⟨hx, congrArg State.unmasked ht⟩
    · cases he
  case operation =>
    have hop := operation_of_initialiser_after_handoff hx hi ho
    obtain ⟨_, _, hunmasked⟩ := (ran_of_exec hx).ownershipKept
    exact ⟨hop, frame_of_initialiser_operation hx hop, hunmasked⟩

/-! ### A request before the handoff (R165, R237) -/

/-- Ready to request service, with the peripheral still in the hands of the initialiser. -/
abbrev UnmaskedEarly (s : State) : Prop :=
  s.owner = .init ∧ s.unmasked = true ∧ s.rxneie = true ∧ s.phase = .idle

/-- After an arrival RXNE is 1, whatever it was. -/
theorem exists_opRxarr_eq (u : Datum) (s : State) : ∃ (rdr : Datum) (ore : Bool) (dropOvr : Nat),
    opRxarr u s = { s with rxne := true, rdr := rdr, ore := ore, dropOvr := dropOvr } := by
  cases hrx : s.rxne with
  | false => exact ⟨u, s.ore, s.dropOvr, by simp [opRxarr, hrx, State.loadRdr, State.setRxne]⟩
  | true => exact ⟨s.rdr, true, s.dropOvr + 1, by simp [opRxarr, hrx, State.setOre, State.countDropOvr]⟩

section

variable {s : State} {rest : List Command}

/-- A chosen operation that is no evaluation is the step. -/
theorem step_of_inbox_encode {a : Agent} {i : Instr} (hs : s.inbox = ⟨some a, encode i⟩ :: rest)
    (he : isEvaluation (some a) i = false) : step s = exec i (s.issuing a rest) := by
  rw [step_of_inbox_cons hs, takeCommands_step (c := ⟨some a, encode i⟩) _ (decodeOfEncode i) he]
  rfl

theorem step_rxarr_of_unmaskedEarly {u : Datum} (hs : s.inbox = commandsOf [(some .line, .rxarr u)] ++ rest)
    (h : UnmaskedEarly s) : ∃ t, step s = .next t ∧ t.inbox = rest ∧ UnmaskedEarly t ∧ t.rxne = true := by
  obtain ⟨rdr, ore, n, hop⟩ := exists_opRxarr_eq u (s.issuing .line rest)
  have hx : exec (.rxarr u) (s.issuing .line rest) = .next ((opRxarr u (s.issuing .line rest)).respond .nothing) :=
    execRxarr_next.2 ⟨admission_line_of_issuer rfl, rfl⟩
  rw [hop] at hx
  exact ⟨_, (step_of_inbox_encode hs rfl).trans hx, rfl, h, rfl⟩

theorem step_irqent_of_unmaskedEarly (hs : s.inbox = commandsOf [(some .controller, .irqent)] ++ rest)
    (h : UnmaskedEarly s) (hrx : s.rxne = true) : step s = .fault .uninitializedService := by
  obtain ⟨ho, hm, he, hp⟩ := h
  have hirq : s.irq = true := (requestEquation s).2 (.inl ⟨he, .inl hrx⟩)
  exact (step_of_inbox_encode hs rfl).trans
    (execIrqent_of_init (s := s.issuing .controller rest) (admission_entry_of_issuer rfl) hm hirq hp ho)

theorem run_request_of_unmaskedEarly {u : Datum}
    (hs : s.inbox = commandsOf [(some .line, .rxarr u), (some .controller, .irqent)]) (h : UnmaskedEarly s) :
    Host.Core.run core 2 s = .fault .uninitializedService := by
  obtain ⟨t, hstep, hin, ht, hrx⟩ := step_rxarr_of_unmaskedEarly hs h
  rw [run_step hstep, run_succ, step_irqent_of_unmaskedEarly hin ht hrx]

end

/-- Settles O42: QNEW, RXIEN and UNMASK complete, with the draw left free, and the arrival is a request that IRQENT
faults on. -/
theorem unmaskBeforeHandoffFaults : Obligations.UnmaskBeforeHandoffFaults := fun _ _ =>
  (run_add 3 2 _ _ rfl).trans (run_request_of_unmaskedEarly rfl ⟨rfl, rfl, rfl, rfl⟩)

end Sys2Proof.Machine
end

