-- ==== Sys2Proof/Proofs/LineEvents.lean ====
section
/-! SUPPORT. The line events of spec/44_line_events.md: RXARR and TXDRN one by one (R181, R182), what they write and when
they step (R180), and what is on the line after a run against what arrived (R183). -/

namespace Sys2Proof.Machine

/-! ### RXARR and TXDRN (R181, R182) -/

section

variable {s : State}

theorem opRxarr_of_empty (u : Datum) (h : s.rxne = false) : opRxarr u s = (s.loadRdr u).setRxne :=
  if_neg (Bool.eq_false_iff.1 h)

theorem opRxarr_of_full (u : Datum) (h : s.rxne = true) : opRxarr u s = s.setOre.countDropOvr := if_pos h

/-- RXARR completes in every state. -/
theorem exec_rxarr_of_issuer (u : Datum) (hi : s.issuer = some .line) :
    exec (.rxarr u) s = .next ((opRxarr u s).respond .nothing) :=
  execRxarr_next.2 ⟨admission_line_of_issuer hi, rfl⟩

theorem exec_txdrn_of_busy (hi : s.issuer = some .line) (h : s.txe = false) :
    exec .txdrn s = .next (s.emitTdr.setTxe.respond .nothing) :=
  execTxdrn_next.2 ⟨admission_line_of_issuer hi, h, rfl⟩

end

/-- Settles O45: RXARR has no condition, and its rule has one path for each value of RXNE. -/
theorem arrival : Obligations.Arrival := by
  intro s u hi
  rw [exec_rxarr_of_issuer u hi]
  refine ⟨fun hrx => ?empty, fun hrx => ?full⟩
  case empty => rw [opRxarr_of_empty u hrx]; rfl
  case full => rw [opRxarr_of_full u hrx]; rfl

/-- Settles O46: TXDRN completes while TDR waits, and without that its condition fails. -/
theorem transmitRegisterDrains : Obligations.TransmitRegisterDrains := fun s hi =>
  ⟨fun htx => exec_txdrn_of_busy hi htx,
   fun htx => perform_of_not_enabled (admission_line_of_issuer hi) (c := !s.txe) (by rw [htx]; rfl)⟩

/-! ### What the line writes, and when it steps (R180) -/

section

variable {i : Instr} {s t : State}

/-- The line's own operations are its two events. -/
theorem operation_of_line (hi : s.issuer = some .line) (ha : admission (opClass i) s = none) :
    (∃ u, i = .rxarr u) ∨ i = .txdrn := by
  rw [admission, hi] at ha
  cases i
  case rxarr u => exact .inl ⟨u, rfl⟩
  case txdrn => exact .inr rfl
  all_goals cases ha

/-- What the line does not issue is refused, and its two events have no fault to meet. -/
theorem exec_ne_fault_of_line (hi : s.issuer = some .line) (f : Fault) : exec i s ≠ .fault f := by
  cases ha : admission (opClass i) s with
  | some r => rw [exec_of_not_admitted ha]; exact nofun
  | none =>
    rcases operation_of_line hi ha with ⟨u, rfl⟩ | rfl
    · exact (neverFaults_ok _).perform_ne_fault f
    · exact (neverFaults_ok _).whenEnabled.perform_ne_fault f

/-- Each path of the two events writes flags, RDR and the line's ghosts only. -/
theorem Ran.line_frame (h : Ran i s t) (hi : (∃ u, i = .rxarr u) ∨ i = .txdrn) : t = { s with
    rxne := t.rxne, ore := t.ore, rdr := t.rdr, txe := t.txe, txLine := t.txLine, dropOvr := t.dropOvr,
    response := t.response } := by
  rcases hi with ⟨u, rfl⟩ | rfl
  · cases h
    case rxarrLoad | rxarrOverrun => rfl
  · cases h
    case txdrn => rfl

end

/-- Settles O47: admission leaves the line its two events, which have no fault and no other condition than TXDRN's. -/
theorem lineTouchesOnlyItsFlags : Obligations.LineTouchesOnlyItsFlags := by
  intro i s hi
  refine ⟨fun f => exec_ne_fault_of_line hi f, fun t h => ?frame, fun henabled => ?completes⟩
  case frame => exact (ran_of_exec h).line_frame (operation_of_line hi (admission_of_exec h))
  case completes =>
    rcases henabled with ⟨u, rfl⟩ | ⟨rfl, htx⟩
    · exact ⟨_, exec_rxarr_of_issuer u hi⟩
    · exact ⟨_, exec_txdrn_of_busy hi htx⟩

/-! ### What commands deliver -/

/-- The transforms of the units that the commands deliver, in order. -/
def deliveredImages (cs : List Command) : List Datum := (deliveredUnits cs).flatMap transformed

@[simp] theorem deliveredImages_nil : deliveredImages [] = [] := rfl

theorem deliveredImages_append (cs ds : List Command) :
    deliveredImages (cs ++ ds) = deliveredImages cs ++ deliveredImages ds := by
  simp [deliveredImages, deliveredUnits]

theorem deliveredImages_of_rxarr {c : Command} {u : Datum} (hd : decode c.word = .ok (.rxarr u)) :
    deliveredImages [c] = transformed u := by
  simp [deliveredImages, deliveredUnits, hd]

/-- An evaluation is an XFORM, which delivers nothing. -/
theorem deliveredImages_of_evaluations {cs : List Command} (h : ∀ c ∈ cs, EvaluationCommand c) :
    deliveredImages cs = [] := by
  induction cs with
  | nil => rfl
  | cons c cs ih =>
    obtain ⟨⟨i, hd, he⟩, hcs⟩ := List.forall_mem_cons.1 h
    obtain ⟨_, u, rfl⟩ := isEvaluation_iff.1 he
    rw [← List.singleton_append, deliveredImages_append, ih hcs]
    simp [deliveredImages, deliveredUnits, hd]

/-! ### The line as the image of what arrived (R183) -/

section

variable {s t u : State} {cs ds : List Command}

/-- From `s` to `t` the commands `cs` were taken, and what is sent or on its way in `t` is, in order, part of what was in
`s` and then of what `cs` delivered. -/
structure Carried (cs : List Command) (s t : State) : Prop where
  inbox : s.inbox = cs ++ t.inbox
  pipeline : List.Sublist t.pipeline (s.pipeline ++ deliveredImages cs)

theorem Carried.refl (s : State) : Carried [] s s := ⟨rfl, by simp⟩

theorem Carried.trans (h : Carried cs s u) (h' : Carried ds u t) : Carried (cs ++ ds) s t where
  inbox := by rw [h.inbox, h'.inbox, List.append_assoc]
  pipeline := by
    rw [deliveredImages_append, ← List.append_assoc]
    exact h'.pipeline.trans (h.pipeline.append_right _)

/-- A command's operation carries what was on its way and what the command delivers, or less. -/
theorem Ran.pipeline_sublist {i : Instr} {c : Command} (h : Ran i s t) (hs : UfcInv s) (hi : s.issuer ≠ none)
    (hd : decode c.word = .ok i) : List.Sublist t.pipeline (s.pipeline ++ deliveredImages [c]) := by
  rcases h.pipeline_cases hs hi with hkept | ⟨u, rfl, _, harrived⟩ | ⟨_, _, _, hlost⟩
  · rw [hkept]; exact List.sublist_append_left _ _
  · rw [harrived, deliveredImages_of_rxarr hd]
  · rw [← hlost, List.append_assoc]; exact List.sublist_append_left _ _

theorem step_tick_le (h : step s = .next t) : s.tick ≤ t.tick := by
  obtain ⟨i, u, hr, htook, _⟩ := ran_of_step h
  obtain ⟨_, _, _, htick⟩ := hr.own_fields_frame
  rw [htick]
  cases htook with
  | chosen _ _ _ _ _ _ ht => exact ht.ge
  | free _ _ _ _ ht => rw [ht]; exact Nat.le_succ _

theorem run_tick_le {k : Nat} (h : Host.Core.run core k s = .next t) : s.tick ≤ t.tick :=
  run_keeps (P := fun v => s.tick ≤ v.tick) (fun _ _ hk hstep => hk.trans (step_tick_le hstep)) k s t le_rfl h

/-- A chosen step takes its evaluations, which deliver nothing, and its command. -/
theorem step_carried (hs : UfcInv s) (hc : InContext s) (h : step s = .next t) (htick : t.tick = s.tick) :
    ∃ cs, Carried cs s t := by
  obtain ⟨i, u, hr, htook, hu⟩ := ran_of_step h
  obtain ⟨hi, _⟩ := htook.inContext hc
  obtain ⟨_, hinbox, _, htu⟩ := hr.own_fields_frame
  have hus : UfcInv u := by rw [hu]; exact hs
  have hpipeline : u.pipeline = s.pipeline := by rw [hu]; rfl
  cases htook with
  | chosen pre c hcs hpre _ hd _ =>
    refine ⟨pre ++ [c], ?inbox, ?pipeline⟩
    case inbox => rw [hcs, hinbox, List.append_assoc]; rfl
    case pipeline =>
      rw [deliveredImages_append, deliveredImages_of_evaluations hpre, ← hpipeline]
      exact hr.pipeline_sublist hus hi hd
  | free _ _ _ _ ht =>
    rw [htu, ht] at htick
    exact absurd htick (Nat.succ_ne_self _)

/-- No step takes `tick` back, so each step of a run that leaves it is a chosen one. -/
theorem run_carried {k : Nat} (hs : UfcInv s) (hc : InContext s) (h : Host.Core.run core k s = .next t)
    (htick : t.tick = s.tick) : ∃ cs, Carried cs s t := by
  induction k generalizing s with
  | zero => cases h; exact ⟨[], .refl _⟩
  | succ k ih =>
    rw [run_succ] at h
    cases hstep : step s with
    | next u =>
      rw [hstep] at h
      have hut : u.tick = s.tick := Nat.le_antisymm (htick ▸ run_tick_le h) (step_tick_le hstep)
      obtain ⟨hus, huc⟩ := everyStepKeepsInvariant s u hs hc hstep
      obtain ⟨cs, hfirst⟩ := step_carried hs hc hstep hut
      obtain ⟨ds, hrest⟩ := ih hus huc h (htick.trans hut.symm)
      exact ⟨cs ++ ds, hfirst.trans hrest⟩
    | fault f => rw [hstep] at h; cases h
    | refused r => rw [hstep] at h; cases h

theorem Carried.taken_eq (h : Carried cs s t) : s.inbox.take (s.inbox.length - t.inbox.length) = cs := by
  rw [h.inbox]
  exact List.take_left' (by simp)

end

theorem txLine_sublist_pipeline (s : State) : List.Sublist s.txLine s.pipeline := by
  rw [pipeline_eq, List.append_assoc, List.append_assoc]
  exact List.sublist_append_left _ _

/-- Settles O56: what the run carries, with the line as the front of what is sent or on its way. -/
theorem lineIsImageOfArrivals : Obligations.LineIsImageOfArrivals := by
  intro k s t hs hc h htick
  obtain ⟨cs, hcarried⟩ := run_carried hs hc h htick
  simp only [hcarried.taken_eq]
  exact (txLine_sublist_pipeline t).trans hcarried.pipeline

end Sys2Proof.Machine
end

