-- ==== Sys2Proof/Proofs/Exceptions.lean ====
section
/-! SUPPORT. Errors and faults (spec/60_exceptions.md): the ghost counters of R38 against the error kinds of R191 to R194,
and the one fault F1 of R196. -/

namespace Sys2Proof.Machine

/-! ### How often a step raises a kind (R191 to R194) -/

/-- Whether the step of `i` in `s` raises an error kind, each kind by its own rule. -/
def raises (i : Instr) (s : State) : ErrorKind → Bool
  | .queueFull             => raisesQueueFull i s
  | .lineOverrun           => raisesLineOverrun i s
  | .spuriousTransmitReady => raisesSpurious i s
  | .arithmeticUnderflow   => raisesUnderflow i s

theorem count_ite_singleton (c : Bool) (k k' : ErrorKind) :
    (if c then [k'] else []).count k = if k' = k then c.toNat else 0 := by
  cases c <;> simp [List.count_singleton]

/-- A step raises each kind once or not at all. -/
theorem count_errorKinds (i : Instr) (s : State) (k : ErrorKind) :
    (errorKinds i s).count k = (raises i s k).toNat := by
  cases k <;> simp [errorKinds, count_ite_singleton, raises]

/-! ### The ghost counters, path by path (R38) -/

section

variable {s : State}

@[simp] theorem afterRead_dropFull : (afterRead s).dropFull = s.dropFull := by rw [afterRead_eq]
@[simp] theorem afterRead_dropOvr : (afterRead s).dropOvr = s.dropOvr := by rw [afterRead_eq]
@[simp] theorem afterRead_spuriousTx : (afterRead s).spuriousTx = s.spuriousTx := by rw [afterRead_eq]

/-- Reading a unit counts an underflow exactly when SVCRX on it raises one (R144, R194). -/
theorem afterRead_underflowCnt (h : s.rxne = true) :
    (afterRead s).underflowCnt = s.underflowCnt + (raisesUnderflow .svcrx s).toNat := by
  rw [afterRead_eq]
  by_cases hu : s.rdr.toNat < Config.xformOffset <;> simp [raisesUnderflow, h, hu]

end

section

variable {i : Instr} {s t : State}

/-- R191: the path of SVCRX that meets a full queue counts, no other path does. -/
theorem Ran.dropFull_eq (h : Ran i s t) : t.dropFull = s.dropFull + (raisesQueueFull i s).toNat := by
  cases h
  case svcrxNone _ hrx => simp [raisesQueueFull, hrx]
  case svcrxFull _ hrx _ hf _ => simp [raisesQueueFull, hrx, hf]
  case svcrxFirst hf _ _ | svcrxNext hf _ _ => simp [raisesQueueFull, hf]
  all_goals rfl

/-- R192: RXARR counts when RDR still holds a unit, no other path does. -/
theorem Ran.dropOvr_eq (h : Ran i s t) : t.dropOvr = s.dropOvr + (raisesLineOverrun i s).toNat := by
  cases h
  case rxarrLoad hrx | rxarrOverrun hrx => simp [raisesLineOverrun, hrx]
  all_goals simp [raisesLineOverrun]

/-- R193: the path of SVCTX that finds the queue empty counts, no other path does. -/
theorem Ran.spuriousTx_eq (h : Ran i s t) : t.spuriousTx = s.spuriousTx + (raisesSpurious i s).toNat := by
  cases h
  case svctxNotReady _ htx => simp [raisesSpurious, htx]
  case svctxEmpty _ htx _ he => simp [raisesSpurious, htx, he]
  case svctxLast he _ | svctxMore he _ => simp [raisesSpurious, he]
  all_goals simp [raisesSpurious]

/-- R194: the paths of SVCRX that read a unit count one below 32, no other path does. -/
theorem Ran.underflowCnt_eq (h : Ran i s t) : t.underflowCnt = s.underflowCnt + (raisesUnderflow i s).toNat := by
  cases h
  case svcrxNone _ hrx => simp [raisesUnderflow, hrx]
  case svcrxFull _ hrx _ _ _ | svcrxFirst _ hrx _ _ _ _ | svcrxNext _ hrx _ _ _ _ => simp [afterRead_underflowCnt hrx]
  all_goals rfl

end

/-- Settles O37, one counter for each error kind. -/
theorem errorKindsAreCounted : Obligations.ErrorKindsAreCounted := by
  intro i s t h
  have hr := ran_of_exec h
  simp only [count_errorKinds]
  exact ⟨hr.dropFull_eq, hr.dropOvr_eq, hr.spuriousTx_eq, hr.underflowCnt_eq⟩

/-! ### The one fault (R142, R196) -/

/-- The entry of an invocation faults with F1, and before the handoff only. -/
theorem enterService_fault {s : State} {f : Fault} :
    enterService s = .error (.fault f) ↔ s.owner = .init ∧ f = .uninitializedService := by
  cases h : s.owner <;> simp [enterService, h, eq_comm (a := f)]

/-- Settles O53: what faults is an IRQENT, at the entry of the invocation. -/
theorem onlyFaultIsUninitializedService : Obligations.OnlyFaultIsUninitializedService := by
  intro hw i s f h
  obtain ⟨hi, hf⟩ := irqent_of_exec_fault hw h
  obtain ⟨ho, hu⟩ := enterService_fault.1 hf
  exact ⟨hu, hi, ho⟩

end Sys2Proof.Machine
end

