-- ==== Sys2Proof/Proofs/Quiescence.lean ====
section
/-! SUPPORT. What a quiescent state has left to do (spec/70_reset_and_hazards.md R243): with no request nothing is
received, with the transmitter empty nothing waits, and TXEIE mirrors the queue. -/

namespace Sys2Proof.Machine

section

variable {s : State}

/-! ### What no request says (R36) -/

theorem irq_of_rxne (h : s.rxneie = true) (hrx : s.rxne = true) : s.irq = true :=
  (requestEquation s).2 (.inl ⟨h, .inl hrx⟩)

theorem irq_of_ore (h : s.rxneie = true) (hore : s.ore = true) : s.irq = true :=
  (requestEquation s).2 (.inl ⟨h, .inr hore⟩)

/-- While RXNEIE is 1 and TXE is 1, a state makes no request only if nothing is received, nothing is overrun and TXEIE
is 0. -/
theorem flags_clear_of_no_irq (hie : s.rxneie = true) (htx : s.txe = true) (hirq : s.irq = false) :
    s.rxne = false ∧ s.ore = false ∧ s.txeie = false := by
  have hno : ¬ s.irq = true := Bool.eq_false_iff.1 hirq
  exact ⟨Bool.eq_false_iff.2 fun h => hno (irq_of_rxne hie h), Bool.eq_false_iff.2 fun h => hno (irq_of_ore hie h),
    Bool.eq_false_iff.2 fun h => hno (irq_of_txeie h htx)⟩

/-! ### An empty queue and an empty pipeline (R39, R149) -/

/-- The mirror of R39 read backwards: TXEIE 0 means an empty queue. -/
theorem queue_nil_of_mirror (hm : Mirror s) (ht : s.txeie = false) : s.queue = [] := by
  have hlen : ¬ 0 < s.len.toNat := fun h => Bool.eq_false_iff.1 ht (hm.2 h)
  exact queue_of_empty (queueEmpty_iff.2 (Nat.eq_zero_of_not_pos hlen))

/-- With TDR, a built queue and RDR empty, all that is sent or on its way is on the line. -/
theorem pipeline_eq_txLine (htx : s.txe = true) (hb : s.qbuilt = true) (hq : s.queue = []) (hrx : s.rxne = false) :
    s.pipeline = s.txLine := by
  rw [pipeline_eq, waiting_of_ready htx, held_of_built hb, hq, unread_of_none hrx]
  simp only [List.append_nil]

end

/-- Settles O60: no request means no unit received, no overrun and TXEIE 0, so the mirror empties the queue; with TXE 1
no part of the pipeline behind the line holds a unit. -/
theorem quiescentMeansAllSent : Obligations.QuiescentMeansAllSent := by
  intro s hs ho hie hquiet
  obtain ⟨_, hisr, _⟩ := hs
  obtain ⟨_, hirq, htx⟩ := hquiet
  obtain ⟨hb, hm⟩ := hisr ho
  obtain ⟨hrx, hore, htxeie⟩ := flags_clear_of_no_irq hie htx hirq
  have hq : s.queue = [] := queue_nil_of_mirror hm htxeie
  exact ⟨hrx, hore, htxeie, hq, pipeline_eq_txLine htx hb hq hrx⟩

end Sys2Proof.Machine
end
